-- ==== Sys2Proof/Word.lean ====
section
/-! DEFINITION. The two word types of PNGCP: the 8-bit byte and the 32-bit word (00_scope.md R11). -/

namespace Sys2Proof

/-- A byte is 8 bits (00_scope.md R11). -/
abbrev Byte := BitVec 8

/-- Registers, host data, host offsets and the command word are 32 bits (00_scope.md R11). -/
abbrev Word := BitVec 32

end Sys2Proof
end

