-- ==== Sys2Proof/Syntax.lean ====
section
/-! DEFINITION. The commands of PNGCP as syntax, one constructor for each row of the opcode map
(30_encoding.md R83), and the filter types of the source's table (42_defilter.md R152). -/

namespace Sys2Proof

/-- The eleven commands of 30_encoding.md R83, each with its byte operands of the command word.
Operands wider than a byte come from ARG0 and ARG1 (R82) and are not part of a command. -/
inductive Instr where
  /-- NOP, OPC 0x00 (43_control.md R180). -/
  | nop
  /-- CRC_INIT, OPC 0x01 (40_crc.md R103). -/
  | crcInit
  /-- CRC_BYTE, OPC 0x02, F1 = the data byte (40_crc.md R104). -/
  | crcByte (d : Byte)
  /-- CRC_BUF, OPC 0x03 (40_crc.md R105). -/
  | crcBuf
  /-- CRC_FINAL, OPC 0x04 (40_crc.md R106). -/
  | crcFinal
  /-- PARSE_RESET, OPC 0x10 (41_parser.md R125). -/
  | parseReset
  /-- PARSE_NEXT, OPC 0x11 (41_parser.md R126). -/
  | parseNext
  /-- PAETH, OPC 0x20, F1 = left, F2 = above, F3 = above-left (42_defilter.md R153). -/
  | paeth (a b c : Byte)
  /-- UNFILT, OPC 0x21, F1 = filter tag (42_defilter.md R154). -/
  | unfilt (t : Byte)
  /-- ROW_CLEAR, OPC 0x22 (42_defilter.md R155). -/
  | rowClear
  /-- ROW_UNFILT, OPC 0x23, F1 = filter tag, F2 = bytes per pixel (42_defilter.md R156). -/
  | rowUnfilt (t bpp : Byte)
deriving DecidableEq, Repr

/-- The rows of the opcode map (30_encoding.md R83), without their operands. -/
inductive Opcode where
  | nop | crcInit | crcByte | crcBuf | crcFinal | parseReset | parseNext
  | paeth | unfilt | rowClear | rowUnfilt
deriving DecidableEq, Repr

/-- The filter types of 42_defilter.md R152, tags 0 to 4. -/
inductive FilterType where
  | none | sub | up | average | paeth
deriving DecidableEq, Repr

end Sys2Proof
end

