-- ==== Sys2Proof/WellFormed.lean ====
section
/-! DEFINITION. Which commands carry operands their own rule can use (42_defilter.md R154, R156). A command
that is not well-formed still decodes and runs: the value checks come after decoding (30_encoding.md R84)
and raise an error code (log 19). -/

namespace Sys2Proof

/-- A filter tag is one of 0 to 4 (42_defilter.md R152). -/
def tagLegal (t : Byte) : Bool := t.toNat ≤ 4

/-- bpp is 1 to 255 (00_scope.md R11). -/
def bppLegal (bpp : Byte) : Bool := bpp.toNat != 0

/-- The byte operands are legal for the command: tags 0 to 4 and bpp not 0. Every other byte operand is
used as it stands (30_encoding.md R81). -/
def Instr.wf : Instr → Bool
  | .nop => true
  | .crcInit => true
  | .crcByte _ => true
  | .crcBuf => true
  | .crcFinal => true
  | .parseReset => true
  | .parseNext => true
  | .paeth _ _ _ => true
  | .unfilt t => tagLegal t
  | .rowClear => true
  | .rowUnfilt t bpp => tagLegal t && bppLegal bpp

end Sys2Proof
end

