-- ==== Sys2Proof/Decode.lean ====
section
/-! DEFINITION. The command word's fields (30_encoding.md R80), its decoding (R84), total on every word and
rejecting by name, the encoder, and the opcode table as masks and patterns. -/

namespace Sys2Proof

/-! ### Fields of the command word (R80) -/

/-- OPC, bits 7:0. -/
def fieldOPC (w : Word) : Byte := w.extractLsb' 0 8
/-- F1, bits 15:8. -/
def fieldF1 (w : Word) : Byte := w.extractLsb' 8 8
/-- F2, bits 23:16. -/
def fieldF2 (w : Word) : Byte := w.extractLsb' 16 8
/-- F3, bits 31:24. -/
def fieldF3 (w : Word) : Byte := w.extractLsb' 24 8

/-- `word = {F3, F2, F1, OPC}` (R80). -/
def packWord (f3 f2 f1 opc : Byte) : Word := f3 ++ f2 ++ f1 ++ opc

/-! ### The opcode map (R83) -/

/-- The OPC column of R83. -/
def Opcode.code : Opcode → Byte
  | .nop => 0x00
  | .crcInit => 0x01
  | .crcByte => 0x02
  | .crcBuf => 0x03
  | .crcFinal => 0x04
  | .parseReset => 0x10
  | .parseNext => 0x11
  | .paeth => 0x20
  | .unfilt => 0x21
  | .rowClear => 0x22
  | .rowUnfilt => 0x23

/-- The rows of R83, in its order. -/
def Opcode.all : List Opcode :=
  [.nop, .crcInit, .crcByte, .crcBuf, .crcFinal, .parseReset, .parseNext,
   .paeth, .unfilt, .rowClear, .rowUnfilt]

/-- The row of R83 whose OPC is `b`, if there is one. -/
def Opcode.ofByte (b : Byte) : Option Opcode :=
  Opcode.all.find? (fun op => op.code == b)

/-- F1 is marked "0" in the row's F1 column of R83. -/
def Opcode.f1Zero : Opcode → Bool
  | .crcByte => false
  | .paeth => false
  | .unfilt => false
  | .rowUnfilt => false
  | .nop => true
  | .crcInit => true
  | .crcBuf => true
  | .crcFinal => true
  | .parseReset => true
  | .parseNext => true
  | .rowClear => true

/-- F2 is marked "0" in the row's F2 column of R83. -/
def Opcode.f2Zero : Opcode → Bool
  | .paeth => false
  | .rowUnfilt => false
  | .nop => true
  | .crcInit => true
  | .crcByte => true
  | .crcBuf => true
  | .crcFinal => true
  | .parseReset => true
  | .parseNext => true
  | .unfilt => true
  | .rowClear => true

/-- F3 is marked "0" in the row's F3 column of R83. -/
def Opcode.f3Zero : Opcode → Bool
  | .paeth => false
  | .nop => true
  | .crcInit => true
  | .crcByte => true
  | .crcBuf => true
  | .crcFinal => true
  | .parseReset => true
  | .parseNext => true
  | .unfilt => true
  | .rowClear => true
  | .rowUnfilt => true

/-- The row's command with the operands `f1`, `f2`, `f3` (the last line of R84). -/
def Opcode.instr (op : Opcode) (f1 f2 f3 : Byte) : Instr :=
  match op with
  | .nop => .nop
  | .crcInit => .crcInit
  | .crcByte => .crcByte f1
  | .crcBuf => .crcBuf
  | .crcFinal => .crcFinal
  | .parseReset => .parseReset
  | .parseNext => .parseNext
  | .paeth => .paeth f1 f2 f3
  | .unfilt => .unfilt f1
  | .rowClear => .rowClear
  | .rowUnfilt => .rowUnfilt f1 f2

/-! ### Decoding (R84) -/

/-- Why a word is illegal (R85). -/
inductive DecodeError where
  /-- OPC is in no row of R83. -/
  | undefinedOpcode
  /-- F1 is nonzero where the row marks "0". -/
  | nonzeroF1
  /-- F2 is nonzero where the row marks "0". -/
  | nonzeroF2
  /-- F3 is nonzero where the row marks "0". -/
  | nonzeroF3
deriving DecidableEq, Repr

/-- Decoding a command word (R84). -/
def decode (w : Word) : Except DecodeError Instr :=
  match Opcode.ofByte (fieldOPC w) with
  | none => .error .undefinedOpcode
  | some op =>
    if op.f1Zero = true ∧ fieldF1 w ≠ 0 then .error .nonzeroF1
    else if op.f2Zero = true ∧ fieldF2 w ≠ 0 then .error .nonzeroF2
    else if op.f3Zero = true ∧ fieldF3 w ≠ 0 then .error .nonzeroF3
    else .ok (op.instr (fieldF1 w) (fieldF2 w) (fieldF3 w))

/-- The host reads the decoder through the opcode table's numbering of bits. A command is exactly one 32-bit
word (R87), so bit 0 of `w` is bit 0 of the word and every bit from `nbits` on is 0 (log 21). -/
def decodeTableWord (nbits w : Nat) : Option Instr :=
  match decode (BitVec.ofNat 32 (w % 2 ^ nbits)) with
  | .ok i => some i
  | .error _ => none

/-! ### Encoding (R80, R83) -/

/-- The word of a command. -/
def encode : Instr → Word
  | .nop => packWord 0 0 0 0x00
  | .crcInit => packWord 0 0 0 0x01
  | .crcByte d => packWord 0 0 d 0x02
  | .crcBuf => packWord 0 0 0 0x03
  | .crcFinal => packWord 0 0 0 0x04
  | .parseReset => packWord 0 0 0 0x10
  | .parseNext => packWord 0 0 0 0x11
  | .paeth a b c => packWord c b a 0x20
  | .unfilt t => packWord 0 0 t 0x21
  | .rowClear => packWord 0 0 0 0x22
  | .rowUnfilt t bpp => packWord 0 bpp t 0x23

/-! ### The opcode table as masks and patterns -/

/-- One row of `opcode_table.json`: the bits that are fixed and the value they have. -/
structure TableRow where
  opcode : Opcode
  mask : Word
  pattern : Word
deriving DecidableEq, Repr

/-- `opcode_table.json`, its "mask" and "match" columns. -/
def opcodeTable : List TableRow :=
  [⟨.nop, 0xFFFFFFFF, 0x00000000⟩, ⟨.crcInit, 0xFFFFFFFF, 0x00000001⟩, ⟨.crcByte, 0xFFFF00FF, 0x00000002⟩,
   ⟨.crcBuf, 0xFFFFFFFF, 0x00000003⟩, ⟨.crcFinal, 0xFFFFFFFF, 0x00000004⟩,
   ⟨.parseReset, 0xFFFFFFFF, 0x00000010⟩, ⟨.parseNext, 0xFFFFFFFF, 0x00000011⟩] ++
  [⟨.paeth, 0x000000FF, 0x00000020⟩, ⟨.unfilt, 0xFFFF00FF, 0x00000021⟩,
   ⟨.rowClear, 0xFFFFFFFF, 0x00000022⟩, ⟨.rowUnfilt, 0xFF0000FF, 0x00000023⟩]

/-- The word `w` has the row's fixed bits. -/
def TableRow.covers (r : TableRow) (w : Word) : Bool := (w &&& r.mask) == r.pattern

/-- The row of the opcode map a command belongs to. -/
def Instr.opcode : Instr → Opcode
  | .nop => .nop
  | .crcInit => .crcInit
  | .crcByte _ => .crcByte
  | .crcBuf => .crcBuf
  | .crcFinal => .crcFinal
  | .parseReset => .parseReset
  | .parseNext => .parseNext
  | .paeth _ _ _ => .paeth
  | .unfilt _ => .unfilt
  | .rowClear => .rowClear
  | .rowUnfilt _ _ => .rowUnfilt

end Sys2Proof
end

