-- ==== Sys2Proof/Config.lean ====
section
/-! DEFINITION. What an implementation fixes (00_scope.md R12) and the free values.
The parameters are arguments of the model: a state carries the ones of its machine (log 1), so a claim
about every state is a claim about every legal choice of them. -/

namespace Sys2Proof

/-- `UNWRITTEN_READ` (00_scope.md R12, 93 I1): what a read of a buffer byte that nothing has written since
reset returns. -/
inductive UnwrittenRead where
  /-- The model stops (recommended by R12). -/
  | fault
  /-- Each read draws a fresh unconstrained byte (93 I1). -/
  | anyValue
deriving DecidableEq, Repr

/-- The named parameters a model takes as arguments (00_scope.md R12). LATENCY is not among them: no rule
reads it, and the schedule of a state says how many STATUS reads fall before a completion (log 5). -/
structure Params where
  /-- `IBUF_SIZE`: bytes in the input buffer. -/
  ibufSize : Nat
  /-- `ROW_MAX`: bytes in each of the line buffers CUR and PRIOR. -/
  rowMax : Nat
  /-- `UNWRITTEN_READ`. -/
  unwritten : UnwrittenRead
deriving DecidableEq, Repr

/-- The constraints of 00_scope.md R12 on the two sizes. -/
abbrev Params.legal (p : Params) : Prop :=
  8 ≤ p.ibufSize ∧ p.ibufSize ≤ 2 ^ 31 ∧ 1 ≤ p.rowMax ∧ p.rowMax ≤ 2 ^ 16

/-- DESIGN CHOICE, unsafe (log 1): the parameters of `State.reset`. The spec fixes none; `fault` is the
value R12 recommends. No statement rests on these numbers. -/
def Config.params : Params :=
  { ibufSize := 65536, rowMax := 1024, unwritten := .fault }

/-- The free value of 93 I1 (log 2): the byte that the `k`-th draw of an unwritten byte returns under
`UNWRITTEN_READ = any_value`. It has no body, so no proof can see it. -/
opaque Config.freeByte : Nat → Byte

end Sys2Proof
end

