-- ==== Sys2Proof/Machine/State.lean ====
section
/-! DEFINITION. The state of a PNGCP (10_state.md R30 to R49), its faults and refusals, the host's turns, and
the state after reset (R49). -/

namespace Sys2Proof.Machine

/-! ### Codes -/

/-- The parser's own errors, codes 1 to 3 of 60_exceptions.md R190. -/
inductive ParseError where
  | magicMismatch | truncatedChunk | crcMismatch
deriving DecidableEq, Repr

/-- The error codes 1 to 6 of 60_exceptions.md R190. Code 0, "none", is the absence of an error. -/
inductive ErrorCode where
  | magicMismatch | truncatedChunk | crcMismatch | invalidFilterType | illegalCommand | rangeError
deriving DecidableEq, Repr

/-- The parser's state (41_parser.md R120). The sticky error code PERR is 0 unless PSTATE = ERROR
(10_state.md R33), so ERROR carries it (log 8). -/
inductive PState where
  | idle | scan | doneIend | doneEob
  | error (e : ParseError)
deriving DecidableEq, Repr

/-- The recognized chunks (41_parser.md R124). -/
inductive ChunkKind where
  | ihdr | plte | idat | iend
deriving DecidableEq, Repr

/-- The three byte buffers (10_state.md R45, R46). -/
inductive BufId where
  | ibuf | cur | prior
deriving DecidableEq, Repr

/-- The thirteen registers of the register map (10_state.md R38). -/
inductive RegName where
  | status | cmd | arg0 | arg1 | result | crcState | inLen | parsePos
  | chType | chLen | chData | chCrc | chCalc
deriving DecidableEq, Repr

/-! ### The host's turns -/

/-- A host access: a width and a 32-bit byte offset (20_memory.md R63), with the data of a write. -/
inductive HostAccess where
  | read8 (o : Word)
  | read16 (o : Word)
  | read32 (o : Word)
  | write8 (o : Word) (v : Byte)
  | write16 (o : Word) (v : BitVec 16)
  | write32 (o : Word) (v : Word)
deriving DecidableEq, Repr

/-- What the world around the block does next (log 4). -/
inductive Turn where
  /-- The host performs one access (20_memory.md R67). -/
  | host (a : HostAccess)
  /-- The block's LATENCY elapses: a pending command takes effect (00_scope.md R10). -/
  | block
  /-- The system asserts reset (70_reset_and_hazards.md R220). -/
  | reset
deriving DecidableEq, Repr

/-- The data a host read returned. -/
inductive ReadData where
  | byte (v : Byte)
  | word (v : Word)
deriving DecidableEq, Repr

/-! ### Faults and refusals -/

/-- Why a step stops. Each ends the run being modelled, and no claim holds past it (60_exceptions.md R196). -/
inductive Fault where
  /-- Raised by a host access that 20_memory.md R64 calls a bus error. Safe: the spec gives no response. -/
  | busError
  /-- Raised by a host access other than a STATUS read while BUSY = 1 (70 R225). Safe: the spec gives no response. -/
  | accessWhileBusy
  /-- Raised by a read, of the host or of CRC_BUF, PARSE_NEXT or ROW_UNFILT, of a buffer byte nothing has
  written since reset, under `UNWRITTEN_READ = fault` (00_scope.md R12). Safe: the byte has no value. -/
  | unwrittenRead
deriving DecidableEq, Repr

/-- Why a step has no meaning. -/
inductive Refusal where
  /-- An instruction with no meaning yet. Raised by no arm of `exec`: every command is modelled. Safe. -/
  | notModelled (mnemonic : String)
deriving DecidableEq, Repr

/-! ### State -/

/-- A byte buffer: the written bytes by index, indices strictly rising. An index that is not listed has not
been written since reset (10_state.md R45, R46, R48). -/
abbrev Buffer := List Host.Cell

/-- The whole state (10_state.md R30, R48), then the model's own fields. -/
structure State where
  /-- STATUS.BUSY (R33): the command word in `cmd` is pending (R48, log 9). -/
  busy : Bool
  /-- STATUS.ERR and ERRCODE (R33): the error of the last completed command, none after success (log 8). -/
  lastError : Option ErrorCode
  /-- STATUS.PSTATE and PERR (R33, R120). -/
  pstate : PState
  /-- CMD (R34): the last command word written. -/
  cmd : Word
  /-- ARG0 (R35). -/
  arg0 : Word
  /-- ARG1 (R35). -/
  arg1 : Word
  /-- RESULT (R36). -/
  result : Word
  /-- CRC_STATE (R39): the running register, before the final XOR. -/
  crcState : Word
  /-- IN_LEN (R40). -/
  inLen : Word
  /-- PARSE_POS (R41). -/
  parsePos : Word
  /-- CH_TYPE (R42). -/
  chType : Word
  /-- CH_LEN (R42). -/
  chLen : Word
  /-- CH_DATA (R42). -/
  chData : Word
  /-- CH_CRC (R42). -/
  chCrc : Word
  /-- CH_CALC (R43). -/
  chCalc : Word
  /-- IBUF (R45). -/
  ibuf : Buffer
  /-- CUR (R46). -/
  cur : Buffer
  /-- PRIOR (R46). -/
  prior : Buffer
  /-- The model's own (log 4): the turns to come, oldest first. -/
  schedule : List Turn
  /-- The model's own (log 7): the data the last host read returned. -/
  hostRead : Option ReadData
  /-- The model's own (log 2): how many free bytes have been drawn. -/
  draws : Nat
  /-- The model's own (log 1): the parameters of this machine (00_scope.md R12); no step writes them. -/
  params : Params
deriving DecidableEq, Repr

/-- The pending command (10_state.md R48): the issued word, from the CMD write to completion. -/
def State.pending (s : State) : Option Word := if s.busy then some s.cmd else none

/-- The machine with parameters `p` right after reset (10_state.md R49). -/
def State.resetWith (p : Params) : State :=
  { busy := false, lastError := none, pstate := .idle
    cmd := 0, arg0 := 0, arg1 := 0, result := 0
    crcState := 0xFFFFFFFF, inLen := 0, parsePos := 0
    chType := 0, chLen := 0, chData := 0, chCrc := 0, chCalc := 0
    ibuf := [], cur := [], prior := []
    schedule := [], hostRead := none, draws := 0, params := p }

/-- The machine right after reset (10_state.md R49), with the parameters of log 1 and nothing scheduled. -/
def State.reset : State := State.resetWith Config.params

end Sys2Proof.Machine
end

