-- ==== Sys2Proof/Machine/Ops.lean ====
section
/-! DEFINITION. The named operations over the buffers (10_state.md R45, R46, R48; 20_memory.md R66), the end of
a command, with and without an error (60_exceptions.md R191), and taking reset (70_reset_and_hazards.md R220).
Completing with an error is this block's whole exception entry: it saves no pc, switches no mode and
transfers control nowhere (R198), and there is no return from it (R199). -/

namespace Sys2Proof.Machine

/-! ### One byte of a buffer -/

/-- What the buffer holds at index `i`: none where nothing has been written since reset. -/
def bufRead : Buffer → Nat → Option Byte
  | [], _ => none
  | (j, v) :: rest, i => if j = i then some v else bufRead rest i

/-- `S[i] <- v` (00_scope.md R15). -/
def bufWrite : Buffer → Nat → Byte → Buffer
  | [], i, v => [(i, v)]
  | (j, w) :: rest, i, v =>
    if i < j then (i, v) :: (j, w) :: rest
    else if i = j then (i, v) :: rest
    else (j, w) :: bufWrite rest i v

/-- The canonical form of a buffer of `size` bytes: indices strictly rising and inside the buffer. No listed
entry equals what an unlisted index reads as, since an unlisted index holds no value. -/
abbrev bufWf (size : Nat) (m : Buffer) : Prop :=
  m.Pairwise (fun a b => a.1 < b.1) ∧ ∀ c ∈ m, c.1 < size

/-- The buffer a name stands for. -/
def State.buf (s : State) : BufId → Buffer
  | .ibuf => s.ibuf
  | .cur => s.cur
  | .prior => s.prior

/-- The state with another content of one buffer. -/
def State.setBuf (s : State) (b : BufId) (m : Buffer) : State :=
  match b with
  | .ibuf => { s with ibuf := m }
  | .cur => { s with cur := m }
  | .prior => { s with prior := m }

/-- The bytes in a buffer (00_scope.md R12). -/
def bufSize (p : Params) : BufId → Nat
  | .ibuf => p.ibufSize
  | .cur => p.rowMax
  | .prior => p.rowMax

/-- Every buffer is in canonical form. -/
abbrev Memory.wf (s : State) : Prop :=
  bufWf s.params.ibufSize s.ibuf ∧ bufWf s.params.rowMax s.cur ∧ bufWf s.params.rowMax s.prior

/-! ### Reads by commands and by the host

A read answers the byte and the next draw number, or nothing where `UNWRITTEN_READ = fault` and the byte is
unwritten (00_scope.md R12). Under `any_value` each read of an unwritten byte draws afresh (93 I1, log 2). Which
bytes a command reads, in which order and how often, is log 3. -/

/-- `S[i]` as a read (00_scope.md R15). -/
def readByte (u : UnwrittenRead) (m : Buffer) (i k : Nat) : Option (Byte × Nat) :=
  match bufRead m i with
  | some v => some (v, k)
  | none =>
    match u with
    | .fault => none
    | .anyValue => some (Config.freeByte k, k + 1)

/-- `MemRead(S, i, n)` (00_scope.md R15): the `n` bytes from index `i`, in index order. -/
def readBytes (u : UnwrittenRead) (m : Buffer) (i : Nat) : Nat → Nat → Option (List Byte × Nat)
  | 0, k => some ([], k)
  | n + 1, k =>
    match readByte u m i k with
    | none => none
    | some (v, k1) =>
      match readBytes u m (i + 1) n k1 with
      | none => none
      | some (vs, k2) => some (v :: vs, k2)

/-- `MemWrite(S, i, n, bytes)` (00_scope.md R15). -/
def writeBytes (m : Buffer) (i : Nat) : List Byte → Buffer
  | [] => m
  | v :: vs => writeBytes (bufWrite m i v) (i + 1) vs

/-- Zero bytes at the indices 0 to `n - 1`, the rest of the buffer as it was (42_defilter.md R155). -/
def fillZero (n : Nat) (m : Buffer) : Buffer :=
  (List.range n).map (fun i => (i, (0 : Byte))) ++ m.filter (fun c => n ≤ c.1)

/-! ### The end of a command (60_exceptions.md R191) -/

/-- `succeed`: ERR <- 0, ERRCODE <- 0, then BUSY <- 0. -/
def succeed (s : State) : State := { s with lastError := none, busy := false }

/-- `raise e`: ERR <- 1, ERRCODE <- code(e), then BUSY <- 0. Writes the command made before it stay. -/
def raiseError (e : ErrorCode) (s : State) : State := { s with lastError := some e, busy := false }

/-! ### Reset (70_reset_and_hazards.md R220) -/

/-- Reset takes effect: every register takes its reset value, a pending command is abandoned and every
buffer byte becomes unwritten. The turns to come, the host's last data, the draw count and the parameters are
not the block's and stay (log 11). -/
def takeReset (s : State) : State :=
  { State.resetWith s.params with schedule := s.schedule, hostRead := s.hostRead, draws := s.draws }

end Sys2Proof.Machine
end

