-- ==== Sys2Proof/Machine/Control.lean ====
section
/-! DEFINITION. The control family: NOP (43_control.md). -/

namespace Sys2Proof.Machine

/-- NOP (43_control.md R180): `succeed`. -/
def execNop (s : State) : Host.Outcome State Fault Refusal := .next (succeed s)

end Sys2Proof.Machine
end

