-- ==== Sys2Proof/Machine/Operands.lean ====
section
/-! DEFINITION. Where a command finds its operands (30_encoding.md R82), and how bytes form 32-bit values: big-endian for
the fields in IBUF (20_memory.md R60), little-endian lanes for 32-bit host accesses (R62). -/

namespace Sys2Proof.Machine

/-! ### Bytes and words -/

/-- `{b0, b1, b2, b3}` with the first byte in bits 31:24 (20_memory.md R60). -/
def wordBE (b0 b1 b2 b3 : Byte) : Word := b0 ++ b1 ++ b2 ++ b3

/-- The byte of a word at bits `8·n + 7` to `8·n`. -/
def byteOf (w : Word) (n : Nat) : Byte := w.extractLsb' (8 * n) 8

/-- Four bytes on the little-endian lanes: the byte at the lowest offset on data bits 7:0 (20_memory.md R62). -/
def wordLE (b0 b1 b2 b3 : Byte) : Word := b3 ++ b2 ++ b1 ++ b0

/-- The four bytes a 32-bit host write stores, lowest offset first (20_memory.md R62). -/
def lanesLE (w : Word) : List Byte := [byteOf w 0, byteOf w 1, byteOf w 2, byteOf w 3]

/-- `zext_32` of a byte (00_scope.md R14, 30_encoding.md R81). -/
def zext32 (b : Byte) : Word := b.setWidth 32

/-- `be32(S, i)` as a read (00_scope.md R15, 20_memory.md R60). -/
def readWordBE (u : UnwrittenRead) (m : Buffer) (i k : Nat) : Option (Word × Nat) :=
  match readBytes u m i 4 k with
  | some ([b0, b1, b2, b3], k1) => some (wordBE b0 b1 b2 b3, k1)
  | _ => none

/-- A 32-bit host read of a buffer at index `i` (20_memory.md R62). -/
def readWordLE (u : UnwrittenRead) (m : Buffer) (i k : Nat) : Option (Word × Nat) :=
  match readBytes u m i 4 k with
  | some ([b0, b1, b2, b3], k1) => some (wordLE b0 b1 b2 b3, k1)
  | _ => none

/-! ### Operands in ARG0 and ARG1 (30_encoding.md R82) -/

/-- CRC_BUF: the start index in IBUF, ARG0. -/
def crcBufStart (s : State) : Nat := s.arg0.toNat
/-- CRC_BUF: the byte count, ARG1. -/
def crcBufCount (s : State) : Nat := s.arg1.toNat
/-- UNFILT: `filt`, ARG0 bits 7:0. -/
def unfiltFilt (s : State) : Byte := byteOf s.arg0 0
/-- UNFILT: `a`, ARG0 bits 15:8. -/
def unfiltA (s : State) : Byte := byteOf s.arg0 1
/-- UNFILT: `b`, ARG0 bits 23:16. -/
def unfiltB (s : State) : Byte := byteOf s.arg0 2
/-- UNFILT: `c`, ARG0 bits 31:24. -/
def unfiltC (s : State) : Byte := byteOf s.arg0 3
/-- ROW_UNFILT: the row length in bytes, ARG0. -/
def rowLength (s : State) : Nat := s.arg0.toNat

/-! ### Filter tags (42_defilter.md R152) -/

/-- The filter type of a tag; none outside 0 to 4. -/
def filterOfTag (t : Byte) : Option FilterType :=
  match t.toNat with
  | 0 => some .none
  | 1 => some .sub
  | 2 => some .up
  | 3 => some .average
  | 4 => some .paeth
  | _ => none

/-- The filter reads `a` (the "neighbours used" column of R152). -/
def usesA : FilterType → Bool
  | .none => false
  | .sub => true
  | .up => false
  | .average => true
  | .paeth => true

/-- The filter reads `b`. -/
def usesB : FilterType → Bool
  | .none => false
  | .sub => false
  | .up => true
  | .average => true
  | .paeth => true

/-- The filter reads `c`. -/
def usesC : FilterType → Bool
  | .none => false
  | .sub => false
  | .up => false
  | .average => false
  | .paeth => true

end Sys2Proof.Machine
end

