-- ==== Sys2Proof/Machine/Defilter.lean ====
section
/-! DEFINITION. The defilter unit (42_defilter.md): the Paeth predictor, the inverse filters, the row engine, and the
commands PAETH, UNFILT, ROW_CLEAR and ROW_UNFILT. -/

namespace Sys2Proof.Machine

/-! ### Functions (R150 to R152) -/

/-- The Paeth predictor on exact integers (R151, 90_conflicts.md C6). Ties break toward `a`, then `b`. -/
def paeth (a b c : Byte) : Byte :=
  let p : Int := (a.toNat : Int) + b.toNat - c.toNat
  let pa := (p - a.toNat).natAbs
  let pb := (p - b.toNat).natAbs
  let pc := (p - c.toNat).natAbs
  if pa ≤ pb ∧ pa ≤ pc then a else if pb ≤ pc then b else c

/-- The inverse filter of one byte (R152). Each sum is taken in full and reduced mod 256 once
(90_conflicts.md C5). -/
def recon (t : FilterType) (filt a b c : Byte) : Byte :=
  match t with
  | .none => filt
  | .sub => BitVec.ofNat 8 (filt.toNat + a.toNat)
  | .up => BitVec.ofNat 8 (filt.toNat + b.toNat)
  | .average => BitVec.ofNat 8 (filt.toNat + (a.toNat + b.toNat) / 2)
  | .paeth => BitVec.ofNat 8 (filt.toNat + (paeth a b c).toNat)

/-! ### The row engine (R150, R156) -/

/-- A neighbour of R150: the byte at index `i` if the filter uses it and it lies in the row, else 0. A neighbour
the tag does not use is not read (R156). -/
def readNeighbour (u : UnwrittenRead) (m : Buffer) (used : Bool) (i k : Nat) : Option (Byte × Nat) :=
  if used then readByte u m i k else some (0, k)

/-- The byte `CUR[x]` reconstructed (R156): its neighbours, then the filtered byte, are read and filtered. -/
def reconAt (u : UnwrittenRead) (t : FilterType) (bpp : Nat) (cur prior : Buffer) (x k : Nat) :
    Option (Byte × Nat) :=
  match readNeighbour u cur (usesA t && decide (bpp ≤ x)) (x - bpp) k with
  | none => none
  | some (a, k1) =>
    match readNeighbour u prior (usesB t) x k1 with
    | none => none
    | some (b, k2) =>
      match readNeighbour u prior (usesC t && decide (bpp ≤ x)) (x - bpp) k2 with
      | none => none
      | some (c, k3) =>
        match readByte u cur x k3 with
        | none => none
        | some (filt, k4) => some (recon t filt a b c, k4)

/-- The first loop of R156: `n` bytes from index `x`, in increasing order, each read seeing the bytes this loop
has already reconstructed. -/
def reconRow (u : UnwrittenRead) (t : FilterType) (bpp : Nat) (prior : Buffer) :
    Nat → Nat → Buffer → Nat → Option (Buffer × Nat)
  | 0, _, cur, k => some (cur, k)
  | n + 1, x, cur, k =>
    match reconAt u t bpp cur prior x k with
    | none => none
    | some (v, k1) => reconRow u t bpp prior n (x + 1) (bufWrite cur x v) k1

/-- ROW_UNFILT after its checks (R156): CUR reconstructed in place over `n` bytes, then copied into PRIOR. -/
def unfiltRow (t : FilterType) (bpp n : Nat) (s : State) : Host.Outcome State Fault Refusal :=
  match reconRow s.params.unwritten t bpp s.prior n 0 s.cur s.draws with
  | none => .fault .unwrittenRead
  | some (cur, k1) =>
    match readBytes s.params.unwritten cur 0 n k1 with
    | none => .fault .unwrittenRead
    | some (row, k2) => .next (succeed { s with cur := cur, prior := writeBytes s.prior 0 row, draws := k2 })

/-! ### The commands -/

/-- PAETH (R153). -/
def execPaeth (a b c : Byte) (s : State) : Host.Outcome State Fault Refusal :=
  .next (succeed { s with result := zext32 (paeth a b c) })

/-- UNFILT (R154). -/
def execUnfilt (t : Byte) (s : State) : Host.Outcome State Fault Refusal :=
  match filterOfTag t with
  | none => .next (raiseError .invalidFilterType s)
  | some f =>
    .next (succeed { s with result := zext32 (recon f (unfiltFilt s) (unfiltA s) (unfiltB s) (unfiltC s)) })

/-- ROW_CLEAR (R155). -/
def execRowClear (s : State) : Host.Outcome State Fault Refusal :=
  .next (succeed { s with prior := fillZero s.params.rowMax s.prior })

/-- ROW_UNFILT (R156), its checks in the order of 60_exceptions.md R194. -/
def execRowUnfilt (t bpp : Byte) (s : State) : Host.Outcome State Fault Refusal :=
  if bpp.toNat = 0 then .next (raiseError .illegalCommand s)
  else
    match filterOfTag t with
    | none => .next (raiseError .invalidFilterType s)
    | some f =>
      if s.params.rowMax < rowLength s then .next (raiseError .rangeError s)
      else unfiltRow f bpp.toNat (rowLength s) s

end Sys2Proof.Machine
end

