-- ==== Sys2Proof/Machine/Flags.lean ====
section
/-! DEFINITION. STATUS, the block's only flags (10_state.md R33, R44): the codes of its fields and the word a host reads.
There is no arithmetic flag (R44). -/

namespace Sys2Proof.Machine

/-- The numeric codes of 60_exceptions.md R190. -/
def errorCodeBits : ErrorCode → BitVec 4
  | .magicMismatch => 1
  | .truncatedChunk => 2
  | .crcMismatch => 3
  | .invalidFilterType => 4
  | .illegalCommand => 5
  | .rangeError => 6

/-- `error_of(PERR)` (41_parser.md R126): the error code a parser error is reported with. -/
def errorOf : ParseError → ErrorCode
  | .magicMismatch => .magicMismatch
  | .truncatedChunk => .truncatedChunk
  | .crcMismatch => .crcMismatch

/-- STATUS.BUSY, bit 0. -/
def statusBusy (s : State) : BitVec 1 := BitVec.ofBool s.busy

/-- STATUS.ERR, bit 1. -/
def statusErr (s : State) : BitVec 1 := BitVec.ofBool s.lastError.isSome

/-- STATUS.ERRCODE, bits 7:4: 0 when ERR = 0. -/
def statusErrCode (s : State) : BitVec 4 :=
  match s.lastError with
  | none => 0
  | some e => errorCodeBits e

/-- STATUS.PSTATE, bits 10:8 (41_parser.md R120). -/
def statusPState (s : State) : BitVec 3 :=
  match s.pstate with
  | .idle => 0
  | .scan => 1
  | .doneIend => 2
  | .doneEob => 3
  | .error _ => 4

/-- STATUS.PERR, bits 15:12: 0 unless PSTATE = ERROR. -/
def statusPErr (s : State) : BitVec 4 :=
  match s.pstate with
  | .idle => 0
  | .scan => 0
  | .doneIend => 0
  | .doneEob => 0
  | .error e => errorCodeBits (errorOf e)

/-- The word a host reads at STATUS: the fields of 10_state.md R33 in place, the reserved bits 31:16, 11 and
3:2 reading 0. -/
def statusWord (s : State) : Word :=
  (0 : BitVec 16) ++ statusPErr s ++ (0 : BitVec 1) ++ statusPState s ++ statusErrCode s
    ++ (0 : BitVec 2) ++ statusErr s ++ statusBusy s

end Sys2Proof.Machine
end

