-- ==== Sys2Proof/Machine/Parser.lean ====
section
/-! DEFINITION. The chunk parser (41_parser.md): the signature, the recognized tags, one pass over a chunk, the skip
loop, and the commands PARSE_RESET and PARSE_NEXT. -/

namespace Sys2Proof.Machine

/-! ### Constants (R122, R124) -/

/-- MAGIC, the 8-byte signature (R122). -/
def magic : List Byte := [0x89, 0x50, 0x4E, 0x47, 0x0D, 0x0A, 0x1A, 0x0A]

/-- The recognized type tags as one replaceable table (R124, 93 G1). PRESUMED, unsafe (log 15): the spec itself
takes the tag values from general knowledge. -/
def recognizedTags : List (Word × ChunkKind) :=
  [(0x49484452, .ihdr), (0x504C5445, .plte), (0x49444154, .idat), (0x49454E44, .iend)]

/-- The kind code RESULT reports (R124). -/
def kindCode : ChunkKind → Word
  | .ihdr => 1
  | .plte => 2
  | .idat => 3
  | .iend => 4

/-- The kind of a tag: none stands for kind 0, not recognized (R124). -/
def kindOf (tag : Word) : Option ChunkKind :=
  (recognizedTags.find? (fun row => row.1 == tag)).map Prod.snd

/-! ### PARSE_RESET (R125) -/

/-- PARSE_RESET (R125). -/
def execParseReset (s : State) : Host.Outcome State Fault Refusal :=
  .next (succeed { s with
    pstate := .idle, parsePos := 0, chType := 0, chLen := 0, chData := 0, chCrc := 0, chCalc := 0 })

/-! ### PARSE_NEXT (R126) -/

/-- PSTATE <- ERROR, PERR <- code(e), and the same error raised (R126, R131). -/
def failParse (e : ParseError) (s : State) : State := raiseError (errorOf e) { s with pstate := .error e }

/-- The end of the walk without a chunk: RESULT <- 0 and success (R132). -/
def endOfWalk (s : State) : State := succeed { s with result := 0 }

/-- Fewer than 8 bytes are left at PARSE_POS (R126 Step 2, R132). -/
def endOfBuffer (s : State) : State := endOfWalk { s with pstate := .doneEob }

/-- How one pass of the loop of R126 ends. -/
inductive Pass where
  /-- The command ends. -/
  | done (o : Host.Outcome State Fault Refusal)
  /-- The chunk was not recognized and was skipped: continue the loop. -/
  | again (s : State)

/-- A recognized chunk is returned (R126): the CH_ registers and RESULT report it, and IEND ends the walk. -/
def returnChunk (k : ChunkKind) (tag len data stored : Word) (s : State) : State :=
  succeed { s with
    chType := tag, chLen := len, chData := data, chCrc := stored, result := kindCode k
    pstate := if k = .iend then .doneIend else s.pstate }

/-- Steps 3 to 5 of R126 once the chunk at PARSE_POS has been read: the checksum is compared, the position
advances past the chunk, and the tag decides whether it is returned or skipped. -/
def judgeChunk (len tag computed stored : Word) (s : State) : Pass :=
  let checked := { s with chCalc := computed }
  if computed ≠ stored then .done (.next (failParse .crcMismatch checked))
  else
    let past := { checked with parsePos := s.parsePos + 12 + len }
    match kindOf tag with
    | none => .again past
    | some k => .done (.next (returnChunk k tag len (s.parsePos + 8) stored past))

/-- The chunk's fixed header at index `p`: length, then type tag (R123). -/
def readHeader (u : UnwrittenRead) (m : Buffer) (p k : Nat) : Option (Word × Word × Nat) :=
  match readWordBE u m p k with
  | none => none
  | some (len, k1) =>
    match readWordBE u m (p + 4) k1 with
    | none => none
    | some (tag, k2) => some (len, tag, k2)

/-- The recomputed and the stored checksum of the chunk at index `p` with payload length `len` (R123, R126 Step 3).
The checksum covers the tag and the payload. -/
def readChecksums (u : UnwrittenRead) (m : Buffer) (p len k : Nat) : Option (Word × Word × Nat) :=
  match readBytes u m (p + 4) (4 + len) k with
  | none => none
  | some (covered, k1) =>
    match readWordBE u m (p + 8 + len) k1 with
    | none => none
    | some (stored, k2) => some (crc32 covered, stored, k2)

/-- One pass of the loop of R126, in SCAN. The bounds are exact (R127). -/
def parsePass (s : State) : Pass :=
  let p := s.parsePos.toNat
  if s.inLen.toNat < p + 8 then .done (.next (endOfBuffer s))
  else
    match readHeader s.params.unwritten s.ibuf p s.draws with
    | none => .done (.fault .unwrittenRead)
    | some (len, tag, k1) =>
      if s.inLen.toNat < p + 12 + len.toNat then
        .done (.next (failParse .truncatedChunk { s with draws := k1 }))
      else
        match readChecksums s.params.unwritten s.ibuf p len.toNat k1 with
        | none => .done (.fault .unwrittenRead)
        | some (computed, stored, k2) => judgeChunk len tag computed stored { s with draws := k2 }

/-- The loop of R126. The fuel is the number of bytes left at PARSE_POS; each pass that continues consumes at
least 12 of them (R130), so with no fuel no fixed header is left (log 16). -/
def parseLoop : Nat → State → Host.Outcome State Fault Refusal
  | 0, s => .next (endOfBuffer s)
  | fuel + 1, s =>
    match parsePass s with
    | .done o => o
    | .again s' => parseLoop fuel s'

/-- The SCAN arm of R126. -/
def parseScan (s : State) : Host.Outcome State Fault Refusal :=
  parseLoop (s.inLen.toNat - s.parsePos.toNat) s

/-- The IDLE arm of R126: the signature check, then SCAN in the same command. A buffer shorter than 8 bytes
fails without a read (R128). -/
def parseIdle (s : State) : Host.Outcome State Fault Refusal :=
  if s.inLen.toNat < 8 then .next (failParse .magicMismatch s)
  else
    match readBytes s.params.unwritten s.ibuf 0 8 s.draws with
    | none => .fault .unwrittenRead
    | some (bs, k) =>
      if bs ≠ magic then .next (failParse .magicMismatch { s with draws := k })
      else parseScan { s with draws := k, parsePos := 8, pstate := .scan }

/-- PARSE_NEXT (R126). -/
def execParseNext (s : State) : Host.Outcome State Fault Refusal :=
  if s.params.ibufSize < s.inLen.toNat then .next (raiseError .rangeError s)
  else
    match s.pstate with
    | .error e => .next (raiseError (errorOf e) s)
    | .doneIend => .next (endOfWalk s)
    | .doneEob => .next (endOfWalk s)
    | .idle => parseIdle s
    | .scan => parseScan s

end Sys2Proof.Machine
end

