-- ==== Sys2Proof/Machine/Dispatch.lean ====
section
/-! DEFINITION. The meaning of every command, one arm per constructor of Instr. -/

namespace Sys2Proof.Machine

def exec (i : Instr) (s : State) : Host.Outcome State Fault Refusal :=
  match i with
  | .nop => Sys2Proof.Machine.execNop s
  | .crcInit => Sys2Proof.Machine.execCrcInit s
  | .crcByte d => Sys2Proof.Machine.execCrcByte d s
  | .crcBuf => Sys2Proof.Machine.execCrcBuf s
  | .crcFinal => Sys2Proof.Machine.execCrcFinal s
  | .parseReset => Sys2Proof.Machine.execParseReset s
  | .parseNext => Sys2Proof.Machine.execParseNext s
  | .paeth a b c => Sys2Proof.Machine.execPaeth a b c s
  | .unfilt t => Sys2Proof.Machine.execUnfilt t s
  | .rowClear => Sys2Proof.Machine.execRowClear s
  | .rowUnfilt t bpp => Sys2Proof.Machine.execRowUnfilt t bpp s

end Sys2Proof.Machine
end

