-- ==== Sys2Proof/Machine/HostBus.lean ====
section
/-! DEFINITION. Host accesses: the register map (10_state.md R38), the address windows (20_memory.md R63), bus errors (R64),
byte lanes (R62) and the rule while BUSY (70_reset_and_hazards.md R225). -/

namespace Sys2Proof.Machine

/-! ### Registers (10_state.md R38) -/

/-- The offset column of R38. -/
def regOffset : RegName → Nat
  | .status => 0x00
  | .cmd => 0x04
  | .arg0 => 0x08
  | .arg1 => 0x0C
  | .result => 0x10
  | .crcState => 0x14
  | .inLen => 0x18
  | .parsePos => 0x1C
  | .chType => 0x20
  | .chLen => 0x24
  | .chData => 0x28
  | .chCrc => 0x2C
  | .chCalc => 0x30

/-- The rows of R38. -/
def regNames : List RegName :=
  [.status, .cmd, .arg0, .arg1, .result, .crcState, .inLen, .parsePos, .chType, .chLen, .chData, .chCrc, .chCalc]

/-- The register at an offset, if there is one. -/
def regAt (o : Nat) : Option RegName := regNames.find? (fun r => regOffset r == o)

/-- A host read of a register: its whole value. -/
def readReg (r : RegName) (s : State) : Word :=
  match r with
  | .status => statusWord s
  | .cmd => s.cmd
  | .arg0 => s.arg0
  | .arg1 => s.arg1
  | .result => s.result
  | .crcState => s.crcState
  | .inLen => s.inLen
  | .parsePos => s.parsePos
  | .chType => s.chType
  | .chLen => s.chLen
  | .chData => s.chData
  | .chCrc => s.chCrc
  | .chCalc => s.chCalc

/-- A host write of CMD stores the word and issues it as a command (10_state.md R34). -/
def issueCommand (w : Word) (s : State) : State := { s with cmd := w, busy := true }

/-- A host write of a register. A write to a read-only register has no effect (R38). -/
def writeReg (r : RegName) (v : Word) (s : State) : State :=
  match r with
  | .cmd => issueCommand v s
  | .arg0 => { s with arg0 := v }
  | .arg1 => { s with arg1 := v }
  | .inLen => { s with inLen := v }
  | .status => s
  | .result => s
  | .crcState => s
  | .parsePos => s
  | .chType => s
  | .chLen => s
  | .chData => s
  | .chCrc => s
  | .chCalc => s

/-! ### Windows (20_memory.md R63) -/

/-- First offset of CUR. -/
abbrev curBase : Nat := 0x00010000
/-- First offset of PRIOR. -/
abbrev priorBase : Nat := 0x00020000
/-- First offset of IBUF. -/
abbrev ibufBase : Nat := 0x80000000

/-- The buffer byte at an offset, if the offset lies in a buffer window. -/
def byteAt (p : Params) (o : Nat) : Option (BufId × Nat) :=
  if curBase ≤ o ∧ o < curBase + p.rowMax then some (.cur, o - curBase)
  else if priorBase ≤ o ∧ o < priorBase + p.rowMax then some (.prior, o - priorBase)
  else if ibufBase ≤ o ∧ o < ibufBase + p.ibufSize then some (.ibuf, o - ibufBase)
  else none

/-- What a 32-bit access at an offset reaches: a register, or four bytes of a buffer from an index. None is a bus
error (R64): no window, a misaligned offset, or a byte past the window's end. -/
inductive Target where
  | reg (r : RegName)
  | bytes (b : BufId) (i : Nat)
deriving DecidableEq, Repr

/-- The target of a 32-bit access. -/
def target32 (p : Params) (o : Nat) : Option Target :=
  if o % 4 ≠ 0 then none
  else
    match regAt o with
    | some r => some (.reg r)
    | none =>
      match byteAt p o with
      | some (b, i) => if i + 4 ≤ bufSize p b then some (.bytes b i) else none
      | none => none

/-! ### Accesses -/

/-- A host read that answers data drawn with the next draw number, or stops on an unwritten byte. -/
def answerRead (r : Option (ReadData × Nat)) (s : State) : Host.Outcome State Fault Refusal :=
  match r with
  | none => .fault .unwrittenRead
  | some (d, k) => .next { s with hostRead := some d, draws := k }

/-- An 8-bit read: buffers only (R63). -/
def hostRead8 (o : Word) (s : State) : Host.Outcome State Fault Refusal :=
  match byteAt s.params o.toNat with
  | none => .fault .busError
  | some (b, i) =>
    answerRead ((readByte s.params.unwritten (s.buf b) i s.draws).map (fun r => (.byte r.1, r.2))) s

/-- A 32-bit read: a register, or four bytes of a buffer on little-endian lanes (R62, R63). -/
def hostRead32 (o : Word) (s : State) : Host.Outcome State Fault Refusal :=
  match target32 s.params o.toNat with
  | none => .fault .busError
  | some (.reg r) => .next { s with hostRead := some (.word (readReg r s)) }
  | some (.bytes b i) =>
    answerRead ((readWordLE s.params.unwritten (s.buf b) i s.draws).map (fun r => (.word r.1, r.2))) s

/-- An 8-bit write: buffers only (R63). -/
def hostWrite8 (o : Word) (v : Byte) (s : State) : Host.Outcome State Fault Refusal :=
  match byteAt s.params o.toNat with
  | none => .fault .busError
  | some (b, i) => .next (s.setBuf b (bufWrite (s.buf b) i v))

/-- A 32-bit write: a register, or four bytes of a buffer on little-endian lanes (R62, R63). -/
def hostWrite32 (o v : Word) (s : State) : Host.Outcome State Fault Refusal :=
  match target32 s.params o.toNat with
  | none => .fault .busError
  | some (.reg r) => .next (writeReg r v s)
  | some (.bytes b i) => .next (s.setBuf b (writeBytes (s.buf b) i (lanesLE v)))

/-- An access with BUSY = 0. 16-bit accesses are never allowed (R64). -/
def accessIdle (a : HostAccess) (s : State) : Host.Outcome State Fault Refusal :=
  match a with
  | .read8 o => hostRead8 o s
  | .read16 _ => .fault .busError
  | .read32 o => hostRead32 o s
  | .write8 o v => hostWrite8 o v s
  | .write16 _ _ => .fault .busError
  | .write32 o v => hostWrite32 o v s

/-- The access is a read of STATUS, the one that is always allowed (70 R225). -/
def isStatusRead : HostAccess → Bool
  | .read32 o => o == 0
  | .read8 _ => false
  | .read16 _ => false
  | .write8 _ _ => false
  | .write16 _ _ => false
  | .write32 _ _ => false

/-- One host access. While BUSY = 1 anything but a read of STATUS is a host fault (70 R225, log 12). -/
def hostAccess (a : HostAccess) (s : State) : Host.Outcome State Fault Refusal :=
  if s.busy = true ∧ isStatusRead a = false then .fault .accessWhileBusy else accessIdle a s

end Sys2Proof.Machine
end

