-- ==== Sys2Proof/Machine/Block.lean ====
section
/-! DEFINITION. The block's own turn: a pending command word is decoded and takes effect as one atomic step
(00_scope.md R10, 30_encoding.md R84). -/

namespace Sys2Proof.Machine

/-- A command word takes effect: an illegal word raises IllegalCommand and changes nothing else (30 R85). -/
def runWord (w : Word) (s : State) : Host.Outcome State Fault Refusal :=
  match decode w with
  | .ok i => exec i s
  | .error _ => .next (raiseError .illegalCommand s)

/-- The block's turn: the pending command takes effect, or the idle block waits (70 R221, log 4). -/
def blockTurn (s : State) : Host.Outcome State Fault Refusal :=
  match s.pending with
  | some w => runWord w s
  | none => .next s

/-- One turn, taken off the schedule already. -/
def takeTurn (t : Turn) (s : State) : Host.Outcome State Fault Refusal :=
  match t with
  | .host a => hostAccess a s
  | .block => blockTurn s
  | .reset => .next (takeReset s)

end Sys2Proof.Machine
end

