-- ==== Sys2Proof/Machine/Step.lean ====
section
/-! DEFINITION. One step of the machine: the next turn of the schedule; with nothing scheduled, the block's turn
(log 4). -/

namespace Sys2Proof.Machine

/-- One step. -/
def step (s : State) : Host.Outcome State Fault Refusal :=
  match s.schedule with
  | [] => blockTurn s
  | t :: rest => takeTurn t { s with schedule := rest }

/-- `s` with the command word `w` issued: what the host's write of CMD does (10_state.md R34), and the block's
turn next, so that the next step runs exactly it (log 6). -/
def State.withFetchWord (s : State) (nbits w : Nat) : State :=
  { s with cmd := BitVec.ofNat 32 (w % 2 ^ nbits), busy := true, schedule := .block :: s.schedule }

end Sys2Proof.Machine
end

