-- ==== Sys2Proof/Machine/HostProgram.lean ====
section
/-! DEFINITION. The host-program syntax (30_encoding.md R88) and its pseudo-instructions (R89), expanded into turns. They are
the host's: none is a command of the block. `polls` is how many STATUS reads of a WAIT see BUSY = 1 before the
block's turn (LATENCY, log 5). -/

namespace Sys2Proof.Machine

/-- The statements of R88. The eleven command statements are one constructor over the commands. -/
inductive Stmt where
  | wr (r : RegName) (v : Word)
  | rd (r : RegName)
  | wrb (b : BufId) (i : Nat) (v : Byte)
  | wrw (b : BufId) (i : Nat) (v : Word)
  | rdb (b : BufId) (i : Nat)
  | wait
  | command (i : Instr)
deriving DecidableEq, Repr

/-- First offset of a buffer's window (20_memory.md R63). -/
def bufBase : BufId → Nat
  | .cur => curBase
  | .prior => priorBase
  | .ibuf => ibufBase

/-- The host offset of a register. -/
def regAddr (r : RegName) : Word := BitVec.ofNat 32 (regOffset r)

/-- The host offset of a buffer byte. -/
def bufAddr (b : BufId) (i : Nat) : Word := BitVec.ofNat 32 (bufBase b + i)

/-- WAIT: STATUS is read until BUSY = 0. `polls` reads see BUSY = 1, the block takes its turn, and the last read
sees BUSY = 0. -/
def waitTurns (polls : Nat) : List Turn :=
  List.replicate polls (.host (.read32 (regAddr .status))) ++ [.block, .host (.read32 (regAddr .status))]

/-- The turns of one statement (R88). -/
def stmtTurns (polls : Nat) : Stmt → List Turn
  | .wr r v => [.host (.write32 (regAddr r) v)]
  | .rd r => [.host (.read32 (regAddr r))]
  | .wrb b i v => [.host (.write8 (bufAddr b i) v)]
  | .wrw b i v => [.host (.write32 (bufAddr b i) v)]
  | .rdb b i => [.host (.read8 (bufAddr b i))]
  | .wait => waitTurns polls
  | .command i => .host (.write32 (regAddr .cmd) (encode i)) :: waitTurns polls

/-- The turns of a host program. -/
def programTurns (polls : Nat) (prog : List Stmt) : List Turn := prog.flatMap (stmtTurns polls)

/-- The writes of LOAD from index `i` on. -/
def loadFrom (i : Nat) : List Byte → List Stmt
  | [] => []
  | v :: vs => .wrb .ibuf i v :: loadFrom (i + 1) vs

/-- LOAD b0, ..., bn-1 (R89). -/
def pseudoLoad (bs : List Byte) : List Stmt := loadFrom 0 bs ++ [.wr .inLen (BitVec.ofNat 32 bs.length)]

/-- CRC32 start, count (R89). -/
def pseudoCrc32 (start count : Word) : List Stmt :=
  [.wr .arg0 start, .wr .arg1 count, .command .crcInit, .command .crcBuf, .command .crcFinal]

/-- UNFILTV t, filt, a, b, c (R89). -/
def pseudoUnfiltv (t filt a b c : Byte) : List Stmt := [.wr .arg0 (packWord c b a filt), .command (.unfilt t)]

/-- ROW t, bpp, len (R89). -/
def pseudoRow (t bpp : Byte) (len : Word) : List Stmt := [.wr .arg0 len, .command (.rowUnfilt t bpp)]

/-- EXPECT reg, v (R89): a read of the register, which `expectMet` compares; no effect on the block. -/
def pseudoExpect (r : RegName) : List Stmt := [.rd r]

/-- The comparison of EXPECT, once its read has been answered. -/
def expectMet (v : Word) (s : State) : Bool := s.hostRead == some (.word v)

end Sys2Proof.Machine
end

