-- ==== Sys2Proof/Safety.lean ====
section
/-! DEFINITION. What counts as a safe state and a safe run, and the words the statements are made of: the
invariant of the block, readable bytes, bus errors as 20_memory.md R64 words them, and a host that obeys
70_reset_and_hazards.md R225. -/

namespace Sys2Proof.Machine

/-! ### Outcomes -/

/-- The next state of an outcome, if it has one. -/
def nextOf (o : Host.Outcome State Fault Refusal) : Option State :=
  match o with
  | .next t => some t
  | .fault _ => none
  | .refused _ => none

/-! ### The invariant -/

/-- PARSE_POS agrees with PSTATE: 0 before the signature is checked and after MagicMismatch, else at least 8
(10_state.md R41, 41_parser.md R120, R128). -/
abbrev ParserOk (s : State) : Prop :=
  s.parsePos.toNat ≤ s.params.ibufSize ∧
  (if s.pstate = .idle ∨ s.pstate = .error .magicMismatch then s.parsePos = 0 else 8 ≤ s.parsePos.toNat)

/-- The CH_ registers are 0 or describe a recognized chunk that lies, with its stored CRC, in the part of IBUF
the parser has consumed (10_state.md R42, 41_parser.md R134). -/
abbrev ChunkOk (s : State) : Prop :=
  (s.chType = 0 ∧ s.chLen = 0 ∧ s.chData = 0 ∧ s.chCrc = 0) ∨
  (kindOf s.chType ≠ none ∧ 16 ≤ s.chData.toNat ∧ s.chData.toNat + s.chLen.toNat + 4 ≤ s.parsePos.toNat)

/-- The invariant of the block: legal parameters, canonical buffers, a parser position and chunk registers
that fit. -/
abbrev BlockOk (s : State) : Prop :=
  s.params.legal ∧ Memory.wf s ∧ ParserOk s ∧ ChunkOk s

/-! ### Readable bytes -/

/-- The buffer holds exactly these bytes, all written, from index `i` on. -/
def holdsBytes (m : Buffer) (i : Nat) : List Byte → Bool
  | [] => true
  | v :: vs => bufRead m i == some v && holdsBytes m (i + 1) vs

/-- Each of the `n` bytes from index `i` on has been written since reset. -/
def written (m : Buffer) (i n : Nat) : Prop := ∀ j, j < n → (bufRead m (i + j)).isSome = true

/-- A command may read these bytes without stopping (00_scope.md R12). -/
def readable (u : UnwrittenRead) (m : Buffer) (i n : Nat) : Prop := u = .anyValue ∨ written m i n

/-- The neighbour of 42_defilter.md R150 at distance `bpp` before `x`: 0 in the first `bpp` bytes. -/
def neighbour (m : Buffer) (bpp x : Nat) : Option Byte := if bpp ≤ x then bufRead m (x - bpp) else some 0

/-! ### Bus errors, in the words of 20_memory.md R64 -/

/-- The offset lies in a buffer's window (20_memory.md R63). -/
def inWindow (p : Params) (b : BufId) (o : Nat) : Prop := bufBase b ≤ o ∧ o < bufBase b + bufSize p b

/-- A 32-bit access at offset `o` is a bus error (R64): it is misaligned, or in REG at 0x34 or above, or in no
window, or has a byte past its buffer's window. -/
def busError32 (p : Params) (o : Nat) : Prop :=
  o % 4 ≠ 0 ∨ (0x34 ≤ o ∧ o < 0x100) ∨ (0x100 ≤ o ∧ ∀ b, ¬ inWindow p b o) ∨
  (∃ b, inWindow p b o ∧ ¬ inWindow p b (o + 3))

/-- An 8-bit access at offset `o` is a bus error (R64): it is in no buffer window. -/
def busError8 (p : Params) (o : Nat) : Prop := ∀ b, ¬ inWindow p b o

/-- The access is a bus error (R64). -/
def BusError (p : Params) : HostAccess → Prop
  | .read8 o => busError8 p o.toNat
  | .write8 o _ => busError8 p o.toNat
  | .read16 _ => True
  | .write16 _ _ => True
  | .read32 o => busError32 p o.toNat
  | .write32 o _ => busError32 p o.toNat

/-! ### A host that obeys the rules -/

/-- The access issues a command: a 32-bit write at CMD's offset (10_state.md R34). -/
def isCommandWrite : HostAccess → Bool
  | .write32 o _ => o == 4
  | .write8 _ _ => false
  | .write16 _ _ => false
  | .read8 _ => false
  | .read16 _ => false
  | .read32 _ => false

/-- The turns hold no bus error and, while a command is pending, no access but reads of STATUS
(70_reset_and_hazards.md R225). The flag says whether a command is pending now. -/
def hostObeys (p : Params) : Bool → List Turn → Prop
  | _, [] => True
  | busy, .host a :: rest =>
    ¬ BusError p a ∧ (busy = true → isStatusRead a = true) ∧ hostObeys p (busy || isCommandWrite a) rest
  | _, .block :: rest => hostObeys p false rest
  | _, .reset :: rest => hostObeys p false rest

/-- The state can take no host fault and no unwritten-read fault from here on (60_exceptions.md R196): its
parameters and buffers are legal, the host obeys the rules, and unwritten bytes read as any value. -/
def Safe (s : State) : Prop :=
  s.params.legal ∧ s.params.unwritten = .anyValue ∧ hostObeys s.params s.busy s.schedule

end Sys2Proof.Machine
end

