-- ==== Sys2Proof/Certificates/Slice0/Obligations.lean ====
section
/-! DEFINITION. The statements about the machine, from the numbered rules of spec/. A rule is cited by its number; a statement that
rests on the model's own choice says so and names the log entry. -/

open Sys2Proof Sys2Proof.Machine

/-! ## Encoding -/

/-- R80, R83: words written out from the encoding decode to the command they stand for, and an undefined OPC or a
nonzero must-be-zero field is rejected by name. -/
def Obligations.SampleWordsDecode : Prop :=
  decode 0x00000000 = .ok .nop ∧ decode 0x00000001 = .ok .crcInit ∧ decode 0x00004902 = .ok (.crcByte 0x49) ∧
  decode 0x00000003 = .ok .crcBuf ∧ decode 0x00000004 = .ok .crcFinal ∧ decode 0x00000010 = .ok .parseReset ∧
  decode 0x00000011 = .ok .parseNext ∧ decode 0x0F140A20 = .ok (.paeth 10 20 15) ∧
  decode 0x00000421 = .ok (.unfilt 4) ∧ decode 0x00000022 = .ok .rowClear ∧
  decode 0x00030423 = .ok (.rowUnfilt 4 3) ∧
  decode 0x00000005 = .error .undefinedOpcode ∧ decode 0x00000100 = .error .nonzeroF1 ∧
  decode 0x00010021 = .error .nonzeroF2 ∧ decode 0x01000023 = .error .nonzeroF3

/-- R80, R83, R84: decoding the word of a command gives the command back, for every command and every value of its byte
operands, legal for its own rule or not. -/
def Obligations.DecodeAfterEncode : Prop :=
  ∀ i : Instr, decode (encode i) = .ok i

/-- R80, R83, R84: every word that decodes is the word of the command it decodes to, so no bit of it is ignored. -/
def Obligations.EncodeAfterDecode : Prop :=
  ∀ (w : Word) (i : Instr), decode w = .ok i → encode i = w

/-- R83, R84: a word has the fixed bits of a row of the opcode table exactly when it decodes to that row's command, and no
word has the fixed bits of two rows. -/
def Obligations.OpcodeTableAgreesWithDecode : Prop :=
  (∀ r ∈ opcodeTable, ∀ w : Word, r.covers w = true ↔ ∃ i, decode w = .ok i ∧ i.opcode = r.opcode) ∧
  (∀ r ∈ opcodeTable, ∀ r' ∈ opcodeTable, ∀ w : Word, r.covers w = true → r'.covers w = true → r = r') ∧
  (∀ i : Instr, ∃ r ∈ opcodeTable, r.opcode = i.opcode)

/-- R85: the illegal words are exactly those with an OPC of 0x05 to 0x0F, 0x12 to 0x1F or 0x24 to 0xFF, and those with a
nonzero field that their OPC marks "0"; an illegal word sets ERR = 1 and ERRCODE = 5, completes, and changes nothing
else. Every other word decodes, so no word is ignored. -/
def Obligations.IllegalWords : Prop :=
  (∀ w : Word, (∃ e, decode w = .error e) ↔
    ((0x05 ≤ (fieldOPC w).toNat ∧ (fieldOPC w).toNat ≤ 0x0F) ∨ (0x12 ≤ (fieldOPC w).toNat ∧ (fieldOPC w).toNat ≤ 0x1F) ∨
      0x24 ≤ (fieldOPC w).toNat ∨
      (fieldOPC w ∈ ([0x00, 0x01, 0x03, 0x04, 0x10, 0x11, 0x22] : List Byte) ∧ fieldF1 w ≠ 0) ∨
      (fieldOPC w ∈ ([0x00, 0x01, 0x02, 0x03, 0x04, 0x10, 0x11, 0x21, 0x22] : List Byte) ∧ fieldF2 w ≠ 0) ∨
      (fieldOPC w ∈ ([0x00, 0x01, 0x02, 0x03, 0x04, 0x10, 0x11, 0x21, 0x22, 0x23] : List Byte) ∧ fieldF3 w ≠ 0))) ∧
  (∀ (w : Word) (e : DecodeError) (s : State), decode w = .error e →
    ∃ t, runWord w s = .next t ∧ t = { s with lastError := some .illegalCommand, busy := false } ∧
      statusErr t = 1 ∧ statusErrCode t = 5)

/-! ## STATUS -/

/-- R33, R190, R120: the fields of the STATUS word, their codes, and the reserved bits, in every state. -/
def Obligations.StatusWordFields : Prop :=
  ∀ s : State,
    ((statusWord s).extractLsb' 0 1 = 1 ↔ s.busy = true) ∧
    ((statusWord s).extractLsb' 1 1 = 1 ↔ s.lastError ≠ none) ∧
    (statusWord s).extractLsb' 2 2 = 0 ∧ (statusWord s).extractLsb' 11 1 = 0 ∧ (statusWord s).extractLsb' 16 16 = 0 ∧
    (statusWord s).extractLsb' 4 4 =
      (match s.lastError with
        | none => 0 | some .magicMismatch => 1 | some .truncatedChunk => 2 | some .crcMismatch => 3
        | some .invalidFilterType => 4 | some .illegalCommand => 5 | some .rangeError => 6) ∧
    (statusWord s).extractLsb' 8 3 =
      (match s.pstate with | .idle => 0 | .scan => 1 | .doneIend => 2 | .doneEob => 3 | .error _ => 4) ∧
    (statusWord s).extractLsb' 12 4 =
      (match s.pstate with
        | .error .magicMismatch => 1 | .error .truncatedChunk => 2 | .error .crcMismatch => 3
        | .idle => 0 | .scan => 0 | .doneIend => 0 | .doneEob => 0)

/-- R33, R44: over all steps, PSTATE and PERR change only by a reset or by a pending PARSE_RESET or PARSE_NEXT that takes
effect. -/
def Obligations.OnlyParserCommandsChangePState : Prop :=
  ∀ s t : State, step s = .next t → t.pstate ≠ s.pstate →
    s.schedule.head? = some .reset ∨
    (s.busy = true ∧ (s.schedule.head? = none ∨ s.schedule.head? = some .block) ∧
      (decode s.cmd = .ok .parseReset ∨ decode s.cmd = .ok .parseNext))

/-! ## Control -/

/-- R180: NOP is word 0; it clears ERR and ERRCODE and changes nothing else, so the parser's PSTATE and PERR stay; every other
word with its OPC is illegal; the two examples. -/
def Obligations.NopRule : Prop :=
  encode .nop = 0x00000000 ∧
  (∀ s : State, exec .nop s = .next { s with lastError := none, busy := false }) ∧
  (∀ (s : State) (w : Word), fieldOPC w = 0x00 → w ≠ 0x00000000 →
    runWord w s = .next { s with lastError := some .illegalCommand, busy := false }) ∧
  (∀ s t : State, exec .nop s = .next t →
    (statusWord s = 0x00000052 → statusWord t = 0x00000000) ∧ (statusWord s = 0x00003432 → statusWord t = 0x00003400))

/-! ## CRC unit -/

/-- R100: the byte step XORs the byte into the low byte of the register, then runs 8 rounds, each shifting right and XORing
0xEDB88320 exactly when bit 0 was 1. -/
def Obligations.CrcByteStep : Prop :=
  ∀ (r : Word) (d : Byte),
    crcStep r d =
      Nat.iterate (fun x : Word => if x.toNat % 2 = 1 then (x >>> 1) ^^^ 0xEDB88320 else x >>> 1) 8 (r ^^^ d.setWidth 32)

/-- R101, R108: the table form equals the bitwise form on all inputs, and every entry of the listed table is the 8 rounds
of its index. -/
def Obligations.CrcTableFormEqualsBitwise : Prop :=
  crcTable.length = 256 ∧ (∀ n : Byte, crcTableAt n = crcRounds 8 (n.setWidth 32)) ∧
  (∀ (r : Word) (d : Byte), crcStepByTable r d = crcStep r d)

/-- R103: CRC_INIT is word 1; it sets CRC_STATE to 0xFFFFFFFF, clears ERR and ERRCODE and changes nothing else; every other
word with its OPC is illegal. -/
def Obligations.CrcInitRule : Prop :=
  encode .crcInit = 0x00000001 ∧
  (∀ s : State, exec .crcInit s = .next { s with crcState := 0xFFFFFFFF, lastError := none, busy := false }) ∧
  (∀ (s : State) (w : Word), fieldOPC w = 0x01 → w ≠ 0x00000001 →
    runWord w s = .next { s with lastError := some .illegalCommand, busy := false })

/-- R104: CRC_BYTE folds F1 into CRC_STATE, whatever CRC_STATE holds, clears ERR and ERRCODE and changes nothing else; a word
with its OPC and a nonzero F2 or F3 is illegal; the corner case and the example. -/
def Obligations.CrcByteRule : Prop :=
  (∀ d : Byte, encode (.crcByte d) = packWord 0 0 d 0x02) ∧
  (∀ (d : Byte) (s : State),
    exec (.crcByte d) s = .next { s with crcState := crcStep s.crcState d, lastError := none, busy := false }) ∧
  (∀ (s : State) (w : Word), fieldOPC w = 0x02 → (fieldF2 w ≠ 0 ∨ fieldF3 w ≠ 0) →
    runWord w s = .next { s with lastError := some .illegalCommand, busy := false }) ∧
  crcStep 0xFFFFFFFF 0x00 = 0x2DFD1072 ∧ crcStep 0xFFFFFFFF 0x49 = 0x22FDE946

/-- R105: CRC_BUF raises RangeError when IN_LEN > IBUF_SIZE or the range passes IN_LEN, both exact, with CRC_STATE unchanged;
else it folds the range's bytes in index order. Where every byte is written it completes with exactly those bytes and
changes nothing else; an unwritten byte stops it under `fault`, and under `any_value` it completes with some byte there
(the model's free value, log 2, on which nothing rests). A count of 0 leaves CRC_STATE. A nonzero field is illegal. The no-wrap corner case and the example. -/
def Obligations.CrcBufRule : Prop :=
  encode .crcBuf = 0x00000003 ∧
  (∀ (s : State) (w : Word), fieldOPC w = 0x03 → w ≠ 0x00000003 →
    runWord w s = .next { s with lastError := some .illegalCommand, busy := false }) ∧
  (∀ s : State, s.params.ibufSize < s.inLen.toNat ∨ s.inLen.toNat < s.arg0.toNat + s.arg1.toNat →
    exec .crcBuf s = .next { s with lastError := some .rangeError, busy := false }) ∧
  (∀ s : State, s.inLen.toNat ≤ s.params.ibufSize → s.arg0.toNat + s.arg1.toNat ≤ s.inLen.toNat →
    (∀ bs : List Byte, bs.length = s.arg1.toNat → holdsBytes s.ibuf s.arg0.toNat bs = true →
      exec .crcBuf s = .next { s with crcState := bs.foldl crcStep s.crcState, lastError := none, busy := false }) ∧
    (s.params.unwritten = .fault → ¬ written s.ibuf s.arg0.toNat s.arg1.toNat → exec .crcBuf s = .fault .unwrittenRead) ∧
    (s.params.unwritten = .anyValue → ∃ (bs : List Byte) (k : Nat), bs.length = s.arg1.toNat ∧
      (∀ j v, j < s.arg1.toNat → bufRead s.ibuf (s.arg0.toNat + j) = some v → bs[j]? = some v) ∧
      exec .crcBuf s =
        .next { s with crcState := bs.foldl crcStep s.crcState, draws := k, lastError := none, busy := false })) ∧
  (∀ s : State, s.inLen.toNat ≤ s.params.ibufSize → s.arg1 = 0 → s.arg0.toNat ≤ s.inLen.toNat →
    exec .crcBuf s = .next { s with lastError := none, busy := false }) ∧
  (∀ s : State, s.arg0 = 0xFFFFFFFF → s.arg1 = 2 →
    exec .crcBuf s = .next { s with lastError := some .rangeError, busy := false }) ∧
  (∀ s t : State, s.inLen = 72 → 72 ≤ s.params.ibufSize → s.crcState = 0xFFFFFFFF → s.arg0 = 64 → s.arg1 = 4 →
    holdsBytes s.ibuf 64 [0x49, 0x45, 0x4E, 0x44] = true → exec .crcBuf s = .next t → t.crcState = 0x51BD9F7D)

/-- R106: CRC_FINAL is word 4; it sets RESULT to CRC_STATE XOR 0xFFFFFFFF, leaves CRC_STATE, clears ERR and ERRCODE and changes
nothing else; every other word with its OPC is illegal; right after CRC_INIT it returns 0; the example. -/
def Obligations.CrcFinalRule : Prop :=
  encode .crcFinal = 0x00000004 ∧
  (∀ s : State, exec .crcFinal s = .next { s with result := s.crcState ^^^ 0xFFFFFFFF, lastError := none, busy := false }) ∧
  (∀ (s : State) (w : Word), fieldOPC w = 0x04 → w ≠ 0x00000004 →
    runWord w s = .next { s with lastError := some .illegalCommand, busy := false }) ∧
  (∀ s t u : State, exec .crcInit s = .next t → exec .crcFinal t = .next u → u.result = 0) ∧
  (∀ s t : State, s.crcState = 0x51BD9F7D → exec .crcFinal s = .next t → t.result = 0xAE426082)

/-- A run of CRC_BYTE and CRC_BUF commands that feeds a byte sequence in order: CRC_BYTE feeds its byte, CRC_BUF the bytes of its
range, and between commands the host makes any accesses (it sets ARG0 and ARG1, refills IBUF, sets IN_LEN, reads). -/
inductive Sys2Proof.Machine.FeedsCrc : State → List Byte → State → Prop where
  | none (s : State) : FeedsCrc s [] s
  | byte {s t u : State} {bs : List Byte} (d : Byte) (h : exec (.crcByte d) s = .next t) (rest : FeedsCrc t bs u) :
      FeedsCrc s (d :: bs) u
  | range {s t u : State} {bs : List Byte} (chunk : List Byte)
      (hl : chunk.length = s.arg1.toNat) (hh : holdsBytes s.ibuf s.arg0.toNat chunk = true)
      (hs : s.inLen.toNat ≤ s.params.ibufSize) (hr : s.arg0.toNat + s.arg1.toNat ≤ s.inLen.toNat)
      (h : exec .crcBuf s = .next t) (rest : FeedsCrc t bs u) : FeedsCrc s (chunk ++ bs) u
  | host {s t u : State} {bs : List Byte} (a : HostAccess) (h : hostAccess a s = .next t) (rest : FeedsCrc t bs u) :
      FeedsCrc s bs u

/-- R102: after CRC_INIT and any sequence of CRC_BYTE and CRC_BUF commands that feed a byte sequence in order, with any host accesses
between them, CRC_FINAL returns the checksum of the sequence: the fold from 0xFFFFFFFF, XOR 0xFFFFFFFF. -/
def Obligations.ChecksumOfFedSequence : Prop :=
  ∀ (s s1 t : State) (bs : List Byte), exec .crcInit s = .next s1 → FeedsCrc s1 bs t →
    ∃ u, exec .crcFinal t = .next u ∧ u.result = bs.foldl crcStep 0xFFFFFFFF ^^^ 0xFFFFFFFF ∧ u.result = crc32 bs

/-- Changing exactly one byte of a sequence, and so any single bit, changes its checksum. It follows from the byte step and the checksum
(R100, R102). It goes beyond what R129 uses, the claim for a single bit, which the spec marks as general knowledge (93 G2). -/
def Obligations.OneChangedByteChangesChecksum : Prop :=
  ∀ (before after : List Byte) (x y : Byte), x ≠ y → crc32 (before ++ x :: after) ≠ crc32 (before ++ y :: after)

/-! ## Parser -/

/-- R60: the length, the tag and the stored CRC of a chunk are big-endian: the byte at the lowest index weighs most. -/
def Obligations.ChunkFieldsAreBigEndian : Prop :=
  ∀ (u : UnwrittenRead) (m : Buffer) (p k : Nat) (l0 l1 l2 l3 t0 t1 t2 t3 c0 c1 c2 c3 : Byte) (payload : List Byte),
    holdsBytes m p ([l0, l1, l2, l3, t0, t1, t2, t3] ++ payload ++ [c0, c1, c2, c3]) = true →
    ∃ len tag computed stored : Word,
      readHeader u m p k = some (len, tag, k) ∧
      readChecksums u m p payload.length k = some (computed, stored, k) ∧
      len.toNat = l0.toNat * 2 ^ 24 + l1.toNat * 2 ^ 16 + l2.toNat * 2 ^ 8 + l3.toNat ∧
      tag.toNat = t0.toNat * 2 ^ 24 + t1.toNat * 2 ^ 16 + t2.toNat * 2 ^ 8 + t3.toNat ∧
      stored.toNat = c0.toNat * 2 ^ 24 + c1.toNat * 2 ^ 16 + c2.toNat * 2 ^ 8 + c3.toNat ∧
      computed = crc32 ([t0, t1, t2, t3] ++ payload)

/-- R124: the four recognized tags and their kind codes, and no others. The tag values are the spec's general knowledge
(log 15). -/
def Obligations.RecognizedTags : Prop :=
  (∀ tag : Word, kindOf tag =
    if tag = 0x49484452 then some .ihdr else if tag = 0x504C5445 then some .plte
    else if tag = 0x49444154 then some .idat else if tag = 0x49454E44 then some .iend else none) ∧
  kindCode .ihdr = 1 ∧ kindCode .plte = 2 ∧ kindCode .idat = 3 ∧ kindCode .iend = 4

/-- R125: PARSE_RESET is word 0x10; it sets PSTATE to IDLE, PERR, PARSE_POS and the CH_ registers to 0, clears ERR and ERRCODE and
changes nothing else; every other word with its OPC is illegal; it is the only command that leaves ERROR, DONE_IEND or
DONE_EOB. -/
def Obligations.ParseResetRule : Prop :=
  encode .parseReset = 0x00000010 ∧
  (∀ s : State, exec .parseReset s = .next { s with
    pstate := .idle, parsePos := 0, chType := 0, chLen := 0, chData := 0, chCrc := 0, chCalc := 0
    lastError := none, busy := false }) ∧
  (∀ (s : State) (w : Word), fieldOPC w = 0x10 → w ≠ 0x00000010 →
    runWord w s = .next { s with lastError := some .illegalCommand, busy := false }) ∧
  (∀ (i : Instr) (s t : State), exec i s = .next t → i ≠ .parseReset → s.pstate ≠ .idle → s.pstate ≠ .scan →
    t.pstate = s.pstate)

/-- R128: the signature check. A buffer shorter than 8 bytes fails without a read of IBUF; one whose first 8 bytes differ from
the signature fails whatever follows; with the signature the same command goes on at position 8. After MagicMismatch
PARSE_POS is 0, since it is 0 in IDLE (the invariant `ParserOk`). -/
def Obligations.SignatureRule : Prop :=
  (∀ s : State, s.pstate = .idle → s.inLen.toNat ≤ s.params.ibufSize → s.inLen.toNat < 8 →
    exec .parseNext s =
      .next { s with pstate := .error .magicMismatch, lastError := some .magicMismatch, busy := false }) ∧
  (∀ (s : State) (bs : List Byte), s.pstate = .idle → s.inLen.toNat ≤ s.params.ibufSize → 8 ≤ s.inLen.toNat →
    bs.length = 8 → holdsBytes s.ibuf 0 bs = true →
    (bs ≠ [0x89, 0x50, 0x4E, 0x47, 0x0D, 0x0A, 0x1A, 0x0A] → exec .parseNext s =
      .next { s with pstate := .error .magicMismatch, lastError := some .magicMismatch, busy := false }) ∧
    (bs = [0x89, 0x50, 0x4E, 0x47, 0x0D, 0x0A, 0x1A, 0x0A] →
      exec .parseNext s = exec .parseNext { s with pstate := .scan, parsePos := 8 })) ∧
  (∀ s t : State, ParserOk s → exec .parseNext s = .next t → t.lastError = some .magicMismatch → t.parsePos = 0)

/-- R127, C2: TruncatedChunk is raised when a fixed header is available and the whole chunk is not, on exact integers for every
32-bit length, so a huge length never wraps; only PSTATE, PERR, ERR, ERRCODE and BUSY change. -/
def Obligations.TruncatedChunkNeverWraps : Prop :=
  ∀ (s : State) (l0 l1 l2 l3 t0 t1 t2 t3 : Byte), s.pstate = .scan → s.inLen.toNat ≤ s.params.ibufSize →
    s.parsePos.toNat + 8 ≤ s.inLen.toNat → holdsBytes s.ibuf s.parsePos.toNat [l0, l1, l2, l3, t0, t1, t2, t3] = true →
    s.inLen.toNat < s.parsePos.toNat + 12 + (l0.toNat * 2 ^ 24 + l1.toNat * 2 ^ 16 + l2.toNat * 2 ^ 8 + l3.toNat) →
    exec .parseNext s =
      .next { s with pstate := .error .truncatedChunk, lastError := some .truncatedChunk, busy := false }

/-- The words of a chunk that lies whole at PARSE_POS inside IN_LEN (R123): the length field, the covered bytes (tag, then
payload) and the stored CRC. -/
def Sys2Proof.Machine.ChunkAtPos (s : State) (len tag : Word) (payload : List Byte) (stored : Word) : Prop :=
  s.inLen.toNat ≤ s.params.ibufSize ∧ s.parsePos.toNat + 12 + len.toNat ≤ s.inLen.toNat ∧ payload.length = len.toNat ∧
  holdsBytes s.ibuf s.parsePos.toNat
    ([byteOf len 3, byteOf len 2, byteOf len 1, byteOf len 0, byteOf tag 3, byteOf tag 2, byteOf tag 1, byteOf tag 0] ++
      payload ++ [byteOf stored 3, byteOf stored 2, byteOf stored 1, byteOf stored 0]) = true

/-- The checksum of a chunk: `crc32` over the tag, then the payload (R123). -/
def Sys2Proof.Machine.chunkCrc (tag : Word) (payload : List Byte) : Word :=
  crc32 ([byteOf tag 3, byteOf tag 2, byteOf tag 1, byteOf tag 0] ++ payload)

/-- R126 Step 3, R129: a chunk, recognized or not, whose stored CRC differs from the recomputed one raises CrcMismatch;
PARSE_POS stays at its start, CH_CALC holds the recomputed CRC, and the CH_ registers and RESULT stay. -/
def Obligations.BadChecksumRaisesCrcMismatch : Prop :=
  ∀ (s : State) (len tag : Word) (payload : List Byte) (stored : Word), s.pstate = .scan →
    ChunkAtPos s len tag payload stored → chunkCrc tag payload ≠ stored →
    exec .parseNext s = .next { s with
      chCalc := chunkCrc tag payload, pstate := .error .crcMismatch, lastError := some .crcMismatch, busy := false }

/-- R126, R124, R132: a recognized chunk with a good checksum is returned: the CH_ registers, CH_CALC, RESULT and PARSE_POS report it, IEND
ends the walk, and nothing else changes. -/
def Obligations.RecognizedChunkIsReturned : Prop :=
  ∀ (s : State) (len tag : Word) (payload : List Byte) (stored : Word) (k : ChunkKind), s.pstate = .scan →
    ChunkAtPos s len tag payload stored → chunkCrc tag payload = stored → kindOf tag = some k →
    exec .parseNext s = .next { s with
      chCalc := stored, parsePos := BitVec.ofNat 32 (s.parsePos.toNat + 12 + len.toNat)
      chType := tag, chLen := len, chData := BitVec.ofNat 32 (s.parsePos.toNat + 8), chCrc := stored
      result := kindCode k, pstate := if k = .iend then .doneIend else .scan, lastError := none, busy := false }

/-- R130: an unrecognized chunk with a good checksum is consumed: the command goes on, in the same command, from the state
where PARSE_POS has moved past it and CH_CALC holds its checksum, and nothing else differs. -/
def Obligations.UnrecognizedChunkIsSkipped : Prop :=
  ∀ (s : State) (len tag : Word) (payload : List Byte) (stored : Word), s.pstate = .scan →
    ChunkAtPos s len tag payload stored → chunkCrc tag payload = stored → kindOf tag = none →
    exec .parseNext s = exec .parseNext { s with
      chCalc := stored, parsePos := BitVec.ofNat 32 (s.parsePos.toNat + 12 + len.toNat) }

/-- Where a chunk at PARSE_POS has a good checksum, the same chunk with exactly one byte of its tag, payload or stored CRC changed
raises CrcMismatch. It follows from R100, R102 and R126. For a byte of the tag or the payload it goes beyond R129's claim for a
single bit, which the spec marks as general knowledge (93 G2). -/
def Obligations.OneChangedByteIsCaught : Prop :=
  ∀ (s : State) (len tag tag' : Word) (payload payload' : List Byte) (stored stored' : Word) (before after : List Byte)
    (x y : Byte), s.pstate = .scan → ChunkAtPos s len tag' payload' stored' → payload.length = payload'.length →
    chunkCrc tag payload = stored → x ≠ y →
    [byteOf tag 3, byteOf tag 2, byteOf tag 1, byteOf tag 0] ++ payload ++
      [byteOf stored 3, byteOf stored 2, byteOf stored 1, byteOf stored 0] = before ++ x :: after →
    [byteOf tag' 3, byteOf tag' 2, byteOf tag' 1, byteOf tag' 0] ++ payload' ++
      [byteOf stored' 3, byteOf stored' 2, byteOf stored' 1, byteOf stored' 0] = before ++ y :: after →
    ∃ t, exec .parseNext s = .next t ∧ t.lastError = some .crcMismatch ∧ t.pstate = .error .crcMismatch ∧
      t.parsePos = s.parsePos ∧ t.result = s.result

/-- R131: errors are sticky. After MagicMismatch, TruncatedChunk or CrcMismatch, PSTATE is ERROR and PERR holds 1, 2 or 3; each
later PARSE_NEXT (with IN_LEN inside IBUF, R194) raises the same error and changes nothing else; only PARSE_RESET leaves
ERROR. -/
def Obligations.ParserErrorsAreSticky : Prop :=
  (∀ (s t : State) (e : ParseError), exec .parseNext s = .next t → t.lastError = some (errorOf e) →
    t.pstate = .error e ∧ statusPState t = 4 ∧
      statusPErr t = (match e with | .magicMismatch => 1 | .truncatedChunk => 2 | .crcMismatch => 3)) ∧
  (∀ (s : State) (e : ParseError), s.pstate = .error e → s.inLen.toNat ≤ s.params.ibufSize →
    exec .parseNext s = .next { s with lastError := some (errorOf e), busy := false }) ∧
  (∀ (i : Instr) (s t : State) (e : ParseError), s.pstate = .error e → exec i s = .next t →
    t.pstate = if i = .parseReset then .idle else .error e)

/-- R132: the end of the walk. Returning IEND gives DONE_IEND; fewer than 8 bytes at PARSE_POS give DONE_EOB and RESULT = 0 with no
error; in either, PARSE_NEXT returns RESULT = 0, succeeds, reads nothing and stays. -/
def Obligations.EndOfWalk : Prop :=
  (∀ s t : State, (s.pstate = .idle ∨ s.pstate = .scan) → exec .parseNext s = .next t → t.lastError = none →
    (t.pstate = .doneIend ↔ t.result = 4) ∧ (t.pstate = .doneEob ↔ t.result = 0)) ∧
  (∀ s : State, s.pstate = .scan → s.inLen.toNat ≤ s.params.ibufSize → s.inLen.toNat < s.parsePos.toNat + 8 →
    exec .parseNext s = .next { s with pstate := .doneEob, result := 0, lastError := none, busy := false }) ∧
  (∀ s : State, (s.pstate = .doneIend ∨ s.pstate = .doneEob) → s.inLen.toNat ≤ s.params.ibufSize →
    exec .parseNext s = .next { s with result := 0, lastError := none, busy := false })

/-- R126, R32: the frame of PARSE_NEXT. Whatever it does, only the parser's own registers, RESULT, STATUS and the model's draw
count can change; every byte of every buffer reads as before. -/
def Obligations.ParseNextFrame : Prop :=
  ∀ s t : State, exec .parseNext s = .next t →
    t = { s with
      pstate := t.pstate, parsePos := t.parsePos, chType := t.chType, chLen := t.chLen, chData := t.chData
      chCrc := t.chCrc, chCalc := t.chCalc, result := t.result, lastError := t.lastError, busy := false, draws := t.draws } ∧
    (∀ (b : BufId) (a : Nat), bufRead (t.buf b) a = bufRead (s.buf b) a)

/-- R41, R42, R130: PARSE_NEXT from SCAN never moves PARSE_POS back; a returned chunk lies past the old position and ends, with
its stored CRC, at the new one. -/
def Obligations.ParsePosAdvances : Prop :=
  ∀ s t : State, s.pstate = .scan → exec .parseNext s = .next t →
    s.parsePos.toNat ≤ t.parsePos.toNat ∧
    (t.lastError = none → t.result ≠ 0 →
      s.parsePos.toNat + 8 ≤ t.chData.toNat ∧ t.chData.toNat + t.chLen.toNat + 4 = t.parsePos.toNat ∧
      t.parsePos.toNat ≤ s.inLen.toNat ∧ t.chCrc = t.chCalc ∧ ∃ k, kindOf t.chType = some k ∧ t.result = kindCode k)

/-- R231, R130, R12: PARSE_NEXT completes whenever the bytes below IN_LEN may be read, in every parser state. -/
def Obligations.ParseNextCompletes : Prop :=
  ∀ s : State, readable s.params.unwritten s.ibuf 0 s.inLen.toNat → ∃ t, exec .parseNext s = .next t ∧ t.busy = false

/-- R228: in SCAN, bytes of IBUF before PARSE_POS have no effect: changing them changes nothing of what PARSE_NEXT does. -/
def Obligations.ConsumedBytesHaveNoEffect : Prop :=
  ∀ (s : State) (m : Buffer), s.pstate = .scan →
    (∀ j, s.parsePos.toNat ≤ j → bufRead m j = bufRead s.ibuf j) →
    nextOf (exec .parseNext { s with ibuf := m }) = (nextOf (exec .parseNext s)).map (fun t => { t with ibuf := m })

/-! ## Defilter unit -/

/-- R151: the predictor picks the neighbour nearest to `a + b - c` on exact integers, ties toward `a`, then `b`; the
distances are |b - c|, |a - c| and |a + b - 2c|. -/
def Obligations.PaethPicksNearest : Prop :=
  ∀ a b c : Byte,
    let p : Int := (a.toNat : Int) + b.toNat - c.toNat
    let pa : Int := |(b.toNat : Int) - c.toNat|
    let pb : Int := |(a.toNat : Int) - c.toNat|
    let pc : Int := |(a.toNat : Int) + b.toNat - 2 * c.toNat|
    pa = |p - a.toNat| ∧ pb = |p - b.toNat| ∧ pc = |p - c.toNat| ∧ -255 ≤ p ∧ p ≤ 510 ∧ pa ≤ 255 ∧ pb ≤ 255 ∧ pc ≤ 510 ∧
    (pa ≤ pb → pa ≤ pc → paeth a b c = a) ∧
    (¬ (pa ≤ pb ∧ pa ≤ pc) → pb ≤ pc → paeth a b c = b) ∧
    (¬ (pa ≤ pb ∧ pa ≤ pc) → ¬ pb ≤ pc → paeth a b c = c) ∧
    |p - (paeth a b c).toNat| ≤ pa ∧ |p - (paeth a b c).toNat| ≤ pb ∧ |p - (paeth a b c).toNat| ≤ pc

/-- R152: the five inverse filters as sums reduced once mod 256, the average on the 9-bit sum, and no filter for a tag
above 4. -/
def Obligations.InverseFilters : Prop :=
  ∀ (t filt a b c : Byte),
    (t = 0 → ∃ f, filterOfTag t = some f ∧ (recon f filt a b c).toNat = filt.toNat) ∧
    (t = 1 → ∃ f, filterOfTag t = some f ∧ (recon f filt a b c).toNat = (filt.toNat + a.toNat) % 256) ∧
    (t = 2 → ∃ f, filterOfTag t = some f ∧ (recon f filt a b c).toNat = (filt.toNat + b.toNat) % 256) ∧
    (t = 3 → ∃ f, filterOfTag t = some f ∧
      (recon f filt a b c).toNat = (filt.toNat + (a.toNat + b.toNat) / 2) % 256) ∧
    (t = 4 → ∃ f, filterOfTag t = some f ∧
      (recon f filt a b c).toNat = (filt.toNat + (paeth a b c).toNat) % 256) ∧
    (4 < t.toNat → filterOfTag t = none)

/-- R153: PAETH returns the predictor of F1, F2, F3, zero-extended, clears ERR and ERRCODE and changes nothing else; every word with
its OPC is legal; the corner cases and the example. -/
def Obligations.PaethRule : Prop :=
  (∀ (a b c : Byte) (s : State),
    exec (.paeth a b c) s = .next { s with result := (paeth a b c).setWidth 32, lastError := none, busy := false }) ∧
  (∀ w : Word, fieldOPC w = 0x20 → decode w = .ok (.paeth (fieldF1 w) (fieldF2 w) (fieldF3 w))) ∧
  (∀ a : Byte, paeth a a a = a) ∧ paeth 5 5 0 = 5 ∧ paeth 10 20 15 = 15 ∧ paeth 10 250 0 = 250 ∧
  (∀ s : State, ∃ t, runWord 0x0F140A20 s = .next t ∧ t.result = 0x0000000F)

/-- R154: UNFILT reconstructs the byte of ARG0 with the filter of its tag and returns it zero-extended, clears ERR and ERRCODE and
changes nothing else; a tag above 4 raises InvalidFilterType with RESULT unchanged; a nonzero F2 or F3 is illegal; the
bytes a tag does not use are ignored; the corner case and the example. -/
def Obligations.UnfiltRule : Prop :=
  (∀ (t : Byte) (f : FilterType) (s : State), filterOfTag t = some f →
    exec (.unfilt t) s = .next { s with
      result := (recon f (s.arg0.extractLsb' 0 8) (s.arg0.extractLsb' 8 8) (s.arg0.extractLsb' 16 8)
        (s.arg0.extractLsb' 24 8)).setWidth 32
      lastError := none, busy := false }) ∧
  (∀ t : Byte, t.toNat ≤ 4 → ∃ f, filterOfTag t = some f) ∧
  (∀ (t : Byte) (s : State), 4 < t.toNat →
    exec (.unfilt t) s = .next { s with lastError := some .invalidFilterType, busy := false }) ∧
  (∀ w : Word, fieldOPC w = 0x21 → fieldF2 w = 0 → fieldF3 w = 0 → decode w = .ok (.unfilt (fieldF1 w))) ∧
  (∀ (s : State) (w : Word), fieldOPC w = 0x21 → (fieldF2 w ≠ 0 ∨ fieldF3 w ≠ 0) →
    runWord w s = .next { s with lastError := some .illegalCommand, busy := false }) ∧
  (∀ (f : FilterType) (filt a b c a' b' c' : Byte), (usesA f = true → a = a') → (usesB f = true → b = b') →
    (usesC f = true → c = c') → recon f filt a b c = recon f filt a' b' c') ∧
  recon .average 255 255 255 0 = 254 ∧
  (∀ s t : State, s.arg0 = 0x0F140A03 → exec (.unfilt 4) s = .next t → t.result = 0x00000012)

/-- R155: ROW_CLEAR is word 0x22; every PRIOR byte below ROW_MAX becomes a written 0, ERR and ERRCODE are cleared, and nothing else
changes, CUR and IBUF byte for byte among it; every other word with its OPC is illegal. -/
def Obligations.RowClearRule : Prop :=
  encode .rowClear = 0x00000022 ∧
  (∀ s : State, ∃ t, exec .rowClear s = .next t ∧
    t = { s with prior := t.prior, lastError := none, busy := false } ∧
    (∀ i, i < s.params.rowMax → bufRead t.prior i = some 0) ∧
    (∀ i, s.params.rowMax ≤ i → bufRead t.prior i = bufRead s.prior i) ∧
    (∀ i, bufRead t.cur i = bufRead s.cur i) ∧ (∀ i, bufRead t.ibuf i = bufRead s.ibuf i)) ∧
  (∀ (s : State) (w : Word), fieldOPC w = 0x22 → w ≠ 0x00000022 →
    runWord w s = .next { s with lastError := some .illegalCommand, busy := false })

/-- R156: ROW_UNFILT, on a row whose bytes, and whose previous row's bytes where the tag uses them, are written, completes. Every
byte of the row in CUR is the reconstruction of the old byte with `a` from the new row and `b`, `c` from the old PRIOR;
PRIOR holds the same row; every byte outside the row, IBUF and every register but STATUS is as before. -/
def Obligations.RowIsReconstructed : Prop :=
  ∀ (t bpp : Byte) (f : FilterType) (s : State), bpp ≠ 0 → filterOfTag t = some f → s.arg0.toNat ≤ s.params.rowMax →
    written s.cur 0 s.arg0.toNat → (usesB f = true ∨ usesC f = true → written s.prior 0 s.arg0.toNat) →
    ∃ u, exec (.rowUnfilt t bpp) s = .next u ∧
      u = { s with cur := u.cur, prior := u.prior, lastError := none, busy := false } ∧
      (∀ x, x < s.arg0.toNat → ∃ filt a b c : Byte,
        bufRead s.cur x = some filt ∧
        (usesA f = true → neighbour u.cur bpp.toNat x = some a) ∧
        (usesB f = true → bufRead s.prior x = some b) ∧
        (usesC f = true → neighbour s.prior bpp.toNat x = some c) ∧
        bufRead u.cur x = some (recon f filt a b c) ∧ bufRead u.prior x = some (recon f filt a b c)) ∧
      (∀ x, s.arg0.toNat ≤ x → bufRead u.cur x = bufRead s.cur x ∧ bufRead u.prior x = bufRead s.prior x) ∧
      (∀ x, bufRead u.ibuf x = bufRead s.ibuf x)

/-- R156, R12: ROW_UNFILT that passes its checks stops under `fault` when a byte of the row in CUR, or of the row in PRIOR that the
tag uses as `b`, is unwritten; a tag that uses no byte of PRIOR never stops on one; under `any_value` it always
completes. -/
def Obligations.RowStopsOnlyOnUsedUnwrittenBytes : Prop :=
  ∀ (t bpp : Byte) (f : FilterType) (s : State), bpp ≠ 0 → filterOfTag t = some f → s.arg0.toNat ≤ s.params.rowMax →
    (s.params.unwritten = .fault → (exec (.rowUnfilt t bpp) s = .fault .unwrittenRead ↔
      (¬ written s.cur 0 s.arg0.toNat ∨
        (usesB f = true ∧ ¬ written s.prior 0 s.arg0.toNat)))) ∧
    (s.params.unwritten = .anyValue → ∃ u, exec (.rowUnfilt t bpp) s = .next u ∧ u.lastError = none)

/-- R159: on the first row, PRIOR all zero over the row, tag 4 does exactly what tag 1 does, and tag 2 what tag 0 does. -/
def Obligations.FirstRowFilters : Prop :=
  ∀ (bpp : Byte) (s : State), (∀ i, i < s.arg0.toNat → bufRead s.prior i = some 0) →
    exec (.rowUnfilt 4 bpp) s = exec (.rowUnfilt 1 bpp) s ∧ exec (.rowUnfilt 2 bpp) s = exec (.rowUnfilt 0 bpp) s

/-! ## Errors and whole-machine rules -/

/-- R191: every completed command has BUSY = 0; success has ERR = 0 and ERRCODE = 0, an error ERR = 1 and its code; a failing command other
than PARSE_NEXT changes nothing else, and a failing PARSE_NEXT can have changed only PSTATE, PERR, PARSE_POS and CH_CALC
(and the model's own draw count, log 2). -/
def Obligations.CompletionRule : Prop :=
  ∀ (i : Instr) (s t : State), exec i s = .next t →
    statusBusy t = 0 ∧
    (t.lastError = none → statusErr t = 0 ∧ statusErrCode t = 0) ∧
    (∀ e, t.lastError = some e → statusErr t = 1 ∧
      statusErrCode t = (match e with
        | .magicMismatch => 1 | .truncatedChunk => 2 | .crcMismatch => 3 | .invalidFilterType => 4
        | .illegalCommand => 5 | .rangeError => 6) ∧
      (i ≠ .parseNext → t = { s with lastError := some e, busy := false }) ∧
      (i = .parseNext → t = { s with
        lastError := some e, busy := false
        pstate := t.pstate, parsePos := t.parsePos, chCalc := t.chCalc, draws := t.draws }))

/-- R194: the order of the checks. Each clause says that the error named there is raised whatever later check would also fail: decoding
first; for ROW_UNFILT bpp = 0, then the tag, then the length; for UNFILT the tag; for CRC_BUF and PARSE_NEXT IN_LEN against
IBUF_SIZE, then the range, or the stored error in ERROR; MagicMismatch newly raised only in IDLE; at a chunk TruncatedChunk before
CrcMismatch, and CrcMismatch before the recognition test. -/
def Obligations.CheckPriority : Prop :=
  (∀ (w : Word) (e : DecodeError) (s : State), decode w = .error e →
    runWord w s = .next { s with lastError := some .illegalCommand, busy := false }) ∧
  (∀ (t : Byte) (s : State),
    exec (.rowUnfilt t 0) s = .next { s with lastError := some .illegalCommand, busy := false }) ∧
  (∀ (t bpp : Byte) (s : State), bpp ≠ 0 → 4 < t.toNat →
    exec (.rowUnfilt t bpp) s = .next { s with lastError := some .invalidFilterType, busy := false }) ∧
  (∀ (t bpp : Byte) (s : State), bpp ≠ 0 → t.toNat ≤ 4 → s.params.rowMax < s.arg0.toNat →
    exec (.rowUnfilt t bpp) s = .next { s with lastError := some .rangeError, busy := false }) ∧
  (∀ (t : Byte) (s : State), 4 < t.toNat →
    exec (.unfilt t) s = .next { s with lastError := some .invalidFilterType, busy := false }) ∧
  (∀ s : State, s.params.ibufSize < s.inLen.toNat →
    exec .crcBuf s = .next { s with lastError := some .rangeError, busy := false } ∧
    exec .parseNext s = .next { s with lastError := some .rangeError, busy := false }) ∧
  (∀ s : State, s.inLen.toNat ≤ s.params.ibufSize → s.inLen.toNat < s.arg0.toNat + s.arg1.toNat →
    exec .crcBuf s = .next { s with lastError := some .rangeError, busy := false }) ∧
  (∀ (s : State) (e : ParseError), s.inLen.toNat ≤ s.params.ibufSize → s.pstate = .error e →
    exec .parseNext s = .next { s with lastError := some (errorOf e), busy := false }) ∧
  (∀ s t : State, (∀ e, s.pstate ≠ .error e) → exec .parseNext s = .next t → t.lastError = some .magicMismatch →
    s.pstate = .idle) ∧
  (∀ (s : State) (l0 l1 l2 l3 t0 t1 t2 t3 : Byte), s.pstate = .scan → s.inLen.toNat ≤ s.params.ibufSize →
    s.parsePos.toNat + 8 ≤ s.inLen.toNat → holdsBytes s.ibuf s.parsePos.toNat [l0, l1, l2, l3, t0, t1, t2, t3] = true →
    s.inLen.toNat < s.parsePos.toNat + 12 + (wordBE l0 l1 l2 l3).toNat →
    ∃ u, exec .parseNext s = .next u ∧ u.lastError = some .truncatedChunk) ∧
  (∀ (s : State) (len tag : Word) (payload : List Byte) (stored : Word), s.pstate = .scan →
    ChunkAtPos s len tag payload stored → chunkCrc tag payload ≠ stored →
    ∃ u, exec .parseNext s = .next u ∧ u.lastError = some .crcMismatch)

/-- R155, R156, R160, R193: the frame over all buffers. A command other than ROW_CLEAR and ROW_UNFILT leaves every byte of every
buffer; ROW_CLEAR stores only to PRIOR below ROW_MAX; ROW_UNFILT stores only to CUR and PRIOR below the row length ARG0,
and to nothing when it fails. -/
def Obligations.BufferFrame : Prop :=
  ∀ (i : Instr) (s t : State), exec i s = .next t → ∀ (b : BufId) (a : Nat),
    (match i with
      | .rowClear => b = .prior ∧ a < s.params.rowMax
      | .rowUnfilt _ _ => (b = .cur ∨ b = .prior) ∧ a < rowLength s ∧ t.lastError = none
      | .nop => False | .crcInit => False | .crcByte _ => False | .crcBuf => False | .crcFinal => False
      | .parseReset => False | .parseNext => False | .paeth _ _ _ => False | .unfilt _ => False) ∨
    bufRead (t.buf b) a = bufRead (s.buf b) a

/-- R36: RESULT holds what the last command that returns a value returned: the checksum of CRC_FINAL, the kind 0 to 4 of PARSE_NEXT, the
predictor of PAETH, the reconstructed byte of UNFILT; every other command, every error and every
host access leave it; a host read at its offset returns it and a host write there changes nothing; reset makes it 0. -/
def Obligations.ResultRegister : Prop :=
  (∀ (i : Instr) (s t : State), exec i s = .next t →
    (t.lastError ≠ none → t.result = s.result) ∧
    (t.lastError = none →
      match i with
      | .crcFinal => t.result = s.crcState ^^^ 0xFFFFFFFF
      | .parseNext => t.result.toNat ≤ 4 ∧ (t.result = 0 ∨ ∃ k, kindOf t.chType = some k ∧ t.result = kindCode k)
      | .paeth a b c => t.result.toNat = (paeth a b c).toNat
      | .unfilt tag => ∃ f, filterOfTag tag = some f ∧
          t.result.toNat = (recon f (unfiltFilt s) (unfiltA s) (unfiltB s) (unfiltC s)).toNat
      | .nop => t.result = s.result | .crcInit => t.result = s.result | .crcByte _ => t.result = s.result
      | .crcBuf => t.result = s.result | .parseReset => t.result = s.result
      | .rowClear => t.result = s.result | .rowUnfilt _ _ => t.result = s.result)) ∧
  (∀ (a : HostAccess) (s t : State), hostAccess a s = .next t → t.result = s.result) ∧
  (∀ (s : State) (v : Word), s.busy = false →
    hostAccess (.read32 0x10) s = .next { s with hostRead := some (.word s.result) } ∧
    hostAccess (.write32 0x10 v) s = .next s) ∧
  (∀ p : Params, (State.resetWith p).result = 0x00000000)

/-- R84, R196, R12: no command is refused, and the only stop is a read of an unwritten byte under `fault`, by one of the three commands
that read a buffer. Every other command, and every command under `any_value`, completes. -/
def Obligations.CommandsStopOnlyOnUnwrittenBytes : Prop :=
  ∀ (i : Instr) (s : State),
    (∃ t, exec i s = .next t) ∨
    (exec i s = .fault .unwrittenRead ∧ s.params.unwritten = .fault ∧
      (i = .crcBuf ∨ i = .parseNext ∨ ∃ t bpp, i = .rowUnfilt t bpp))

/-- R32, R45, R121, R160, R229: the frame over all commands. No command writes CMD, ARG0, ARG1, IN_LEN or a byte of IBUF (nor the
model's schedule, host data or parameters). The CRC commands leave the parser's and the defilter's state, the parser commands
the CRC's and the defilter's, the defilter commands the CRC's and the parser's. -/
def Obligations.CommandsKeepTheRest : Prop :=
  ∀ (i : Instr) (s t : State), exec i s = .next t →
    (t.cmd = s.cmd ∧ t.arg0 = s.arg0 ∧ t.arg1 = s.arg1 ∧ t.inLen = s.inLen ∧
      (∀ a, bufRead t.ibuf a = bufRead s.ibuf a) ∧
      t.schedule = s.schedule ∧ t.hostRead = s.hostRead ∧ t.params = s.params) ∧
    (i.opcode ∈ [Opcode.nop, .crcInit, .crcByte, .crcBuf, .crcFinal, .paeth, .unfilt, .rowClear, .rowUnfilt] →
      t.pstate = s.pstate ∧ t.parsePos = s.parsePos ∧ t.chType = s.chType ∧ t.chLen = s.chLen ∧ t.chData = s.chData ∧
      t.chCrc = s.chCrc ∧ t.chCalc = s.chCalc) ∧
    (i.opcode ∈ [Opcode.nop, .crcFinal, .parseReset, .parseNext, .paeth, .unfilt, .rowClear, .rowUnfilt] →
      t.crcState = s.crcState) ∧
    (i.opcode ∈ [Opcode.nop, .crcInit, .crcByte, .crcBuf, .crcFinal, .parseReset, .parseNext, .paeth, .unfilt] →
      t.cur = s.cur ∧ t.prior = s.prior)

/-- R229, R230: what a unit computes is a function of its own state and operands alone. Two states that agree on these give the
same new unit state, the same RESULT where the command returns a value, and the same ERR and ERRCODE. The parameters and the model's
draw count (log 2) must agree too, since the byte a draw gives depends on the count. Runs that stop on an unwritten byte are left
out: both runs are assumed to answer. -/
def Obligations.UnitResultsDependOnOwnState : Prop :=
  (∀ (i : Instr) (s s' t t' : State), i.opcode ∈ [Opcode.crcInit, .crcByte, .crcBuf, .crcFinal] →
    s.crcState = s'.crcState → s.arg0 = s'.arg0 → s.arg1 = s'.arg1 → s.inLen = s'.inLen → s.ibuf = s'.ibuf →
    s.params = s'.params → s.draws = s'.draws → exec i s = .next t → exec i s' = .next t' →
    t.crcState = t'.crcState ∧ t.lastError = t'.lastError ∧ (i = .crcFinal → t.result = t'.result)) ∧
  (∀ (i : Instr) (s s' t t' : State), i.opcode ∈ [Opcode.parseReset, .parseNext] →
    s.pstate = s'.pstate → s.parsePos = s'.parsePos → s.inLen = s'.inLen → s.ibuf = s'.ibuf → s.params = s'.params →
    s.draws = s'.draws → s.chType = s'.chType → s.chLen = s'.chLen → s.chData = s'.chData → s.chCrc = s'.chCrc →
    s.chCalc = s'.chCalc → exec i s = .next t → exec i s' = .next t' →
    t.pstate = t'.pstate ∧ t.parsePos = t'.parsePos ∧ t.chType = t'.chType ∧ t.chLen = t'.chLen ∧ t.chData = t'.chData ∧
    t.chCrc = t'.chCrc ∧ t.chCalc = t'.chCalc ∧ t.lastError = t'.lastError ∧
    (i = .parseNext → t.lastError = none → t.result = t'.result)) ∧
  (∀ (i : Instr) (s s' t t' : State), i.opcode ∈ [Opcode.paeth, .unfilt, .rowClear, .rowUnfilt] →
    s.arg0 = s'.arg0 → s.cur = s'.cur → s.prior = s'.prior → s.params = s'.params → s.draws = s'.draws →
    exec i s = .next t → exec i s' = .next t' →
    t.cur = t'.cur ∧ t.prior = t'.prior ∧ t.lastError = t'.lastError ∧
    (i.opcode ∈ [Opcode.paeth, .unfilt] → t.lastError = none → t.result = t'.result))

/-! ## Host interface -/

/-- R64: with BUSY = 0 and legal sizes, a host access stops as a bus error exactly when R64 calls it one. A stop has no next
state, so it changes none. -/
def Obligations.BusErrorsExactly : Prop :=
  ∀ (a : HostAccess) (s : State), s.params.legal → s.busy = false →
    (hostAccess a s = .fault .busError ↔ BusError s.params a) ∧
    (∀ t, hostAccess a s = .next t → ¬ BusError s.params a)

/-- R62, R63: the effect of every host access to a buffer. A 32-bit write at an aligned index stores its four bytes on little-endian
lanes, an 8-bit write at any index stores its byte; each changes no other byte of any buffer and nothing else of the state. A
32-bit read answers the four bytes on little-endian lanes, an 8-bit read the byte, and a read changes nothing but the data
returned. A read that meets an unwritten byte stops under `fault`; under `any_value` it answers with some byte there (the model's
free value and draw count, log 2; host reads by log 22). 0x474E5089 at IBUF offset 0 stores 89 50 4E 47. -/
def Obligations.HostLanesAreLittleEndian : Prop :=
  (∀ (b : BufId) (i : Nat) (v : Word) (s : State), s.params.legal → s.busy = false → i % 4 = 0 →
    i + 4 ≤ bufSize s.params b →
    ∃ t, hostAccess (.write32 (bufAddr b i) v) s = .next t ∧
      t = { s with ibuf := t.ibuf, cur := t.cur, prior := t.prior } ∧
      bufRead (t.buf b) i = some (v.extractLsb' 0 8) ∧ bufRead (t.buf b) (i + 1) = some (v.extractLsb' 8 8) ∧
      bufRead (t.buf b) (i + 2) = some (v.extractLsb' 16 8) ∧ bufRead (t.buf b) (i + 3) = some (v.extractLsb' 24 8) ∧
      (∀ a, a < i ∨ i + 4 ≤ a → bufRead (t.buf b) a = bufRead (s.buf b) a) ∧
      (∀ b', b' ≠ b → t.buf b' = s.buf b') ∧
      hostAccess (.read32 (bufAddr b i)) t = .next { t with hostRead := some (.word v) }) ∧
  (∀ (b : BufId) (i : Nat) (v : Byte) (s : State), s.params.legal → s.busy = false → i < bufSize s.params b →
    ∃ t, hostAccess (.write8 (bufAddr b i) v) s = .next t ∧
      t = { s with ibuf := t.ibuf, cur := t.cur, prior := t.prior } ∧
      bufRead (t.buf b) i = some v ∧ (∀ a, a ≠ i → bufRead (t.buf b) a = bufRead (s.buf b) a) ∧
      (∀ b', b' ≠ b → t.buf b' = s.buf b') ∧
      hostAccess (.read8 (bufAddr b i)) t = .next { t with hostRead := some (.byte v) }) ∧
  (∀ (b : BufId) (i : Nat) (s : State), s.params.legal → s.busy = false → i < bufSize s.params b →
    (∀ v, bufRead (s.buf b) i = some v →
      hostAccess (.read8 (bufAddr b i)) s = .next { s with hostRead := some (.byte v) }) ∧
    (bufRead (s.buf b) i = none → s.params.unwritten = .fault →
      hostAccess (.read8 (bufAddr b i)) s = .fault .unwrittenRead) ∧
    (bufRead (s.buf b) i = none → s.params.unwritten = .anyValue →
      ∃ v, hostAccess (.read8 (bufAddr b i)) s = .next { s with hostRead := some (.byte v), draws := s.draws + 1 })) ∧
  (∀ (b : BufId) (i : Nat) (s : State), s.params.legal → s.busy = false → i % 4 = 0 → i + 4 ≤ bufSize s.params b →
    (∀ b0 b1 b2 b3, holdsBytes (s.buf b) i [b0, b1, b2, b3] = true →
      hostAccess (.read32 (bufAddr b i)) s = .next { s with hostRead := some (.word (b3 ++ b2 ++ b1 ++ b0)) }) ∧
    (¬ written (s.buf b) i 4 → s.params.unwritten = .fault →
      hostAccess (.read32 (bufAddr b i)) s = .fault .unwrittenRead) ∧
    (s.params.unwritten = .anyValue → ∃ (v : Word) (k : Nat),
      hostAccess (.read32 (bufAddr b i)) s = .next { s with hostRead := some (.word v), draws := k } ∧
      ∀ j x, j < 4 → bufRead (s.buf b) (i + j) = some x → v.extractLsb' (8 * j) 8 = x)) ∧
  (∀ s t : State, s.params.legal → s.busy = false → hostAccess (.write32 0x80000000 0x474E5089) s = .next t →
    holdsBytes t.ibuf 0 [0x89, 0x50, 0x4E, 0x47] = true)

/-- R38: the register map. A 32-bit read at a register's offset returns the register; a write to a read-write register stores
the value (CMD also issues it), a write to a read-only one changes nothing; the reset column; 0x34 to 0xFC are bus
errors. -/
def Obligations.RegisterMap : Prop :=
  (∀ s : State, s.busy = false → ∀ row ∈
    [((0x00 : Word), statusWord s), (0x04, s.cmd), (0x08, s.arg0), (0x0C, s.arg1), (0x10, s.result), (0x14, s.crcState),
      (0x18, s.inLen), (0x1C, s.parsePos), (0x20, s.chType), (0x24, s.chLen), (0x28, s.chData), (0x2C, s.chCrc),
      (0x30, s.chCalc)],
    hostAccess (.read32 row.1) s = .next { s with hostRead := some (.word row.2) }) ∧
  (∀ (s : State) (v : Word), s.busy = false →
    hostAccess (.write32 0x04 v) s = .next { s with cmd := v, busy := true } ∧
    hostAccess (.write32 0x08 v) s = .next { s with arg0 := v } ∧
    hostAccess (.write32 0x0C v) s = .next { s with arg1 := v } ∧
    hostAccess (.write32 0x18 v) s = .next { s with inLen := v } ∧
    (∀ o ∈ ([0x00, 0x10, 0x14, 0x1C, 0x20, 0x24, 0x28, 0x2C, 0x30] : List Word),
      hostAccess (.write32 o v) s = .next s)) ∧
  (∀ p : Params, statusWord (State.resetWith p) = 0x00000000 ∧ (State.resetWith p).cmd = 0x00000000 ∧
    (State.resetWith p).arg0 = 0x00000000 ∧ (State.resetWith p).arg1 = 0x00000000 ∧
    (State.resetWith p).result = 0x00000000 ∧ (State.resetWith p).crcState = 0xFFFFFFFF ∧
    (State.resetWith p).inLen = 0x00000000 ∧ (State.resetWith p).parsePos = 0x00000000 ∧
    (State.resetWith p).chType = 0x00000000 ∧ (State.resetWith p).chLen = 0x00000000 ∧
    (State.resetWith p).chData = 0x00000000 ∧ (State.resetWith p).chCrc = 0x00000000 ∧
    (State.resetWith p).chCalc = 0x00000000) ∧
  (∀ (s : State) (o v : Word) (h : BitVec 16) (b : Byte), s.busy = false → 0x34 ≤ o.toNat → o.toNat ≤ 0xFC →
    ∀ a ∈ ([.read8 o, .read16 o, .read32 o, .write8 o b, .write16 o h, .write32 o v] : List HostAccess),
      hostAccess a s = .fault .busError)

/-- R34: a host write of CMD stores the word, sets BUSY and makes the word the pending command; a read returns the last word
written: no command writes CMD, and a step changes it only by such a write or a reset; reset makes it 0 and leaves no pending
command (the host's accesses are turns of the schedule, log 4). -/
def Obligations.CommandIssue : Prop :=
  (∀ (s : State) (w : Word), s.busy = false → ∃ t, hostAccess (.write32 0x04 w) s = .next t ∧
    t.cmd = w ∧ statusBusy t = 1 ∧ t.pending = some w ∧ t = { s with cmd := w, busy := true }) ∧
  (∀ s : State, s.busy = false → ∃ t, hostAccess (.read32 0x04) s = .next t ∧ t.hostRead = some (.word s.cmd)) ∧
  (∀ (i : Instr) (s t : State), exec i s = .next t → t.cmd = s.cmd) ∧
  (∀ s t : State, step s = .next t → t.cmd = s.cmd ∨ s.schedule.head? = some .reset ∨
    ∃ w, s.schedule.head? = some (.host (.write32 0x04 w)) ∧ t.cmd = w) ∧
  (∀ s : State, (takeReset s).cmd = 0x00000000 ∧ (takeReset s).pending = none)

/-- R225, R196: while BUSY = 1 every access but a read of STATUS is a host fault, and a read of STATUS is always allowed. That the fault
is `accessWhileBusy` also where the access is a bus error as well is the model's choice (log 12). The block's turn
ends with BUSY = 0, and only a host write of CMD makes BUSY 1 (the host's accesses are turns of the
schedule, log 4). -/
def Obligations.BusyRule : Prop :=
  (∀ (a : HostAccess) (s : State), s.busy = true → a ≠ .read32 0 → hostAccess a s = .fault .accessWhileBusy) ∧
  (∀ s : State, hostAccess (.read32 0) s = .next { s with hostRead := some (.word (statusWord s)) }) ∧
  (∀ s t : State, blockTurn s = .next t → t.busy = false) ∧
  (∀ s t : State, step s = .next t → s.busy = false → t.busy = true →
    ∃ w, s.schedule.head? = some (.host (.write32 0x04 w)))

/-- R67: a host read has no side effect: it changes only the data returned to the host and the model's draw count (log 2, log 7). -/
def Obligations.HostReadsHaveNoSideEffect : Prop :=
  ∀ (a : HostAccess) (s t : State), (∃ o, a = .read8 o ∨ a = .read16 o ∨ a = .read32 o) → hostAccess a s = .next t →
    t = { s with hostRead := t.hostRead, draws := t.draws }

/-- R220, R49: a reset, at any time, also while BUSY, gives every register its reset value, abandons the pending command with none of
its effects and makes every buffer byte unwritten. What the host still has to do, its last data, the draw count and the
parameters stay: the model's choice (log 11). -/
def Obligations.ResetRule : Prop :=
  (∀ (s : State) (rest : List Turn), s.schedule = .reset :: rest → ∃ t, step s = .next t ∧
    statusWord t = 0x00000000 ∧ t.cmd = 0x00000000 ∧ t.arg0 = 0x00000000 ∧ t.arg1 = 0x00000000 ∧
    t.result = 0x00000000 ∧ t.crcState = 0xFFFFFFFF ∧ t.inLen = 0x00000000 ∧ t.parsePos = 0x00000000 ∧
    t.chType = 0x00000000 ∧ t.chLen = 0x00000000 ∧ t.chData = 0x00000000 ∧ t.chCrc = 0x00000000 ∧
    t.chCalc = 0x00000000 ∧ t.pstate = .idle ∧ t.pending = none ∧ (∀ (b : BufId) (i : Nat), bufRead (t.buf b) i = none) ∧
    t.schedule = rest ∧ t.hostRead = s.hostRead ∧ t.draws = s.draws ∧ t.params = s.params)

/-- R49: the state after reset: STATUS, its fields, every register, no pending command, and every buffer byte unwritten. (The CRC table
is a constant of the model, not state: log 13.) -/
def Obligations.ResetState : Prop :=
  statusWord State.reset = 0x00000000 ∧ State.reset.busy = false ∧ State.reset.lastError = none ∧
  State.reset.pstate = .idle ∧ State.reset.cmd = 0x00000000 ∧ State.reset.arg0 = 0x00000000 ∧
  State.reset.arg1 = 0x00000000 ∧ State.reset.result = 0x00000000 ∧ State.reset.crcState = 0xFFFFFFFF ∧
  State.reset.inLen = 0x00000000 ∧ State.reset.parsePos = 0x00000000 ∧ State.reset.chType = 0x00000000 ∧
  State.reset.chLen = 0x00000000 ∧ State.reset.chData = 0x00000000 ∧ State.reset.chCrc = 0x00000000 ∧
  State.reset.chCalc = 0x00000000 ∧ State.reset.pending = none ∧
  (∀ (b : BufId) (i : Nat), bufRead (State.reset.buf b) i = none)

/-! ## Steps -/

/-- R10, R84: a step at the block's turn runs the pending command: a word that decodes runs as its command, at the state with the turn
taken off the schedule. That the turns are a list in the state, and that with nothing scheduled the pending command takes effect, is
the model's choice (log 4). `withFetchWord` makes the next step run its word (log 6). -/
def Obligations.StepRunsDecodedCommand : Prop :=
  (∀ (s : State) (i : Instr), s.busy = true → s.schedule.head? = none ∨ s.schedule.head? = some .block →
    decode s.cmd = .ok i → step s = exec i { s with schedule := s.schedule.tail }) ∧
  (∀ (s : State) (w : Nat) (i : Instr), w < 2 ^ 32 → decode (BitVec.ofNat 32 w) = .ok i →
    step (s.withFetchWord 32 w) = exec i { s with cmd := BitVec.ofNat 32 w, busy := true })

/-- R67, R206, R221: a step takes a scheduled host access as one access; the idle block waits and changes nothing (but the
schedule, the model's own field, log 4). -/
def Obligations.StepTakesHostTurnsAndWaits : Prop :=
  (∀ (s : State) (a : HostAccess) (rest : List Turn), s.schedule = .host a :: rest →
    step s = hostAccess a { s with schedule := rest }) ∧
  (∀ s : State, s.busy = false → s.schedule = [] → step s = .next s) ∧
  (∀ (s : State) (rest : List Turn), s.busy = false → s.schedule = .block :: rest →
    step s = .next { s with schedule := rest })

/-- R68, R88, R231: WAIT ends with the command done. However many STATUS reads see BUSY = 1: where the pending word's effect is the next
state `u`, the WAIT's steps end in `u` itself, with BUSY = 0, but for the turns taken off the schedule and the STATUS word of
`u`, its bit 0 clear, in the host's hands; where the command stops on an unwritten byte, the WAIT stops so too. The effect is a next state
whenever the bytes of the three buffers may be read (all written, or unwritten bytes read as any value), and always for a word that
reads no buffer. WAIT as polls, then the block's turn, then one more read, is the model's choice (logs 4, 5, 20). -/
def Obligations.WaitEnds : Prop :=
  (∀ (s u : State) (polls : Nat) (rest : List Turn), s.busy = true → s.schedule = waitTurns polls ++ rest →
    runWord s.cmd s = .next u →
    Host.Core.run Sys2Proof.core (polls + 2) s =
      .next { u with schedule := rest, hostRead := some (.word (statusWord u)) } ∧
    u.busy = false ∧ (statusWord u).extractLsb' 0 1 = 0) ∧
  (∀ (s : State) (f : Fault) (polls : Nat) (rest : List Turn), s.busy = true → s.schedule = waitTurns polls ++ rest →
    runWord s.cmd s = .fault f → Host.Core.run Sys2Proof.core (polls + 2) s = .fault f) ∧
  (∀ (s : State) (w : Word),
    (∀ b : BufId, readable s.params.unwritten (s.buf b) 0 (bufSize s.params b)) ∨
      (fieldOPC w ≠ 0x03 ∧ fieldOPC w ≠ 0x11 ∧ fieldOPC w ≠ 0x23) →
    ∃ u, runWord w s = .next u)

/-- The invariant of the block holds after reset, for every legal choice of the parameters, and for the one of `State.reset`. -/
def Obligations.ResetMeetsInvariant : Prop :=
  (∀ p : Params, p.legal → BlockOk (State.resetWith p)) ∧ BlockOk State.reset

/-- R41, R42, R45, R46, R134: every step keeps the invariant of the block: the parameters stay and stay legal, the buffers keep their
canonical form, PARSE_POS fits PSTATE and IBUF, and the CH_ registers are 0 or describe a recognized chunk inside the
consumed part of IBUF. -/
def Obligations.StepKeepsInvariant : Prop :=
  ∀ s t : State, BlockOk s → step s = .next t → BlockOk t ∧ t.params = s.params

/-- R196: a host that makes no bus error and reads only STATUS while BUSY meets no fault, where unwritten bytes read as any value: the
step gives a next state, and that state is safe again. -/
def Obligations.ObedientHostMeetsNoFault : Prop :=
  ∀ s : State, Safe s → ∃ t, step s = .next t ∧ Safe t
end

