-- ==== Sys2Proof/Laws/State.lean ====
section
/-! SUPPORT. One lemma per field per named update of State, true by rfl, so that no later proof unfolds an update. -/

namespace Sys2Proof.Machine

/-! ### succeed -/

@[simp] theorem succeed_busy (s : State) : (succeed s).busy = false := rfl
@[simp] theorem succeed_lastError (s : State) : (succeed s).lastError = none := rfl
@[simp] theorem succeed_pstate (s : State) : (succeed s).pstate = s.pstate := rfl
@[simp] theorem succeed_cmd (s : State) : (succeed s).cmd = s.cmd := rfl
@[simp] theorem succeed_arg0 (s : State) : (succeed s).arg0 = s.arg0 := rfl
@[simp] theorem succeed_arg1 (s : State) : (succeed s).arg1 = s.arg1 := rfl
@[simp] theorem succeed_result (s : State) : (succeed s).result = s.result := rfl
@[simp] theorem succeed_crcState (s : State) : (succeed s).crcState = s.crcState := rfl
@[simp] theorem succeed_inLen (s : State) : (succeed s).inLen = s.inLen := rfl
@[simp] theorem succeed_parsePos (s : State) : (succeed s).parsePos = s.parsePos := rfl
@[simp] theorem succeed_chType (s : State) : (succeed s).chType = s.chType := rfl
@[simp] theorem succeed_chLen (s : State) : (succeed s).chLen = s.chLen := rfl
@[simp] theorem succeed_chData (s : State) : (succeed s).chData = s.chData := rfl
@[simp] theorem succeed_chCrc (s : State) : (succeed s).chCrc = s.chCrc := rfl
@[simp] theorem succeed_chCalc (s : State) : (succeed s).chCalc = s.chCalc := rfl
@[simp] theorem succeed_ibuf (s : State) : (succeed s).ibuf = s.ibuf := rfl
@[simp] theorem succeed_cur (s : State) : (succeed s).cur = s.cur := rfl
@[simp] theorem succeed_prior (s : State) : (succeed s).prior = s.prior := rfl
@[simp] theorem succeed_schedule (s : State) : (succeed s).schedule = s.schedule := rfl
@[simp] theorem succeed_hostRead (s : State) : (succeed s).hostRead = s.hostRead := rfl
@[simp] theorem succeed_draws (s : State) : (succeed s).draws = s.draws := rfl
@[simp] theorem succeed_params (s : State) : (succeed s).params = s.params := rfl

/-! ### raiseError -/

@[simp] theorem raiseError_busy (e : ErrorCode) (s : State) : (raiseError e s).busy = false := rfl
@[simp] theorem raiseError_lastError (e : ErrorCode) (s : State) : (raiseError e s).lastError = some e := rfl
@[simp] theorem raiseError_pstate (e : ErrorCode) (s : State) : (raiseError e s).pstate = s.pstate := rfl
@[simp] theorem raiseError_cmd (e : ErrorCode) (s : State) : (raiseError e s).cmd = s.cmd := rfl
@[simp] theorem raiseError_arg0 (e : ErrorCode) (s : State) : (raiseError e s).arg0 = s.arg0 := rfl
@[simp] theorem raiseError_arg1 (e : ErrorCode) (s : State) : (raiseError e s).arg1 = s.arg1 := rfl
@[simp] theorem raiseError_result (e : ErrorCode) (s : State) : (raiseError e s).result = s.result := rfl
@[simp] theorem raiseError_crcState (e : ErrorCode) (s : State) : (raiseError e s).crcState = s.crcState := rfl
@[simp] theorem raiseError_inLen (e : ErrorCode) (s : State) : (raiseError e s).inLen = s.inLen := rfl
@[simp] theorem raiseError_parsePos (e : ErrorCode) (s : State) : (raiseError e s).parsePos = s.parsePos := rfl
@[simp] theorem raiseError_chType (e : ErrorCode) (s : State) : (raiseError e s).chType = s.chType := rfl
@[simp] theorem raiseError_chLen (e : ErrorCode) (s : State) : (raiseError e s).chLen = s.chLen := rfl
@[simp] theorem raiseError_chData (e : ErrorCode) (s : State) : (raiseError e s).chData = s.chData := rfl
@[simp] theorem raiseError_chCrc (e : ErrorCode) (s : State) : (raiseError e s).chCrc = s.chCrc := rfl
@[simp] theorem raiseError_chCalc (e : ErrorCode) (s : State) : (raiseError e s).chCalc = s.chCalc := rfl
@[simp] theorem raiseError_ibuf (e : ErrorCode) (s : State) : (raiseError e s).ibuf = s.ibuf := rfl
@[simp] theorem raiseError_cur (e : ErrorCode) (s : State) : (raiseError e s).cur = s.cur := rfl
@[simp] theorem raiseError_prior (e : ErrorCode) (s : State) : (raiseError e s).prior = s.prior := rfl
@[simp] theorem raiseError_schedule (e : ErrorCode) (s : State) : (raiseError e s).schedule = s.schedule := rfl
@[simp] theorem raiseError_hostRead (e : ErrorCode) (s : State) : (raiseError e s).hostRead = s.hostRead := rfl
@[simp] theorem raiseError_draws (e : ErrorCode) (s : State) : (raiseError e s).draws = s.draws := rfl
@[simp] theorem raiseError_params (e : ErrorCode) (s : State) : (raiseError e s).params = s.params := rfl

/-! ### issueCommand -/

@[simp] theorem issueCommand_busy (w : Word) (s : State) : (issueCommand w s).busy = true := rfl
@[simp] theorem issueCommand_lastError (w : Word) (s : State) : (issueCommand w s).lastError = s.lastError := rfl
@[simp] theorem issueCommand_pstate (w : Word) (s : State) : (issueCommand w s).pstate = s.pstate := rfl
@[simp] theorem issueCommand_cmd (w : Word) (s : State) : (issueCommand w s).cmd = w := rfl
@[simp] theorem issueCommand_arg0 (w : Word) (s : State) : (issueCommand w s).arg0 = s.arg0 := rfl
@[simp] theorem issueCommand_arg1 (w : Word) (s : State) : (issueCommand w s).arg1 = s.arg1 := rfl
@[simp] theorem issueCommand_result (w : Word) (s : State) : (issueCommand w s).result = s.result := rfl
@[simp] theorem issueCommand_crcState (w : Word) (s : State) : (issueCommand w s).crcState = s.crcState := rfl
@[simp] theorem issueCommand_inLen (w : Word) (s : State) : (issueCommand w s).inLen = s.inLen := rfl
@[simp] theorem issueCommand_parsePos (w : Word) (s : State) : (issueCommand w s).parsePos = s.parsePos := rfl
@[simp] theorem issueCommand_chType (w : Word) (s : State) : (issueCommand w s).chType = s.chType := rfl
@[simp] theorem issueCommand_chLen (w : Word) (s : State) : (issueCommand w s).chLen = s.chLen := rfl
@[simp] theorem issueCommand_chData (w : Word) (s : State) : (issueCommand w s).chData = s.chData := rfl
@[simp] theorem issueCommand_chCrc (w : Word) (s : State) : (issueCommand w s).chCrc = s.chCrc := rfl
@[simp] theorem issueCommand_chCalc (w : Word) (s : State) : (issueCommand w s).chCalc = s.chCalc := rfl
@[simp] theorem issueCommand_ibuf (w : Word) (s : State) : (issueCommand w s).ibuf = s.ibuf := rfl
@[simp] theorem issueCommand_cur (w : Word) (s : State) : (issueCommand w s).cur = s.cur := rfl
@[simp] theorem issueCommand_prior (w : Word) (s : State) : (issueCommand w s).prior = s.prior := rfl
@[simp] theorem issueCommand_schedule (w : Word) (s : State) : (issueCommand w s).schedule = s.schedule := rfl
@[simp] theorem issueCommand_hostRead (w : Word) (s : State) : (issueCommand w s).hostRead = s.hostRead := rfl
@[simp] theorem issueCommand_draws (w : Word) (s : State) : (issueCommand w s).draws = s.draws := rfl
@[simp] theorem issueCommand_params (w : Word) (s : State) : (issueCommand w s).params = s.params := rfl

/-! ### failParse -/

@[simp] theorem failParse_busy (e : ParseError) (s : State) : (failParse e s).busy = false := rfl
@[simp] theorem failParse_lastError (e : ParseError) (s : State) : (failParse e s).lastError = some (errorOf e) := rfl
@[simp] theorem failParse_pstate (e : ParseError) (s : State) : (failParse e s).pstate = .error e := rfl
@[simp] theorem failParse_cmd (e : ParseError) (s : State) : (failParse e s).cmd = s.cmd := rfl
@[simp] theorem failParse_arg0 (e : ParseError) (s : State) : (failParse e s).arg0 = s.arg0 := rfl
@[simp] theorem failParse_arg1 (e : ParseError) (s : State) : (failParse e s).arg1 = s.arg1 := rfl
@[simp] theorem failParse_result (e : ParseError) (s : State) : (failParse e s).result = s.result := rfl
@[simp] theorem failParse_crcState (e : ParseError) (s : State) : (failParse e s).crcState = s.crcState := rfl
@[simp] theorem failParse_inLen (e : ParseError) (s : State) : (failParse e s).inLen = s.inLen := rfl
@[simp] theorem failParse_parsePos (e : ParseError) (s : State) : (failParse e s).parsePos = s.parsePos := rfl
@[simp] theorem failParse_chType (e : ParseError) (s : State) : (failParse e s).chType = s.chType := rfl
@[simp] theorem failParse_chLen (e : ParseError) (s : State) : (failParse e s).chLen = s.chLen := rfl
@[simp] theorem failParse_chData (e : ParseError) (s : State) : (failParse e s).chData = s.chData := rfl
@[simp] theorem failParse_chCrc (e : ParseError) (s : State) : (failParse e s).chCrc = s.chCrc := rfl
@[simp] theorem failParse_chCalc (e : ParseError) (s : State) : (failParse e s).chCalc = s.chCalc := rfl
@[simp] theorem failParse_ibuf (e : ParseError) (s : State) : (failParse e s).ibuf = s.ibuf := rfl
@[simp] theorem failParse_cur (e : ParseError) (s : State) : (failParse e s).cur = s.cur := rfl
@[simp] theorem failParse_prior (e : ParseError) (s : State) : (failParse e s).prior = s.prior := rfl
@[simp] theorem failParse_schedule (e : ParseError) (s : State) : (failParse e s).schedule = s.schedule := rfl
@[simp] theorem failParse_hostRead (e : ParseError) (s : State) : (failParse e s).hostRead = s.hostRead := rfl
@[simp] theorem failParse_draws (e : ParseError) (s : State) : (failParse e s).draws = s.draws := rfl
@[simp] theorem failParse_params (e : ParseError) (s : State) : (failParse e s).params = s.params := rfl

/-! ### endOfWalk -/

@[simp] theorem endOfWalk_busy (s : State) : (endOfWalk s).busy = false := rfl
@[simp] theorem endOfWalk_lastError (s : State) : (endOfWalk s).lastError = none := rfl
@[simp] theorem endOfWalk_pstate (s : State) : (endOfWalk s).pstate = s.pstate := rfl
@[simp] theorem endOfWalk_cmd (s : State) : (endOfWalk s).cmd = s.cmd := rfl
@[simp] theorem endOfWalk_arg0 (s : State) : (endOfWalk s).arg0 = s.arg0 := rfl
@[simp] theorem endOfWalk_arg1 (s : State) : (endOfWalk s).arg1 = s.arg1 := rfl
@[simp] theorem endOfWalk_result (s : State) : (endOfWalk s).result = 0 := rfl
@[simp] theorem endOfWalk_crcState (s : State) : (endOfWalk s).crcState = s.crcState := rfl
@[simp] theorem endOfWalk_inLen (s : State) : (endOfWalk s).inLen = s.inLen := rfl
@[simp] theorem endOfWalk_parsePos (s : State) : (endOfWalk s).parsePos = s.parsePos := rfl
@[simp] theorem endOfWalk_chType (s : State) : (endOfWalk s).chType = s.chType := rfl
@[simp] theorem endOfWalk_chLen (s : State) : (endOfWalk s).chLen = s.chLen := rfl
@[simp] theorem endOfWalk_chData (s : State) : (endOfWalk s).chData = s.chData := rfl
@[simp] theorem endOfWalk_chCrc (s : State) : (endOfWalk s).chCrc = s.chCrc := rfl
@[simp] theorem endOfWalk_chCalc (s : State) : (endOfWalk s).chCalc = s.chCalc := rfl
@[simp] theorem endOfWalk_ibuf (s : State) : (endOfWalk s).ibuf = s.ibuf := rfl
@[simp] theorem endOfWalk_cur (s : State) : (endOfWalk s).cur = s.cur := rfl
@[simp] theorem endOfWalk_prior (s : State) : (endOfWalk s).prior = s.prior := rfl
@[simp] theorem endOfWalk_schedule (s : State) : (endOfWalk s).schedule = s.schedule := rfl
@[simp] theorem endOfWalk_hostRead (s : State) : (endOfWalk s).hostRead = s.hostRead := rfl
@[simp] theorem endOfWalk_draws (s : State) : (endOfWalk s).draws = s.draws := rfl
@[simp] theorem endOfWalk_params (s : State) : (endOfWalk s).params = s.params := rfl

/-! ### endOfBuffer -/

@[simp] theorem endOfBuffer_busy (s : State) : (endOfBuffer s).busy = false := rfl
@[simp] theorem endOfBuffer_lastError (s : State) : (endOfBuffer s).lastError = none := rfl
@[simp] theorem endOfBuffer_pstate (s : State) : (endOfBuffer s).pstate = .doneEob := rfl
@[simp] theorem endOfBuffer_cmd (s : State) : (endOfBuffer s).cmd = s.cmd := rfl
@[simp] theorem endOfBuffer_arg0 (s : State) : (endOfBuffer s).arg0 = s.arg0 := rfl
@[simp] theorem endOfBuffer_arg1 (s : State) : (endOfBuffer s).arg1 = s.arg1 := rfl
@[simp] theorem endOfBuffer_result (s : State) : (endOfBuffer s).result = 0 := rfl
@[simp] theorem endOfBuffer_crcState (s : State) : (endOfBuffer s).crcState = s.crcState := rfl
@[simp] theorem endOfBuffer_inLen (s : State) : (endOfBuffer s).inLen = s.inLen := rfl
@[simp] theorem endOfBuffer_parsePos (s : State) : (endOfBuffer s).parsePos = s.parsePos := rfl
@[simp] theorem endOfBuffer_chType (s : State) : (endOfBuffer s).chType = s.chType := rfl
@[simp] theorem endOfBuffer_chLen (s : State) : (endOfBuffer s).chLen = s.chLen := rfl
@[simp] theorem endOfBuffer_chData (s : State) : (endOfBuffer s).chData = s.chData := rfl
@[simp] theorem endOfBuffer_chCrc (s : State) : (endOfBuffer s).chCrc = s.chCrc := rfl
@[simp] theorem endOfBuffer_chCalc (s : State) : (endOfBuffer s).chCalc = s.chCalc := rfl
@[simp] theorem endOfBuffer_ibuf (s : State) : (endOfBuffer s).ibuf = s.ibuf := rfl
@[simp] theorem endOfBuffer_cur (s : State) : (endOfBuffer s).cur = s.cur := rfl
@[simp] theorem endOfBuffer_prior (s : State) : (endOfBuffer s).prior = s.prior := rfl
@[simp] theorem endOfBuffer_schedule (s : State) : (endOfBuffer s).schedule = s.schedule := rfl
@[simp] theorem endOfBuffer_hostRead (s : State) : (endOfBuffer s).hostRead = s.hostRead := rfl
@[simp] theorem endOfBuffer_draws (s : State) : (endOfBuffer s).draws = s.draws := rfl
@[simp] theorem endOfBuffer_params (s : State) : (endOfBuffer s).params = s.params := rfl

/-! ### returnChunk -/

@[simp] theorem returnChunk_busy (k : ChunkKind) (tag len data stored : Word) (s : State) : (returnChunk k tag len data stored s).busy = false := rfl
@[simp] theorem returnChunk_lastError (k : ChunkKind) (tag len data stored : Word) (s : State) : (returnChunk k tag len data stored s).lastError = none := rfl
@[simp] theorem returnChunk_pstate (k : ChunkKind) (tag len data stored : Word) (s : State) : (returnChunk k tag len data stored s).pstate = if k = .iend then .doneIend else s.pstate := rfl
@[simp] theorem returnChunk_cmd (k : ChunkKind) (tag len data stored : Word) (s : State) : (returnChunk k tag len data stored s).cmd = s.cmd := rfl
@[simp] theorem returnChunk_arg0 (k : ChunkKind) (tag len data stored : Word) (s : State) : (returnChunk k tag len data stored s).arg0 = s.arg0 := rfl
@[simp] theorem returnChunk_arg1 (k : ChunkKind) (tag len data stored : Word) (s : State) : (returnChunk k tag len data stored s).arg1 = s.arg1 := rfl
@[simp] theorem returnChunk_result (k : ChunkKind) (tag len data stored : Word) (s : State) : (returnChunk k tag len data stored s).result = kindCode k := rfl
@[simp] theorem returnChunk_crcState (k : ChunkKind) (tag len data stored : Word) (s : State) : (returnChunk k tag len data stored s).crcState = s.crcState := rfl
@[simp] theorem returnChunk_inLen (k : ChunkKind) (tag len data stored : Word) (s : State) : (returnChunk k tag len data stored s).inLen = s.inLen := rfl
@[simp] theorem returnChunk_parsePos (k : ChunkKind) (tag len data stored : Word) (s : State) : (returnChunk k tag len data stored s).parsePos = s.parsePos := rfl
@[simp] theorem returnChunk_chType (k : ChunkKind) (tag len data stored : Word) (s : State) : (returnChunk k tag len data stored s).chType = tag := rfl
@[simp] theorem returnChunk_chLen (k : ChunkKind) (tag len data stored : Word) (s : State) : (returnChunk k tag len data stored s).chLen = len := rfl
@[simp] theorem returnChunk_chData (k : ChunkKind) (tag len data stored : Word) (s : State) : (returnChunk k tag len data stored s).chData = data := rfl
@[simp] theorem returnChunk_chCrc (k : ChunkKind) (tag len data stored : Word) (s : State) : (returnChunk k tag len data stored s).chCrc = stored := rfl
@[simp] theorem returnChunk_chCalc (k : ChunkKind) (tag len data stored : Word) (s : State) : (returnChunk k tag len data stored s).chCalc = s.chCalc := rfl
@[simp] theorem returnChunk_ibuf (k : ChunkKind) (tag len data stored : Word) (s : State) : (returnChunk k tag len data stored s).ibuf = s.ibuf := rfl
@[simp] theorem returnChunk_cur (k : ChunkKind) (tag len data stored : Word) (s : State) : (returnChunk k tag len data stored s).cur = s.cur := rfl
@[simp] theorem returnChunk_prior (k : ChunkKind) (tag len data stored : Word) (s : State) : (returnChunk k tag len data stored s).prior = s.prior := rfl
@[simp] theorem returnChunk_schedule (k : ChunkKind) (tag len data stored : Word) (s : State) : (returnChunk k tag len data stored s).schedule = s.schedule := rfl
@[simp] theorem returnChunk_hostRead (k : ChunkKind) (tag len data stored : Word) (s : State) : (returnChunk k tag len data stored s).hostRead = s.hostRead := rfl
@[simp] theorem returnChunk_draws (k : ChunkKind) (tag len data stored : Word) (s : State) : (returnChunk k tag len data stored s).draws = s.draws := rfl
@[simp] theorem returnChunk_params (k : ChunkKind) (tag len data stored : Word) (s : State) : (returnChunk k tag len data stored s).params = s.params := rfl

/-! ### takeReset -/

@[simp] theorem takeReset_busy (s : State) : (takeReset s).busy = false := rfl
@[simp] theorem takeReset_lastError (s : State) : (takeReset s).lastError = none := rfl
@[simp] theorem takeReset_pstate (s : State) : (takeReset s).pstate = .idle := rfl
@[simp] theorem takeReset_cmd (s : State) : (takeReset s).cmd = 0 := rfl
@[simp] theorem takeReset_arg0 (s : State) : (takeReset s).arg0 = 0 := rfl
@[simp] theorem takeReset_arg1 (s : State) : (takeReset s).arg1 = 0 := rfl
@[simp] theorem takeReset_result (s : State) : (takeReset s).result = 0 := rfl
@[simp] theorem takeReset_crcState (s : State) : (takeReset s).crcState = 0xFFFFFFFF := rfl
@[simp] theorem takeReset_inLen (s : State) : (takeReset s).inLen = 0 := rfl
@[simp] theorem takeReset_parsePos (s : State) : (takeReset s).parsePos = 0 := rfl
@[simp] theorem takeReset_chType (s : State) : (takeReset s).chType = 0 := rfl
@[simp] theorem takeReset_chLen (s : State) : (takeReset s).chLen = 0 := rfl
@[simp] theorem takeReset_chData (s : State) : (takeReset s).chData = 0 := rfl
@[simp] theorem takeReset_chCrc (s : State) : (takeReset s).chCrc = 0 := rfl
@[simp] theorem takeReset_chCalc (s : State) : (takeReset s).chCalc = 0 := rfl
@[simp] theorem takeReset_ibuf (s : State) : (takeReset s).ibuf = [] := rfl
@[simp] theorem takeReset_cur (s : State) : (takeReset s).cur = [] := rfl
@[simp] theorem takeReset_prior (s : State) : (takeReset s).prior = [] := rfl
@[simp] theorem takeReset_schedule (s : State) : (takeReset s).schedule = s.schedule := rfl
@[simp] theorem takeReset_hostRead (s : State) : (takeReset s).hostRead = s.hostRead := rfl
@[simp] theorem takeReset_draws (s : State) : (takeReset s).draws = s.draws := rfl
@[simp] theorem takeReset_params (s : State) : (takeReset s).params = s.params := rfl

/-! ### setBuf -/

@[simp] theorem setBuf_busy (s : State) (b : BufId) (m : Buffer) : (s.setBuf b m).busy = s.busy := by
  cases b <;> rfl
@[simp] theorem setBuf_lastError (s : State) (b : BufId) (m : Buffer) : (s.setBuf b m).lastError = s.lastError := by
  cases b <;> rfl
@[simp] theorem setBuf_pstate (s : State) (b : BufId) (m : Buffer) : (s.setBuf b m).pstate = s.pstate := by
  cases b <;> rfl
@[simp] theorem setBuf_cmd (s : State) (b : BufId) (m : Buffer) : (s.setBuf b m).cmd = s.cmd := by
  cases b <;> rfl
@[simp] theorem setBuf_arg0 (s : State) (b : BufId) (m : Buffer) : (s.setBuf b m).arg0 = s.arg0 := by
  cases b <;> rfl
@[simp] theorem setBuf_arg1 (s : State) (b : BufId) (m : Buffer) : (s.setBuf b m).arg1 = s.arg1 := by
  cases b <;> rfl
@[simp] theorem setBuf_result (s : State) (b : BufId) (m : Buffer) : (s.setBuf b m).result = s.result := by
  cases b <;> rfl
@[simp] theorem setBuf_crcState (s : State) (b : BufId) (m : Buffer) : (s.setBuf b m).crcState = s.crcState := by
  cases b <;> rfl
@[simp] theorem setBuf_inLen (s : State) (b : BufId) (m : Buffer) : (s.setBuf b m).inLen = s.inLen := by
  cases b <;> rfl
@[simp] theorem setBuf_parsePos (s : State) (b : BufId) (m : Buffer) : (s.setBuf b m).parsePos = s.parsePos := by
  cases b <;> rfl
@[simp] theorem setBuf_chType (s : State) (b : BufId) (m : Buffer) : (s.setBuf b m).chType = s.chType := by
  cases b <;> rfl
@[simp] theorem setBuf_chLen (s : State) (b : BufId) (m : Buffer) : (s.setBuf b m).chLen = s.chLen := by
  cases b <;> rfl
@[simp] theorem setBuf_chData (s : State) (b : BufId) (m : Buffer) : (s.setBuf b m).chData = s.chData := by
  cases b <;> rfl
@[simp] theorem setBuf_chCrc (s : State) (b : BufId) (m : Buffer) : (s.setBuf b m).chCrc = s.chCrc := by
  cases b <;> rfl
@[simp] theorem setBuf_chCalc (s : State) (b : BufId) (m : Buffer) : (s.setBuf b m).chCalc = s.chCalc := by
  cases b <;> rfl
@[simp] theorem setBuf_schedule (s : State) (b : BufId) (m : Buffer) : (s.setBuf b m).schedule = s.schedule := by
  cases b <;> rfl
@[simp] theorem setBuf_hostRead (s : State) (b : BufId) (m : Buffer) : (s.setBuf b m).hostRead = s.hostRead := by
  cases b <;> rfl
@[simp] theorem setBuf_draws (s : State) (b : BufId) (m : Buffer) : (s.setBuf b m).draws = s.draws := by
  cases b <;> rfl
@[simp] theorem setBuf_params (s : State) (b : BufId) (m : Buffer) : (s.setBuf b m).params = s.params := by
  cases b <;> rfl

@[simp] theorem buf_setBuf_self (s : State) (b : BufId) (m : Buffer) : (s.setBuf b m).buf b = m := by
  cases b <;> rfl

theorem buf_setBuf_other (s : State) {b c : BufId} (m : Buffer) (h : c ≠ b) : (s.setBuf b m).buf c = s.buf c := by
  cases b <;> cases c <;> first | rfl | exact absurd rfl h

@[simp] theorem setBuf_ibuf (s : State) (m : Buffer) : s.setBuf .ibuf m = { s with ibuf := m } := rfl
@[simp] theorem setBuf_cur (s : State) (m : Buffer) : s.setBuf .cur m = { s with cur := m } := rfl
@[simp] theorem setBuf_prior (s : State) (m : Buffer) : s.setBuf .prior m = { s with prior := m } := rfl
@[simp] theorem buf_ibuf (s : State) : s.buf .ibuf = s.ibuf := rfl
@[simp] theorem buf_cur (s : State) : s.buf .cur = s.cur := rfl
@[simp] theorem buf_prior (s : State) : s.buf .prior = s.prior := rfl

theorem pending_of_busy {s : State} (h : s.busy = true) : s.pending = some s.cmd := by simp [State.pending, h]
theorem pending_of_idle {s : State} (h : s.busy = false) : s.pending = none := by simp [State.pending, h]

end Sys2Proof.Machine
end

