-- ==== Sys2Proof/Laws/Memory.lean ====
section
/-! SUPPORT. The buffers: a read after a write, and that every operation keeps the canonical form. -/

namespace Sys2Proof.Machine

/-! ### Read after write -/

theorem bufRead_bufWrite (m : Buffer) (i j : Nat) (v : Byte) :
    bufRead (bufWrite m i v) j = if i = j then some v else bufRead m j := by
  induction m with
  | nil => simp [bufWrite, bufRead]
  | cons c rest ih =>
    obtain ⟨k, w⟩ := c
    simp only [bufWrite]
    split
    · simp [bufRead]
    · split
      · rename_i h; subst h
        by_cases hij : i = j <;> simp [bufRead, hij]
      · rename_i h1 h2
        by_cases hkj : k = j
        · subst hkj; simp [bufRead, h2]
        · simp [bufRead, hkj, ih]

@[simp] theorem bufRead_bufWrite_self (m : Buffer) (i : Nat) (v : Byte) : bufRead (bufWrite m i v) i = some v := by
  simp [bufRead_bufWrite]

theorem bufRead_bufWrite_other (m : Buffer) {i j : Nat} (v : Byte) (h : i ≠ j) :
    bufRead (bufWrite m i v) j = bufRead m j := by
  simp [bufRead_bufWrite, h]

/-- What writing a list of bytes leaves at each index. -/
theorem bufRead_writeBytes (bs : List Byte) (m : Buffer) (i j : Nat) :
    bufRead (writeBytes m i bs) j =
      if h : i ≤ j ∧ j - i < bs.length then some bs[j - i] else bufRead m j := by
  induction bs generalizing m i with
  | nil => simp [writeBytes]
  | cons v vs ih =>
    simp only [writeBytes, ih, bufRead_bufWrite, List.length_cons]
    by_cases hij : i = j
    · subst hij; simp
    · by_cases hlt : i + 1 ≤ j ∧ j - (i + 1) < vs.length
      · have h2 : i ≤ j ∧ j - i < vs.length + 1 := by omega
        have h3 : j - i = (j - (i + 1)) + 1 := by omega
        rw [dif_pos hlt, dif_pos h2]
        simp [h3]
      · have h2 : ¬ (i ≤ j ∧ j - i < vs.length + 1) := by omega
        rw [dif_neg hlt, dif_neg h2, if_neg hij]

/-- The bytes of a filled buffer: zero below `n`, as before from `n` on. -/
theorem bufRead_append (m m' : Buffer) (j : Nat) :
    bufRead (m ++ m') j = match bufRead m j with | some v => some v | none => bufRead m' j := by
  induction m with
  | nil => rfl
  | cons c rest ih =>
    obtain ⟨k, w⟩ := c
    by_cases h : k = j <;> simp [bufRead, h, ih]

theorem bufRead_filter (p : Nat → Bool) (m : Buffer) (j : Nat) :
    bufRead (m.filter (fun c => p c.1)) j = if p j then bufRead m j else none := by
  induction m with
  | nil => simp [bufRead]
  | cons c rest ih =>
    obtain ⟨k, w⟩ := c
    by_cases hk : p k = true
    · by_cases h : k = j
      · subst h; simp [bufRead, hk]
      · simp [bufRead, hk, h, ih]
    · by_cases h : k = j
      · subst h; simp [hk, ih]
      · simp [bufRead, hk, h, ih]

theorem bufRead_zeros (l : List Nat) (j : Nat) :
    bufRead (l.map (fun i => (i, (0 : Byte)))) j = if j ∈ l then some 0 else none := by
  induction l with
  | nil => simp [bufRead]
  | cons k rest ih =>
    by_cases h : k = j
    · subst h; simp [bufRead]
    · have h' : j ≠ k := fun e => h e.symm
      simpa [bufRead, h, h'] using ih

theorem bufRead_fillZero (n : Nat) (m : Buffer) (j : Nat) :
    bufRead (fillZero n m) j = if j < n then some 0 else bufRead m j := by
  unfold fillZero
  rw [bufRead_append, bufRead_zeros, bufRead_filter (fun i => decide (n ≤ i))]
  by_cases h : j < n
  · simp [h]
  · simp [h, Nat.le_of_not_lt h]

/-! ### The canonical form -/

theorem mem_bufWrite {m : Buffer} {i : Nat} {v : Byte} {c : Host.Cell} (h : c ∈ bufWrite m i v) :
    c = (i, v) ∨ c ∈ m := by
  induction m with
  | nil => simpa [bufWrite] using h
  | cons d rest ih =>
    obtain ⟨k, w⟩ := d
    simp only [bufWrite] at h
    split at h
    · simpa using h
    · split at h
      · rcases List.mem_cons.1 h with h | h
        · exact .inl h
        · exact .inr (List.mem_cons_of_mem _ h)
      · rcases List.mem_cons.1 h with h | h
        · exact .inr (h ▸ List.mem_cons_self)
        · exact (ih h).imp id (List.mem_cons_of_mem _)

/-- Writing inside the buffer keeps its canonical form. -/
theorem bufWf_bufWrite {size : Nat} {m : Buffer} {i : Nat} (v : Byte) (h : bufWf size m) (hi : i < size) :
    bufWf size (bufWrite m i v) := by
  refine ⟨?_, fun c hc => ?_⟩
  · obtain ⟨hp, -⟩ := h
    induction m with
    | nil => simp [bufWrite]
    | cons d rest ih =>
      obtain ⟨k, w⟩ := d
      rw [List.pairwise_cons] at hp
      simp only [bufWrite]
      split
      · rename_i hik
        refine List.pairwise_cons.2 ⟨fun c hc => ?_, List.pairwise_cons.2 hp⟩
        rcases List.mem_cons.1 hc with rfl | hc
        · exact hik
        · exact Nat.lt_trans hik (hp.1 c hc)
      · split
        · rename_i hik; subst hik
          exact List.pairwise_cons.2 ⟨hp.1, hp.2⟩
        · rename_i h1 h2
          refine List.pairwise_cons.2 ⟨fun c hc => ?_, ih hp.2⟩
          rcases mem_bufWrite hc with rfl | hc
          · show k < i; omega
          · exact hp.1 c hc
  · rcases mem_bufWrite hc with rfl | hc
    · exact hi
    · exact h.2 c hc

theorem bufWf_writeBytes {size : Nat} (bs : List Byte) {m : Buffer} {i : Nat} (h : bufWf size m)
    (hi : i + bs.length ≤ size) : bufWf size (writeBytes m i bs) := by
  induction bs generalizing m i with
  | nil => exact h
  | cons v vs ih =>
    simp only [List.length_cons] at hi
    exact ih (bufWf_bufWrite v h (by omega)) (by omega)

theorem bufWf_fillZero {size n : Nat} {m : Buffer} (h : bufWf size m) (hn : n ≤ size) : bufWf size (fillZero n m) := by
  unfold fillZero
  refine ⟨List.pairwise_append.2 ⟨?_, h.1.filter _, ?_⟩, fun c hc => ?_⟩
  · rw [List.pairwise_map]
    exact List.pairwise_lt_range
  · intro a ha b hb
    obtain ⟨i, hi, rfl⟩ := List.mem_map.1 ha
    have := List.mem_range.1 hi
    have := of_decide_eq_true (List.mem_filter.1 hb).2
    show i < b.1
    omega
  · rcases List.mem_append.1 hc with hc | hc
    · obtain ⟨i, hi, rfl⟩ := List.mem_map.1 hc
      have := List.mem_range.1 hi
      show i < size
      omega
    · exact h.2 c (List.mem_filter.1 hc).1

/-- The empty buffer is canonical: the memory of the state after reset has the form. -/
theorem bufWf_nil (size : Nat) : bufWf size [] := ⟨List.Pairwise.nil, fun _ h => absurd h (by simp)⟩

theorem memory_wf_resetWith (p : Params) : Memory.wf (State.resetWith p) := ⟨bufWf_nil _, bufWf_nil _, bufWf_nil _⟩

theorem memory_wf_reset : Memory.wf State.reset := memory_wf_resetWith _

/-- A canonical buffer holds nothing outside its size. -/
theorem bufRead_none_of_wf {size : Nat} {m : Buffer} (h : bufWf size m) {i : Nat} (hi : size ≤ i) : bufRead m i = none := by
  have h2 := h.2
  clear h
  induction m with
  | nil => rfl
  | cons c rest ih =>
    obtain ⟨k, w⟩ := c
    have : k < size := h2 (k, w) (by simp)
    have hk : k ≠ i := by omega
    simp only [bufRead, hk, if_false]
    exact ih (fun c hc => h2 c (List.mem_cons_of_mem _ hc))

theorem bufRead_none_of_lt_all {m : Buffer} {i : Nat} (h : ∀ c ∈ m, i < c.1) : bufRead m i = none := by
  induction m with
  | nil => rfl
  | cons c rest ih =>
    obtain ⟨k, w⟩ := c
    have : i < k := h (k, w) (by simp)
    have hk : k ≠ i := by omega
    simp only [bufRead, hk, if_false]
    exact ih (fun c hc => h c (List.mem_cons_of_mem _ hc))

/-- Equal memories are equal data: canonical buffers that read alike are the same list. -/
theorem bufWf_ext {size : Nat} {m m' : Buffer} (h : bufWf size m) (h' : bufWf size m')
    (heq : ∀ i, bufRead m i = bufRead m' i) : m = m' := by
  obtain ⟨hp, -⟩ := h
  obtain ⟨hp', -⟩ := h'
  induction m generalizing m' with
  | nil =>
    cases m' with
    | nil => rfl
    | cons c r => obtain ⟨k, w⟩ := c; have := heq k; simp [bufRead] at this
  | cons c rest ih =>
    obtain ⟨k, w⟩ := c
    cases m' with
    | nil => have := heq k; simp [bufRead] at this
    | cons c' rest' =>
      obtain ⟨k', w'⟩ := c'
      rw [List.pairwise_cons] at hp hp'
      have hkk : k = k' := by
        rcases Nat.lt_trichotomy k k' with hlt | he | hlt
        · have h1 := heq k
          rw [bufRead_none_of_lt_all (m := (k', w') :: rest') (i := k)] at h1
          · simp [bufRead] at h1
          · intro c hc
            rcases List.mem_cons.1 hc with rfl | hc
            · exact hlt
            · exact Nat.lt_trans hlt (hp'.1 c hc)
        · exact he
        · have h1 := heq k'
          rw [bufRead_none_of_lt_all (m := (k, w) :: rest) (i := k')] at h1
          · simp [bufRead] at h1
          · intro c hc
            rcases List.mem_cons.1 hc with rfl | hc
            · exact hlt
            · exact Nat.lt_trans hlt (hp.1 c hc)
      subst hkk
      have hw : w = w' := by have := heq k; simpa [bufRead] using this
      subst hw
      have hrest : rest = rest' := by
        refine ih (fun i => ?_) hp.2 hp'.2
        by_cases hik : k = i
        · subst hik
          rw [bufRead_none_of_lt_all hp.1, bufRead_none_of_lt_all hp'.1]
        · have := heq i
          simpa [bufRead, hik] using this
      rw [hrest]

end Sys2Proof.Machine
end

