-- ==== Sys2Proof/Laws/Reads.lean ====
section
/-! SUPPORT. What reads of a buffer answer: the bytes held, a free byte, or nothing under `UNWRITTEN_READ = fault`. -/

namespace Sys2Proof.Machine

/-! ### One byte -/

/-- Everything a read of one byte can answer. -/
theorem readByte_cases {u : UnwrittenRead} {m : Buffer} {i k : Nat} :
    (∃ v, bufRead m i = some v ∧ readByte u m i k = some (v, k)) ∨
    (bufRead m i = none ∧ u = .fault ∧ readByte u m i k = none) ∨
    (bufRead m i = none ∧ u = .anyValue ∧ readByte u m i k = some (Config.freeByte k, k + 1)) := by
  unfold readByte
  cases h : bufRead m i with
  | some v => exact .inl ⟨v, rfl, rfl⟩
  | none => cases u <;> simp

theorem readByte_of_held {u : UnwrittenRead} {m : Buffer} {i k : Nat} {v : Byte} (h : bufRead m i = some v) :
    readByte u m i k = some (v, k) := by
  simp [readByte, h]

theorem readByte_congr {u : UnwrittenRead} {m m' : Buffer} {i k : Nat} (h : bufRead m i = bufRead m' i) :
    readByte u m i k = readByte u m' i k := by
  simp [readByte, h]

/-- A read stops only on an unwritten byte under `UNWRITTEN_READ = fault`. -/
theorem readByte_eq_none {u : UnwrittenRead} {m : Buffer} {i k : Nat} :
    readByte u m i k = none ↔ u = .fault ∧ bufRead m i = none := by
  rcases readByte_cases (u := u) (m := m) (i := i) (k := k) with ⟨v, h, h'⟩ | ⟨h, hu, h'⟩ | ⟨h, hu, h'⟩ <;>
    simp_all

/-! ### Several bytes -/

theorem readBytes_length {u : UnwrittenRead} {m : Buffer} {i n k : Nat} {bs : List Byte} {k' : Nat}
    (h : readBytes u m i n k = some (bs, k')) : bs.length = n := by
  induction n generalizing i k bs k' with
  | zero => simp only [readBytes, Option.some.injEq, Prod.mk.injEq] at h; simp [← h.1]
  | succ n ih =>
    simp only [readBytes] at h
    split at h
    · simp at h
    · split at h
      · simp at h
      · rename_i h2
        simp only [Option.some.injEq, Prod.mk.injEq] at h
        simp [← h.1, ih h2]

theorem readBytes_congr {u : UnwrittenRead} {m m' : Buffer} {i n k : Nat}
    (h : ∀ j, i ≤ j → j < i + n → bufRead m j = bufRead m' j) :
    readBytes u m i n k = readBytes u m' i n k := by
  induction n generalizing i k with
  | zero => rfl
  | succ n ih =>
    simp only [readBytes, readByte_congr (h i (Nat.le_refl _) (by omega))]
    split
    · rfl
    · rw [ih (fun j h1 h2 => h j (by omega) (by omega))]

/-- Reading bytes that the buffer holds answers them and draws nothing. -/
theorem readBytes_of_holds {u : UnwrittenRead} {m : Buffer} {i k : Nat} {bs : List Byte}
    (h : holdsBytes m i bs = true) : readBytes u m i bs.length k = some (bs, k) := by
  induction bs generalizing i with
  | nil => rfl
  | cons v vs ih =>
    simp only [holdsBytes, Bool.and_eq_true, beq_iff_eq] at h
    simp [readBytes, readByte_of_held h.1, ih h.2]

theorem readBytes_of_holds' {u : UnwrittenRead} {m : Buffer} {i n k : Nat} {bs : List Byte}
    (h : holdsBytes m i bs = true) (hn : bs.length = n) : readBytes u m i n k = some (bs, k) :=
  hn ▸ readBytes_of_holds h

/-- A read stops exactly when `UNWRITTEN_READ = fault` and one of its bytes is unwritten. -/
theorem readBytes_eq_none {u : UnwrittenRead} {m : Buffer} {i n k : Nat} :
    readBytes u m i n k = none ↔ u = .fault ∧ ∃ j, j < n ∧ bufRead m (i + j) = none := by
  induction n generalizing i k with
  | zero => simp [readBytes]
  | succ n ih =>
    constructor
    · intro h
      simp only [readBytes] at h
      split at h
      · rename_i h1
        obtain ⟨hu, hb⟩ := readByte_eq_none.1 h1
        exact ⟨hu, 0, by omega, by simpa using hb⟩
      · split at h
        · rename_i h2
          obtain ⟨hu, j, hj, hb⟩ := ih.1 h2
          exact ⟨hu, j + 1, by omega, by rw [← hb]; congr 1; omega⟩
        · simp at h
    · rintro ⟨hu, j, hj, hb⟩
      simp only [readBytes]
      split
      · rfl
      · rename_i v k1 h1
        have : j ≠ 0 := by
          rintro rfl
          have := readByte_eq_none (k := k).2 ⟨hu, by simpa using hb⟩
          simp [this] at h1
        have h2 : readBytes u m (i + 1) n k1 = none :=
          ih.2 ⟨hu, j - 1, by omega, by rw [← hb]; congr 1; omega⟩
        rw [h2]

theorem readBytes_of_readable {u : UnwrittenRead} {m : Buffer} {i n : Nat} (k : Nat) (h : readable u m i n) :
    ∃ bs k', readBytes u m i n k = some (bs, k') := by
  cases hr : readBytes u m i n k with
  | some r => exact ⟨r.1, r.2, rfl⟩
  | none =>
    obtain ⟨hu, j, hj, hb⟩ := readBytes_eq_none.1 hr
    rcases h with h | h
    · simp [h] at hu
    · have := h j hj
      simp [hb] at this

/-- Where the buffer holds a byte, a read answers it. -/
theorem readBytes_getElem {u : UnwrittenRead} {m : Buffer} {i n k : Nat} {bs : List Byte} {k' : Nat}
    (h : readBytes u m i n k = some (bs, k')) {j : Nat} {v : Byte} (hj : j < n) (hv : bufRead m (i + j) = some v) :
    bs[j]? = some v := by
  induction n generalizing i k bs k' j with
  | zero => omega
  | succ n ih =>
    simp only [readBytes] at h
    split at h
    · simp at h
    · rename_i w k1 h1
      split at h
      · simp at h
      · rename_i h2
        simp only [Option.some.injEq, Prod.mk.injEq] at h
        rw [← h.1]
        cases j with
        | zero =>
          have := readByte_of_held (u := u) (k := k) (by simpa using hv)
          rw [this] at h1
          simp only [Option.some.injEq, Prod.mk.injEq] at h1
          simp [h1.1]
        | succ j =>
          rw [List.getElem?_cons_succ]
          exact ih h2 (by omega) (by rw [← hv]; congr 1; omega)

/-! ### holdsBytes -/

theorem holdsBytes_append (m : Buffer) (i : Nat) (bs cs : List Byte) :
    holdsBytes m i (bs ++ cs) = (holdsBytes m i bs && holdsBytes m (i + bs.length) cs) := by
  induction bs generalizing i with
  | nil => simp [holdsBytes]
  | cons v vs ih =>
    have : i + (vs.length + 1) = i + 1 + vs.length := by omega
    simp [holdsBytes, ih, Bool.and_assoc, this]

theorem holdsBytes_iff {m : Buffer} {i : Nat} {bs : List Byte} :
    holdsBytes m i bs = true ↔ ∀ j v, bs[j]? = some v → bufRead m (i + j) = some v := by
  induction bs generalizing i with
  | nil => simp [holdsBytes]
  | cons w vs ih =>
    simp only [holdsBytes, Bool.and_eq_true, beq_iff_eq, ih]
    constructor
    · rintro ⟨h0, h1⟩ j v hv
      cases j with
      | zero => simp at hv; simpa [← hv] using h0
      | succ j => rw [← h1 j v (by simpa using hv)]; congr 1; omega
    · intro h
      refine ⟨by simpa using h 0 w (by simp), fun j v hv => ?_⟩
      rw [← h (j + 1) v (by simpa using hv)]
      congr 1; omega

theorem written_of_holds {m : Buffer} {i : Nat} {bs : List Byte} (h : holdsBytes m i bs = true) :
    written m i bs.length := by
  intro j hj
  rw [holdsBytes_iff.1 h j bs[j] (by simp [hj])]
  rfl

/-- Bytes just written are held. -/
theorem holdsBytes_writeBytes (m : Buffer) (i : Nat) (bs : List Byte) :
    holdsBytes (writeBytes m i bs) i bs = true := by
  refine holdsBytes_iff.2 (fun j v hv => ?_)
  obtain ⟨hj, hv'⟩ := List.getElem?_eq_some_iff.1 hv
  rw [bufRead_writeBytes, dif_pos ⟨by omega, by omega⟩, ← hv']
  congr 2; omega

/-! ### Words -/

/-- Everything a four-byte big-endian read can answer. -/
theorem readWordBE_eq {u : UnwrittenRead} {m : Buffer} {i k : Nat} :
    (readWordBE u m i k = none ∧ readBytes u m i 4 k = none) ∨
    (∃ b0 b1 b2 b3 k', readBytes u m i 4 k = some ([b0, b1, b2, b3], k') ∧
      readWordBE u m i k = some (wordBE b0 b1 b2 b3, k')) := by
  unfold readWordBE
  cases h : readBytes u m i 4 k with
  | none => simp
  | some r =>
    obtain ⟨bs, k'⟩ := r
    have hl := readBytes_length h
    match bs, hl with
    | [b0, b1, b2, b3], _ => simp

theorem readWordLE_eq {u : UnwrittenRead} {m : Buffer} {i k : Nat} :
    (readWordLE u m i k = none ∧ readBytes u m i 4 k = none) ∨
    (∃ b0 b1 b2 b3 k', readBytes u m i 4 k = some ([b0, b1, b2, b3], k') ∧
      readWordLE u m i k = some (wordLE b0 b1 b2 b3, k')) := by
  unfold readWordLE
  cases h : readBytes u m i 4 k with
  | none => simp
  | some r =>
    obtain ⟨bs, k'⟩ := r
    have hl := readBytes_length h
    match bs, hl with
    | [b0, b1, b2, b3], _ => simp

theorem readWordBE_congr {u : UnwrittenRead} {m m' : Buffer} {i k : Nat}
    (h : ∀ j, i ≤ j → j < i + 4 → bufRead m j = bufRead m' j) : readWordBE u m i k = readWordBE u m' i k := by
  simp [readWordBE, readBytes_congr h]

theorem readWordBE_of_holds {u : UnwrittenRead} {m : Buffer} {i k : Nat} {b0 b1 b2 b3 : Byte}
    (h : holdsBytes m i [b0, b1, b2, b3] = true) : readWordBE u m i k = some (wordBE b0 b1 b2 b3, k) := by
  simp [readWordBE, readBytes_of_holds' h (n := 4) rfl]

theorem readWordLE_of_holds {u : UnwrittenRead} {m : Buffer} {i k : Nat} {b0 b1 b2 b3 : Byte}
    (h : holdsBytes m i [b0, b1, b2, b3] = true) : readWordLE u m i k = some (wordLE b0 b1 b2 b3, k) := by
  simp [readWordLE, readBytes_of_holds' h (n := 4) rfl]

theorem readWordBE_eq_none {u : UnwrittenRead} {m : Buffer} {i k : Nat} :
    readWordBE u m i k = none ↔ u = .fault ∧ ∃ j, j < 4 ∧ bufRead m (i + j) = none := by
  rw [← readBytes_eq_none (k := k)]
  rcases readWordBE_eq (u := u) (m := m) (i := i) (k := k) with ⟨h, h'⟩ | ⟨_, _, _, _, _, h, h'⟩ <;> simp [h, h']

theorem readWordLE_eq_none {u : UnwrittenRead} {m : Buffer} {i k : Nat} :
    readWordLE u m i k = none ↔ u = .fault ∧ ∃ j, j < 4 ∧ bufRead m (i + j) = none := by
  rw [← readBytes_eq_none (k := k)]
  rcases readWordLE_eq (u := u) (m := m) (i := i) (k := k) with ⟨h, h'⟩ | ⟨_, _, _, _, _, h, h'⟩ <;> simp [h, h']

/-- The big-endian value as a number: the first byte weighs most (20_memory.md R60). -/
theorem wordBE_toNat (b0 b1 b2 b3 : Byte) :
    (wordBE b0 b1 b2 b3).toNat = b0.toNat * 2 ^ 24 + b1.toNat * 2 ^ 16 + b2.toNat * 2 ^ 8 + b3.toNat := by
  have h1 := b1.isLt; have h2 := b2.isLt; have h3 := b3.isLt
  simp only [wordBE, BitVec.toNat_append]
  rw [← Nat.shiftLeft_add_eq_or_of_lt h1, ← Nat.shiftLeft_add_eq_or_of_lt h2, ← Nat.shiftLeft_add_eq_or_of_lt h3]
  simp only [Nat.shiftLeft_eq]
  omega

/-- The four lanes of a 32-bit write, read back as one word, give the word. -/
theorem wordLE_lanes (w : Word) : wordLE (byteOf w 0) (byteOf w 1) (byteOf w 2) (byteOf w 3) = w := by
  apply BitVec.eq_of_getLsbD_eq
  intro i hi
  simp only [wordLE, byteOf, BitVec.getLsbD_append, BitVec.getLsbD_extractLsb']
  by_cases h1 : i < 8
  · simp [h1]
  · by_cases h2 : i < 16
    · have : i - 8 < 8 := by omega
      have e : 8 + (i - 8) = i := by omega
      simp [h1, this, e]
    · by_cases h3 : i < 24
      · have a1 : ¬ i - 8 < 8 := by omega
        have a2 : i - 8 - 8 < 8 := by omega
        have e : 16 + (i - 8 - 8) = i := by omega
        simp [h1, a1, a2, e]
      · have a1 : ¬ i - 8 < 8 := by omega
        have a2 : ¬ i - 8 - 8 < 8 := by omega
        have a3 : i - 8 - 8 - 8 < 8 := by omega
        have e : 24 + (i - 8 - 8 - 8) = i := by omega
        simp [h1, a1, a2, a3, e]

end Sys2Proof.Machine
end

