-- ==== Sys2Proof/Laws/Crc.lean ====
section
/-! SUPPORT. The CRC byte step: rounds are linear over XOR and lose no information; folding a sequence in parts. -/

namespace Sys2Proof.Machine

/-! ### Folding -/

@[simp] theorem crcUpdate_nil (r : Word) : crcUpdate r [] = r := rfl

@[simp] theorem crcUpdate_cons (r : Word) (d : Byte) (bs : List Byte) :
    crcUpdate r (d :: bs) = crcUpdate (crcStep r d) bs := rfl

/-- Folding a sequence in two parts is folding the whole (40_crc.md R102). -/
theorem crcUpdate_append (r : Word) (bs cs : List Byte) : crcUpdate r (bs ++ cs) = crcUpdate (crcUpdate r bs) cs := by
  simp [crcUpdate, List.foldl_append]

/-! ### Rounds bit by bit -/

theorem crcPoly_msb : crcPoly.getLsbD 31 = true := by decide

/-- Bit `i` of a round: bit `i + 1` before it, XOR bit `i` of the polynomial when bit 0 was 1. -/
theorem getLsbD_crcRound (r : Word) (i : Nat) :
    (crcRound r).getLsbD i = (r.getLsbD (i + 1) ^^ (r.getLsbD 0 && crcPoly.getLsbD i)) := by
  unfold crcRound
  cases h : r.getLsbD 0 with
  | true =>
    rw [if_pos rfl, BitVec.getLsbD_xor, BitVec.getLsbD_ushiftRight, Nat.add_comm, Bool.true_and]
  | false =>
    rw [if_neg Bool.false_ne_true, BitVec.getLsbD_ushiftRight, Nat.add_comm, Bool.false_and, Bool.xor_false]

theorem crcRound_xor (a b : Word) : crcRound (a ^^^ b) = crcRound a ^^^ crcRound b := by
  apply BitVec.eq_of_getLsbD_eq
  intro i hi
  simp only [getLsbD_crcRound, BitVec.getLsbD_xor]
  cases a.getLsbD (i + 1) <;> cases b.getLsbD (i + 1) <;> cases a.getLsbD 0 <;> cases b.getLsbD 0 <;>
    cases crcPoly.getLsbD i <;> rfl

theorem crcRounds_xor (n : Nat) (a b : Word) : crcRounds n (a ^^^ b) = crcRounds n a ^^^ crcRounds n b := by
  induction n generalizing a b with
  | zero => rfl
  | succ n ih => simp [crcRounds, crcRound_xor, ih]

/-- Only 0 goes to 0: the polynomial's top bit tells which bit was shifted out. -/
theorem crcRound_eq_zero {r : Word} (h : crcRound r = 0) : r = 0 := by
  have hb : ∀ i, (r.getLsbD (i + 1) ^^ (r.getLsbD 0 && crcPoly.getLsbD i)) = false := by
    intro i
    rw [← getLsbD_crcRound, h]
    simp
  have h0 : r.getLsbD 0 = false := by
    have h31 := hb 31
    rw [crcPoly_msb, BitVec.getLsbD_of_ge r (31 + 1) (by omega)] at h31
    simpa using h31
  apply BitVec.eq_of_getLsbD_eq
  intro i hi
  cases i with
  | zero => simpa using h0
  | succ i =>
    have h1 := hb i
    rw [h0] at h1
    simpa using h1

/-- No two registers go to the same register in a round. -/
theorem crcRound_injective {a b : Word} (h : crcRound a = crcRound b) : a = b := by
  have hz : crcRound (a ^^^ b) = 0 := by rw [crcRound_xor, h, BitVec.xor_self]; rfl
  have := crcRound_eq_zero hz
  exact BitVec.xor_eq_zero_iff.1 this

theorem crcRounds_injective {n : Nat} {a b : Word} (h : crcRounds n a = crcRounds n b) : a = b := by
  induction n generalizing a b with
  | zero => exact h
  | succ n ih => exact crcRound_injective (ih h)

/-- Rounds on a register whose low bits are 0 only shift it. -/
theorem crcRounds_of_low_zero (n : Nat) (r : Word) (h : ∀ i, i < n → r.getLsbD i = false) :
    crcRounds n r = r >>> n := by
  induction n generalizing r with
  | zero => simp [crcRounds]
  | succ n ih =>
    have h0 : r.getLsbD 0 = false := h 0 (by omega)
    have hr : crcRound r = r >>> 1 := by rw [crcRound, h0, if_neg Bool.false_ne_true]
    rw [crcRounds, hr, ih]
    · rw [← BitVec.shiftRight_add, Nat.add_comm]
    · intro i hi
      rw [BitVec.getLsbD_ushiftRight, Nat.add_comm]
      exact h (i + 1) (by omega)

/-! ### CRC_BUF -/

/-- Everything CRC_BUF can do, its checks in the order of 60_exceptions.md R194. -/
theorem execCrcBuf_cases (s : State) :
    (s.params.ibufSize < s.inLen.toNat ∧ execCrcBuf s = .next (raiseError .rangeError s)) ∨
    (s.inLen.toNat ≤ s.params.ibufSize ∧ s.inLen.toNat < s.arg0.toNat + s.arg1.toNat ∧
      execCrcBuf s = .next (raiseError .rangeError s)) ∨
    (s.inLen.toNat ≤ s.params.ibufSize ∧ s.arg0.toNat + s.arg1.toNat ≤ s.inLen.toNat ∧
      readBytes s.params.unwritten s.ibuf s.arg0.toNat s.arg1.toNat s.draws = none ∧
      execCrcBuf s = .fault .unwrittenRead) ∨
    (s.inLen.toNat ≤ s.params.ibufSize ∧ s.arg0.toNat + s.arg1.toNat ≤ s.inLen.toNat ∧
      ∃ bs k, readBytes s.params.unwritten s.ibuf s.arg0.toNat s.arg1.toNat s.draws = some (bs, k) ∧
        execCrcBuf s = .next (succeed { s with crcState := crcUpdate s.crcState bs, draws := k })) := by
  unfold execCrcBuf
  by_cases h1 : s.params.ibufSize < s.inLen.toNat
  · exact .inl ⟨h1, by rw [if_pos h1]⟩
  refine .inr ?_
  rw [if_neg h1]
  by_cases h2 : s.inLen.toNat < crcBufStart s + crcBufCount s
  · exact .inl ⟨by omega, h2, by rw [if_pos h2]⟩
  have h2' : s.arg0.toNat + s.arg1.toNat ≤ s.inLen.toNat := Nat.le_of_not_lt h2
  refine .inr ?_
  rw [if_neg h2]
  cases hr : readBytes s.params.unwritten s.ibuf (crcBufStart s) (crcBufCount s) s.draws with
  | none => exact .inl ⟨by omega, h2', hr, rfl⟩
  | some r => exact .inr ⟨by omega, h2', r.1, r.2, hr, rfl⟩

end Sys2Proof.Machine
end

