-- ==== Sys2Proof/Laws/Defilter.lean ====
section
/-! SUPPORT. The defilter unit: what one reconstruction reads and answers, and what the row loop leaves at every index of
CUR: outside the row as before, inside it the reconstruction of the old byte from the new row. -/

namespace Sys2Proof.Machine

/-! ### Filter tags -/

/-- The five tags and no others have a filter (42_defilter.md R152). -/
theorem filterOfTag_eq_none {t : Byte} : filterOfTag t = none ↔ 4 < t.toNat := by
  unfold filterOfTag
  rcases h : t.toNat with _ | _ | _ | _ | _ | n <;> simp

theorem filterOfTag_isSome {t : Byte} : (filterOfTag t).isSome = true ↔ t.toNat ≤ 4 := by
  rw [← Option.not_isNone, Bool.not_eq_true', Option.isNone_eq_false_iff, Option.isSome_iff_ne_none, ne_eq, filterOfTag_eq_none]
  omega

/-! ### One byte -/

/-- A neighbour is read only when it is used. -/
theorem readNeighbour_eq_none {u : UnwrittenRead} {m : Buffer} {used : Bool} {i k : Nat}
    (h : readNeighbour u m used i k = none) : used = true ∧ u = .fault ∧ bufRead m i = none := by
  unfold readNeighbour at h
  split at h
  · rename_i hu; exact ⟨hu, readByte_eq_none.1 h⟩
  · simp at h

theorem readNeighbour_congr {u : UnwrittenRead} {m m' : Buffer} {used : Bool} {i k : Nat}
    (h : used = true → bufRead m i = bufRead m' i) : readNeighbour u m used i k = readNeighbour u m' used i k := by
  unfold readNeighbour
  split
  · rename_i hu; exact readByte_congr (h hu)
  · rfl

/-- A reconstruction depends only on the bytes of R150 that the filter uses. -/
theorem reconAt_congr {u : UnwrittenRead} {t : FilterType} {bpp : Nat} {cur cur' prior prior' : Buffer} {x k : Nat}
    (ha : bpp ≤ x → bufRead cur (x - bpp) = bufRead cur' (x - bpp))
    (hx : bufRead cur x = bufRead cur' x)
    (hb : usesB t = true → bufRead prior x = bufRead prior' x)
    (hc : usesC t = true → bpp ≤ x → bufRead prior (x - bpp) = bufRead prior' (x - bpp)) :
    reconAt u t bpp cur prior x k = reconAt u t bpp cur' prior' x k := by
  unfold reconAt
  rw [readNeighbour_congr (m := cur) (m' := cur') (fun h => ha (by simp at h; exact h.2))]
  split
  · rfl
  · rw [readNeighbour_congr (m := prior) (m' := prior') hb]
    split
    · rfl
    · rw [readNeighbour_congr (m := prior) (m' := prior') (fun h => hc (by simp at h; exact h.1) (by simp at h; exact h.2))]
      split
      · rfl
      · rw [readByte_congr hx]

theorem reconAt_eq_none {u : UnwrittenRead} {t : FilterType} {bpp : Nat} {cur prior : Buffer} {x k : Nat}
    (h : reconAt u t bpp cur prior x k = none) :
    u = .fault ∧ ((bpp ≤ x ∧ bufRead cur (x - bpp) = none ∧ usesA t = true) ∨ bufRead cur x = none ∨
      (usesB t = true ∧ bufRead prior x = none) ∨ (usesC t = true ∧ bpp ≤ x ∧ bufRead prior (x - bpp) = none)) := by
  unfold reconAt at h
  split at h
  · rename_i h1
    obtain ⟨hu, hf, hb⟩ := readNeighbour_eq_none h1
    simp at hu
    exact ⟨hf, .inl ⟨hu.2, hb, hu.1⟩⟩
  · split at h
    · rename_i h1
      obtain ⟨hu, hf, hb⟩ := readNeighbour_eq_none h1
      exact ⟨hf, .inr (.inr (.inl ⟨hu, hb⟩))⟩
    · split at h
      · rename_i h1
        obtain ⟨hu, hf, hb⟩ := readNeighbour_eq_none h1
        simp at hu
        exact ⟨hf, .inr (.inr (.inr ⟨hu.1, hu.2, hb⟩))⟩
      · split at h
        · rename_i h1
          obtain ⟨hf, hb⟩ := readByte_eq_none.1 h1
          exact ⟨hf, .inr (.inl hb)⟩
        · simp at h

/-- A filter ignores the neighbours it does not use. -/
theorem recon_unused (t : FilterType) (filt a b c : Byte) :
    recon t filt (if usesA t then a else 0) (if usesB t then b else 0) (if usesC t then c else 0) = recon t filt a b c := by
  cases t <;> simp [recon, usesA, usesB, usesC]

/-- A neighbour that is held, or lies before the row, is answered without a draw. -/
theorem readNeighbour_of_neighbour {u : UnwrittenRead} {m : Buffer} {bpp x k : Nat} {v : Byte} (uses : Bool)
    (h : uses = true → neighbour m bpp x = some v) :
    readNeighbour u m (uses && decide (bpp ≤ x)) (x - bpp) k = some (if uses then v else 0, k) := by
  unfold readNeighbour
  cases uses with
  | false => simp
  | true =>
    have h := h rfl
    unfold neighbour at h
    by_cases hx : bpp ≤ x
    · rw [if_pos hx] at h
      simp [hx, readByte_of_held h]
    · rw [if_neg hx] at h
      simp only [Option.some.injEq] at h
      simp [hx, ← h]

/-- A reconstruction whose used neighbours and filtered byte are held answers `recon` of them and draws nothing. -/
theorem reconAt_of_held {u : UnwrittenRead} {t : FilterType} {bpp : Nat} {cur prior : Buffer} {x k : Nat}
    {filt a b c : Byte} (hf : bufRead cur x = some filt)
    (ha : usesA t = true → neighbour cur bpp x = some a)
    (hb : usesB t = true → bufRead prior x = some b)
    (hc : usesC t = true → neighbour prior bpp x = some c) :
    reconAt u t bpp cur prior x k = some (recon t filt a b c, k) := by
  have hb' : readNeighbour u prior (usesB t) x k = some (if usesB t then b else 0, k) := by
    unfold readNeighbour
    cases hu : usesB t with
    | false => simp
    | true => simp [readByte_of_held (hb hu)]
  unfold reconAt
  rw [readNeighbour_of_neighbour (usesA t) ha]
  simp only [hb', readNeighbour_of_neighbour (usesC t) hc, readByte_of_held hf, recon_unused]

/-! ### The row loop -/

/-- What the row loop leaves outside the bytes it covers: everything as before. -/
theorem reconRow_outside {u : UnwrittenRead} {t : FilterType} {bpp : Nat} {prior : Buffer} {n x : Nat} {cur : Buffer} {k : Nat}
    {cur' : Buffer} {k' : Nat} (h : reconRow u t bpp prior n x cur k = some (cur', k')) {j : Nat}
    (hj : j < x ∨ x + n ≤ j) : bufRead cur' j = bufRead cur j := by
  induction n generalizing x cur k with
  | zero => simp only [reconRow, Option.some.injEq, Prod.mk.injEq] at h; rw [h.1]
  | succ n ih =>
    simp only [reconRow] at h
    split at h
    · simp at h
    · rw [ih h (by omega), bufRead_bufWrite_other]
      omega

/-- Every byte the row loop covers is written afterwards. -/
theorem reconRow_written {u : UnwrittenRead} {t : FilterType} {bpp : Nat} {prior : Buffer} {n x : Nat} {cur : Buffer} {k : Nat}
    {cur' : Buffer} {k' : Nat} (h : reconRow u t bpp prior n x cur k = some (cur', k')) : written cur' x n := by
  induction n generalizing x cur k with
  | zero => intro j hj; omega
  | succ n ih =>
    simp only [reconRow] at h
    split at h
    · simp at h
    · intro j hj
      cases j with
      | zero =>
        rw [reconRow_outside h (by omega)]
        simp
      | succ j =>
        have := ih h j (by omega)
        rw [← this]; congr 2; omega

/-- What the row loop leaves at a byte it covers: the reconstruction of the old byte, its left neighbour taken from the
new row (42_defilter.md R156, R157). -/
theorem reconRow_at {u : UnwrittenRead} {t : FilterType} {bpp : Nat} (hbpp : bpp ≠ 0) {prior : Buffer} {n x : Nat}
    {cur : Buffer} {k : Nat} {cur' : Buffer} {k' : Nat} (h : reconRow u t bpp prior n x cur k = some (cur', k'))
    {j : Nat} (hx : x ≤ j) (hj : j < x + n) {filt a b c : Byte} (hf : bufRead cur j = some filt)
    (ha : usesA t = true → neighbour cur' bpp j = some a)
    (hb : usesB t = true → bufRead prior j = some b)
    (hc : usesC t = true → neighbour prior bpp j = some c) :
    bufRead cur' j = some (recon t filt a b c) := by
  induction n generalizing x cur k with
  | zero => omega
  | succ n ih =>
    have hall := h
    simp only [reconRow] at h
    split at h
    · simp at h
    · rename_i v k1 h1
      by_cases hjx : j = x
      · subst hjx
        have hcur : usesA t = true → neighbour cur bpp j = some a := by
          intro hu
          rw [← ha hu]
          unfold neighbour
          split
          · exact (reconRow_outside hall (by omega)).symm
          · rfl
        rw [reconAt_of_held hf hcur hb hc] at h1
        simp only [Option.some.injEq, Prod.mk.injEq] at h1
        rw [reconRow_outside h (by omega), bufRead_bufWrite_self, h1.1]
      · exact ih h (by omega) (by omega) (by rw [bufRead_bufWrite_other _ _ (fun e => hjx e.symm)]; exact hf)

/-- The row loop stops only under `UNWRITTEN_READ = fault`, on an unwritten byte of CUR in the row, or an unwritten byte of
PRIOR in the row that the tag uses. -/
theorem reconRow_eq_none {u : UnwrittenRead} {t : FilterType} {bpp : Nat} {prior : Buffer} {n x : Nat} {cur : Buffer} {k : Nat}
    (h : reconRow u t bpp prior n x cur k = none) (hbpp : bpp ≠ 0) (hleft : ∀ j, j < x → (bufRead cur j).isSome = true) :
    u = .fault ∧ ∃ j, j < x + n ∧ ((x ≤ j ∧ bufRead cur j = none) ∨ ((usesB t = true ∨ usesC t = true) ∧ bufRead prior j = none)) := by
  induction n generalizing x cur k with
  | zero => simp [reconRow] at h
  | succ n ih =>
    simp only [reconRow] at h
    split at h
    · rename_i h1
      obtain ⟨hu, hcase⟩ := reconAt_eq_none h1
      refine ⟨hu, ?_⟩
      rcases hcase with ⟨hx, hn, -⟩ | hn | ⟨hb, hn⟩ | ⟨hc, hx, hn⟩
      · have := hleft (x - bpp) (by omega)
        simp [hn] at this
      · exact ⟨x, by omega, .inl ⟨Nat.le_refl _, hn⟩⟩
      · exact ⟨x, by omega, .inr ⟨.inl hb, hn⟩⟩
      · exact ⟨x - bpp, by omega, .inr ⟨.inr hc, hn⟩⟩
    · rename_i v k1 h1
      have hleft' : ∀ j, j < x + 1 → (bufRead (bufWrite cur x v) j).isSome = true := by
        intro j hj
        rw [bufRead_bufWrite]
        split
        · rfl
        · exact hleft j (by omega)
      obtain ⟨hu, j, hj, hcase⟩ := ih h hleft'
      refine ⟨hu, j, by omega, ?_⟩
      rcases hcase with ⟨hx, hn⟩ | hp
      · rw [bufRead_bufWrite_other _ _ (by omega)] at hn
        exact .inl ⟨by omega, hn⟩
      · exact .inr hp

/-- The row loop keeps the canonical form of CUR. -/
theorem reconRow_wf {u : UnwrittenRead} {t : FilterType} {bpp : Nat} {prior : Buffer} {n x size : Nat} {cur : Buffer} {k : Nat}
    {cur' : Buffer} {k' : Nat} (h : reconRow u t bpp prior n x cur k = some (cur', k')) (hw : bufWf size cur)
    (hn : x + n ≤ size) : bufWf size cur' := by
  induction n generalizing x cur k with
  | zero => simp only [reconRow, Option.some.injEq, Prod.mk.injEq] at h; exact h.1 ▸ hw
  | succ n ih =>
    simp only [reconRow] at h
    split at h
    · simp at h
    · exact ih h (bufWf_bufWrite _ hw (by omega)) (by omega)

/-! ### ROW_UNFILT -/

/-- Everything the row engine can do once its checks have passed (42_defilter.md R156): it stops on an unread byte of the
first loop, or both line buffers hold the new row. The copy never stops. -/
theorem unfiltRow_cases (t : FilterType) (bpp n : Nat) (s : State) :
    (reconRow s.params.unwritten t bpp s.prior n 0 s.cur s.draws = none ∧ unfiltRow t bpp n s = .fault .unwrittenRead) ∨
    (∃ cur row k, reconRow s.params.unwritten t bpp s.prior n 0 s.cur s.draws = some (cur, k) ∧ row.length = n ∧
      holdsBytes cur 0 row = true ∧
      unfiltRow t bpp n s = .next (succeed { s with cur := cur, prior := writeBytes s.prior 0 row, draws := k })) := by
  unfold unfiltRow
  cases h : reconRow s.params.unwritten t bpp s.prior n 0 s.cur s.draws with
  | none => exact .inl ⟨rfl, rfl⟩
  | some r =>
    obtain ⟨cur, k⟩ := r
    refine .inr ?_
    have hw := reconRow_written h
    have hex : ∃ row : List Byte, row.length = n ∧ holdsBytes cur 0 row = true := by
      refine ⟨(List.range n).map (fun j => (bufRead cur j).getD 0), by simp, ?_⟩
      rw [holdsBytes_iff]
      intro j v hv
      rw [List.getElem?_map] at hv
      by_cases hj : j < n
      · rw [List.getElem?_range hj] at hv
        simp only [Option.map_some, Option.some.injEq] at hv
        have := hw j hj
        obtain ⟨v', hv'⟩ := Option.isSome_iff_exists.1 this
        rw [hv']
        rw [Nat.zero_add] at hv'
        rw [hv'] at hv
        simpa using hv
      · have : (List.range n)[j]? = none := by simp; omega
        simp [this] at hv
    obtain ⟨row, hl, hh⟩ := hex
    refine ⟨cur, row, k, rfl, hl, hh, ?_⟩
    simp only [readBytes_of_holds' (u := s.params.unwritten) (k := k) hh hl]

/-- Everything ROW_UNFILT can do, its checks in the order of 60_exceptions.md R194. -/
theorem execRowUnfilt_cases (t bpp : Byte) (s : State) :
    (bpp.toNat = 0 ∧ execRowUnfilt t bpp s = .next (raiseError .illegalCommand s)) ∨
    (bpp.toNat ≠ 0 ∧ filterOfTag t = none ∧ execRowUnfilt t bpp s = .next (raiseError .invalidFilterType s)) ∨
    (bpp.toNat ≠ 0 ∧ (∃ f, filterOfTag t = some f) ∧ s.params.rowMax < s.arg0.toNat ∧
      execRowUnfilt t bpp s = .next (raiseError .rangeError s)) ∨
    (bpp.toNat ≠ 0 ∧ s.arg0.toNat ≤ s.params.rowMax ∧ ∃ f, filterOfTag t = some f ∧
      execRowUnfilt t bpp s = unfiltRow f bpp.toNat s.arg0.toNat s) := by
  unfold execRowUnfilt
  by_cases h0 : bpp.toNat = 0
  · exact .inl ⟨h0, by rw [if_pos h0]⟩
  rw [if_neg h0]
  cases hf : filterOfTag t with
  | none => exact .inr (.inl ⟨h0, rfl, rfl⟩)
  | some f =>
    by_cases hr : s.params.rowMax < rowLength s
    · exact .inr (.inr (.inl ⟨h0, ⟨f, rfl⟩, hr, by simp only; rw [if_pos hr]⟩))
    · exact .inr (.inr (.inr ⟨h0, Nat.le_of_not_lt hr, f, rfl, by simp only; rw [if_neg hr]; rfl⟩))

/-- Everything UNFILT can do (42_defilter.md R154). -/
theorem execUnfilt_cases (t : Byte) (s : State) :
    (filterOfTag t = none ∧ execUnfilt t s = .next (raiseError .invalidFilterType s)) ∨
    (∃ f, filterOfTag t = some f ∧ execUnfilt t s = .next (succeed { s with
      result := zext32 (recon f (unfiltFilt s) (unfiltA s) (unfiltB s) (unfiltC s)) })) := by
  unfold execUnfilt
  cases h : filterOfTag t with
  | none => exact .inl ⟨rfl, rfl⟩
  | some f => exact .inr ⟨f, rfl, rfl⟩

/-- Where every byte a row uses is held, the row loop draws nothing. -/
theorem reconRow_draws {u : UnwrittenRead} {t : FilterType} {bpp : Nat} {prior : Buffer} {n x : Nat}
    {cur : Buffer} {k : Nat} {cur' : Buffer} {k' : Nat} (h : reconRow u t bpp prior n x cur k = some (cur', k'))
    (hcur : written cur 0 (x + n)) (hprior : usesB t = true ∨ usesC t = true → written prior 0 (x + n)) : k' = k := by
  induction n generalizing x cur k with
  | zero => simp only [reconRow, Option.some.injEq, Prod.mk.injEq] at h; exact h.2.symm
  | succ n ih =>
    simp only [reconRow] at h
    have held : ∀ m : Buffer, written m 0 (x + (n + 1)) → ∃ v, neighbour m bpp x = some v := by
      intro m hm
      unfold neighbour
      split
      · have := hm (x - bpp) (by omega)
        rw [Nat.zero_add] at this
        exact Option.isSome_iff_exists.1 this
      · exact ⟨0, rfl⟩
    have here : ∀ m : Buffer, written m 0 (x + (n + 1)) → ∃ v, bufRead m x = some v := by
      intro m hm
      have := hm x (by omega)
      rw [Nat.zero_add] at this
      exact Option.isSome_iff_exists.1 this
    obtain ⟨filt, hf⟩ := here cur hcur
    obtain ⟨a, ha⟩ := held cur hcur
    have hb : ∃ b, usesB t = true → bufRead prior x = some b := by
      by_cases hu : usesB t = true
      · obtain ⟨b, hb⟩ := here prior (hprior (.inl hu)); exact ⟨b, fun _ => hb⟩
      · exact ⟨0, fun h => absurd h hu⟩
    have hc : ∃ c, usesC t = true → neighbour prior bpp x = some c := by
      by_cases hu : usesC t = true
      · obtain ⟨c, hc⟩ := held prior (hprior (.inr hu)); exact ⟨c, fun _ => hc⟩
      · exact ⟨0, fun h => absurd h hu⟩
    obtain ⟨b, hb⟩ := hb
    obtain ⟨c, hc⟩ := hc
    rw [reconAt_of_held hf (fun _ => ha) hb hc] at h
    simp only at h
    refine ih h ?_ ?_
    · intro j hj
      rw [bufRead_bufWrite]
      split
      · rfl
      · exact hcur j (by omega)
    · intro hu j hj
      exact hprior hu j (by omega)

end Sys2Proof.Machine
end

