-- ==== Sys2Proof/Laws/Parser.lean ====
section
/-! SUPPORT. The parser: what one pass of the skip loop can do, that a pass which continues moves PARSE_POS forward
inside IN_LEN, that the loop's fuel never runs out, and one induction principle for the loop. -/

namespace Sys2Proof.Machine

/-- The state after a chunk was consumed and skipped (41_parser.md R130): the draws, CH_CALC and PARSE_POS move, and
nothing else. -/
def skipTo (k : Nat) (computed pos : Word) (s : State) : State :=
  { s with draws := k, chCalc := computed, parsePos := pos }

/-- Everything a pass can do (41_parser.md R126). -/
theorem parsePass_cases (s : State) :
    (s.inLen.toNat < s.parsePos.toNat + 8 ∧ parsePass s = .done (.next (endOfBuffer s))) ∨
    (s.parsePos.toNat + 8 ≤ s.inLen.toNat ∧
      ((readHeader s.params.unwritten s.ibuf s.parsePos.toNat s.draws = none ∧
          parsePass s = .done (.fault .unwrittenRead)) ∨
       ∃ len tag k1, readHeader s.params.unwritten s.ibuf s.parsePos.toNat s.draws = some (len, tag, k1) ∧
        ((s.inLen.toNat < s.parsePos.toNat + 12 + len.toNat ∧
            parsePass s = .done (.next (failParse .truncatedChunk { s with draws := k1 }))) ∨
         (s.parsePos.toNat + 12 + len.toNat ≤ s.inLen.toNat ∧
          ((readChecksums s.params.unwritten s.ibuf s.parsePos.toNat len.toNat k1 = none ∧
              parsePass s = .done (.fault .unwrittenRead)) ∨
           ∃ computed stored k2,
             readChecksums s.params.unwritten s.ibuf s.parsePos.toNat len.toNat k1 = some (computed, stored, k2) ∧
             parsePass s = judgeChunk len tag computed stored { s with draws := k2 }))))) := by
  unfold parsePass
  simp only
  by_cases h8 : s.inLen.toNat < s.parsePos.toNat + 8
  · exact .inl ⟨h8, by rw [if_pos h8]⟩
  refine .inr ⟨by omega, ?_⟩
  rw [if_neg h8]
  cases hh : readHeader s.params.unwritten s.ibuf s.parsePos.toNat s.draws with
  | none => exact .inl ⟨rfl, rfl⟩
  | some r =>
    obtain ⟨len, tag, k1⟩ := r
    refine .inr ⟨len, tag, k1, rfl, ?_⟩
    simp only
    by_cases h12 : s.inLen.toNat < s.parsePos.toNat + 12 + len.toNat
    · exact .inl ⟨h12, by rw [if_pos h12]⟩
    refine .inr ⟨by omega, ?_⟩
    rw [if_neg h12]
    cases hc : readChecksums s.params.unwritten s.ibuf s.parsePos.toNat len.toNat k1 with
    | none => exact .inl ⟨rfl, rfl⟩
    | some r =>
      obtain ⟨computed, stored, k2⟩ := r
      exact .inr ⟨computed, stored, k2, rfl, rfl⟩

/-- Everything the judgement of a chunk can be (41_parser.md R126 Steps 3 to 5). -/
theorem judgeChunk_cases (len tag computed stored : Word) (s : State) :
    (computed ≠ stored ∧
      judgeChunk len tag computed stored s = .done (.next (failParse .crcMismatch { s with chCalc := computed }))) ∨
    (computed = stored ∧ kindOf tag = none ∧
      judgeChunk len tag computed stored s = .again (skipTo s.draws computed (s.parsePos + 12 + len) s)) ∨
    (computed = stored ∧ ∃ k, kindOf tag = some k ∧
      judgeChunk len tag computed stored s =
        .done (.next (returnChunk k tag len (s.parsePos + 8) stored
          (skipTo s.draws computed (s.parsePos + 12 + len) s)))) := by
  unfold judgeChunk
  simp only
  by_cases hne : computed ≠ stored
  · exact .inl ⟨hne, by rw [if_pos hne]⟩
  have he : computed = stored := Classical.not_not.1 hne
  rw [if_neg hne]
  cases hk : kindOf tag with
  | none => exact .inr (.inl ⟨he, rfl, rfl⟩)
  | some k => exact .inr (.inr ⟨he, k, rfl, rfl⟩)

/-- The position past a chunk that lies inside IN_LEN does not wrap (41_parser.md R127). -/
theorem parsePos_advance_toNat {pos len inLen : Word} (h : pos.toNat + 12 + len.toNat ≤ inLen.toNat) :
    (pos + 12 + len).toNat = pos.toNat + 12 + len.toNat := by
  have := inLen.isLt
  have h12 : (12 : Word).toNat = 12 := rfl
  rw [BitVec.toNat_add, BitVec.toNat_add, h12]
  omega

/-- A pass that continues has skipped an unrecognized chunk inside IN_LEN with a good checksum. -/
theorem parsePass_again {s s' : State} (h : parsePass s = .again s') :
    ∃ len tag k1 k2 stored,
      readHeader s.params.unwritten s.ibuf s.parsePos.toNat s.draws = some (len, tag, k1) ∧
      readChecksums s.params.unwritten s.ibuf s.parsePos.toNat len.toNat k1 = some (stored, stored, k2) ∧
      s.parsePos.toNat + 12 + len.toNat ≤ s.inLen.toNat ∧ kindOf tag = none ∧
      s' = skipTo k2 stored (s.parsePos + 12 + len) s := by
  rcases parsePass_cases s with ⟨-, h1⟩ | ⟨-, ⟨-, h1⟩ | ⟨len, tag, k1, hh, ⟨-, h1⟩ | ⟨hle, ⟨-, h1⟩ | ⟨c, st, k2, hc, h1⟩⟩⟩⟩
  · simp [h1] at h
  · simp [h1] at h
  · simp [h1] at h
  · simp [h1] at h
  · rw [h1] at h
    rcases judgeChunk_cases len tag c st { s with draws := k2 } with ⟨-, h2⟩ | ⟨he, hk, h2⟩ | ⟨-, k, -, h2⟩
    · simp [h2] at h
    · rw [h2] at h
      simp only [Pass.again.injEq] at h
      subst he
      exact ⟨len, tag, k1, k2, c, hh, hc, hle, hk, h.symm⟩
    · simp [h2] at h

/-- A pass that continues moves PARSE_POS forward by at least 12, inside IN_LEN, and leaves IN_LEN (R130). -/
theorem parsePass_again_progress {s s' : State} (h : parsePass s = .again s') :
    s.parsePos.toNat + 12 ≤ s'.parsePos.toNat ∧ s'.parsePos.toNat ≤ s.inLen.toNat ∧ s'.inLen = s.inLen := by
  obtain ⟨len, tag, k1, k2, stored, -, -, hle, -, rfl⟩ := parsePass_again h
  have := parsePos_advance_toNat hle
  simp only [skipTo]
  exact ⟨by omega, by omega, trivial⟩

/-- With no byte left, a pass ends the walk: the loop's last case is the pass's own. -/
theorem parsePass_at_end {s : State} (h : s.inLen.toNat ≤ s.parsePos.toNat) :
    parsePass s = .done (.next (endOfBuffer s)) := by
  simp only [parsePass]
  rw [if_pos (by omega)]

/-- The fuel never runs out: any fuel that covers the bytes left gives the same outcome (log 16). -/
theorem parseLoop_enough {fuel : Nat} {s : State} (h : s.inLen.toNat - s.parsePos.toNat ≤ fuel) :
    parseLoop fuel s = parseScan s := by
  suffices H : ∀ n fuel (s : State), n ≤ fuel → s.inLen.toNat - s.parsePos.toNat ≤ n →
      parseLoop fuel s = parseLoop n s by
    exact H _ _ _ h (Nat.le_refl _)
  intro n
  induction n with
  | zero =>
    intro fuel s _ h0
    cases fuel with
    | zero => rfl
    | succ f => simp only [parseLoop]; rw [parsePass_at_end (by omega)]
  | succ n ih =>
    intro fuel s hf h1
    cases fuel with
    | zero => omega
    | succ f =>
      simp only [parseLoop]
      cases hp : parsePass s with
      | done o => rfl
      | again s' =>
        have := parsePass_again_progress hp
        exact ih f s' (by omega) (by rw [this.2.2]; omega)

/-- The loop of 41_parser.md R126 as an equation: a pass ends the command or is followed by the loop. -/
theorem parseScan_eq (s : State) :
    parseScan s = match parsePass s with | .done o => o | .again s' => parseScan s' := by
  by_cases h : s.inLen.toNat ≤ s.parsePos.toNat
  · rw [parsePass_at_end h]
    have h0 : s.inLen.toNat - s.parsePos.toNat = 0 := by omega
    simp [parseScan, h0, parseLoop]
  · obtain ⟨n, hn⟩ : ∃ n, s.inLen.toNat - s.parsePos.toNat = n + 1 := ⟨s.inLen.toNat - s.parsePos.toNat - 1, by omega⟩
    rw [parseScan, hn]
    simp only [parseLoop]
    cases hp : parsePass s with
    | done o => rfl
    | again s' =>
      have := parsePass_again_progress hp
      exact parseLoop_enough (by rw [this.2.2]; omega)

/-- One induction for everything said about the loop: it holds of a pass that ends the command, and a skipped chunk
carries it from the rest of the loop. -/
theorem parseScan_induction {P : State → Host.Outcome State Fault Refusal → Prop}
    (done : ∀ s o, parsePass s = .done o → P s o)
    (again : ∀ s s', parsePass s = .again s' → P s' (parseScan s') → P s (parseScan s))
    (s : State) : P s (parseScan s) := by
  suffices H : ∀ n (s : State), s.inLen.toNat - s.parsePos.toNat ≤ n → P s (parseScan s) from H _ s (Nat.le_refl _)
  intro n
  induction n with
  | zero =>
    intro s h
    have hp := parsePass_at_end (s := s) (by omega)
    rw [parseScan_eq, hp]
    exact done s _ hp
  | succ n ih =>
    intro s h
    cases hp : parsePass s with
    | done o =>
      rw [parseScan_eq, hp]
      exact done s o hp
    | again s' =>
      have := parsePass_again_progress hp
      exact again s s' hp (ih s' (by rw [this.2.2]; omega))

/-! ### Reads of a chunk -/

theorem readHeader_eq_none {u : UnwrittenRead} {m : Buffer} {p k : Nat} (h : readHeader u m p k = none) :
    u = .fault ∧ ∃ j, j < 8 ∧ bufRead m (p + j) = none := by
  unfold readHeader at h
  split at h
  · rename_i h1
    obtain ⟨hu, j, hj, hb⟩ := readWordBE_eq_none.1 h1
    exact ⟨hu, j, by omega, hb⟩
  · split at h
    · rename_i h2
      obtain ⟨hu, j, hj, hb⟩ := readWordBE_eq_none.1 h2
      exact ⟨hu, 4 + j, by omega, by rw [← hb]; congr 1; omega⟩
    · simp at h

theorem readChecksums_eq_none {u : UnwrittenRead} {m : Buffer} {p len k : Nat} (h : readChecksums u m p len k = none) :
    u = .fault ∧ ∃ j, 4 ≤ j ∧ j < 12 + len ∧ bufRead m (p + j) = none := by
  unfold readChecksums at h
  split at h
  · rename_i h1
    obtain ⟨hu, j, hj, hb⟩ := readBytes_eq_none.1 h1
    exact ⟨hu, 4 + j, by omega, by omega, by rw [← hb]; congr 1; omega⟩
  · split at h
    · rename_i h2
      obtain ⟨hu, j, hj, hb⟩ := readWordBE_eq_none.1 h2
      exact ⟨hu, 8 + len + j, by omega, by omega, by rw [← hb]; congr 1; omega⟩
    · simp at h

theorem readHeader_congr {u : UnwrittenRead} {m m' : Buffer} {p k : Nat}
    (h : ∀ j, p ≤ j → j < p + 8 → bufRead m j = bufRead m' j) : readHeader u m p k = readHeader u m' p k := by
  unfold readHeader
  rw [readWordBE_congr (m := m) (m' := m') (fun j h1 h2 => h j h1 (by omega))]
  split
  · rfl
  · rw [readWordBE_congr (m := m) (m' := m') (fun j h1 h2 => h j (by omega) (by omega))]

theorem readChecksums_congr {u : UnwrittenRead} {m m' : Buffer} {p len k : Nat}
    (h : ∀ j, p ≤ j → j < p + 12 + len → bufRead m j = bufRead m' j) :
    readChecksums u m p len k = readChecksums u m' p len k := by
  unfold readChecksums
  rw [readBytes_congr (m := m) (m' := m') (fun j h1 h2 => h j (by omega) (by omega))]
  split
  · rfl
  · rw [readWordBE_congr (m := m) (m' := m') (fun j h1 h2 => h j (by omega) (by omega))]

/-- The header of a chunk whose first eight bytes are held. -/
theorem readHeader_of_holds {u : UnwrittenRead} {m : Buffer} {p k : Nat} {l0 l1 l2 l3 t0 t1 t2 t3 : Byte}
    (h : holdsBytes m p [l0, l1, l2, l3, t0, t1, t2, t3] = true) :
    readHeader u m p k = some (wordBE l0 l1 l2 l3, wordBE t0 t1 t2 t3, k) := by
  have h' : holdsBytes m p ([l0, l1, l2, l3] ++ [t0, t1, t2, t3]) = true := h
  rw [holdsBytes_append, Bool.and_eq_true] at h'
  simp only [List.length_cons, List.length_nil] at h'
  simp [readHeader, readWordBE_of_holds h'.1, readWordBE_of_holds (show holdsBytes m (p + 4) _ = true from h'.2)]

/-- The checksums of a chunk whose tag, payload and stored CRC are held. -/
theorem readChecksums_of_holds {u : UnwrittenRead} {m : Buffer} {p len k : Nat} {covered : List Byte} {c0 c1 c2 c3 : Byte}
    (h : holdsBytes m (p + 4) (covered ++ [c0, c1, c2, c3]) = true) (hl : covered.length = 4 + len) :
    readChecksums u m p len k = some (crc32 covered, wordBE c0 c1 c2 c3, k) := by
  rw [holdsBytes_append, Bool.and_eq_true, hl] at h
  have h2 : holdsBytes m (p + 8 + len) [c0, c1, c2, c3] = true := by rw [← h.2]; congr 1; omega
  simp [readChecksums, readBytes_of_holds' h.1 hl, readWordBE_of_holds h2]

/-! ### PARSE_NEXT -/

/-- Everything PARSE_NEXT can do before it scans (41_parser.md R126). -/
theorem execParseNext_cases (s : State) :
    (s.params.ibufSize < s.inLen.toNat ∧ execParseNext s = .next (raiseError .rangeError s)) ∨
    (s.inLen.toNat ≤ s.params.ibufSize ∧
      ((∃ e, s.pstate = .error e ∧ execParseNext s = .next (raiseError (errorOf e) s)) ∨
       ((s.pstate = .doneIend ∨ s.pstate = .doneEob) ∧ execParseNext s = .next (endOfWalk s)) ∨
       (s.pstate = .idle ∧ execParseNext s = parseIdle s) ∨
       (s.pstate = .scan ∧ execParseNext s = parseScan s))) := by
  unfold execParseNext
  by_cases h : s.params.ibufSize < s.inLen.toNat
  · exact .inl ⟨h, by rw [if_pos h]⟩
  refine .inr ⟨by omega, ?_⟩
  rw [if_neg h]
  cases hp : s.pstate with
  | idle => exact .inr (.inr (.inl ⟨rfl, rfl⟩))
  | scan => exact .inr (.inr (.inr ⟨rfl, rfl⟩))
  | doneIend => exact .inr (.inl ⟨.inl rfl, rfl⟩)
  | doneEob => exact .inr (.inl ⟨.inr rfl, rfl⟩)
  | error e => exact .inl ⟨e, rfl, rfl⟩

/-- Everything the IDLE arm can do (41_parser.md R126 Step 1, R128). -/
theorem parseIdle_cases (s : State) :
    (s.inLen.toNat < 8 ∧ parseIdle s = .next (failParse .magicMismatch s)) ∨
    (8 ≤ s.inLen.toNat ∧
      ((readBytes s.params.unwritten s.ibuf 0 8 s.draws = none ∧ parseIdle s = .fault .unwrittenRead) ∨
       ∃ bs k, readBytes s.params.unwritten s.ibuf 0 8 s.draws = some (bs, k) ∧
        ((bs ≠ magic ∧ parseIdle s = .next (failParse .magicMismatch { s with draws := k })) ∨
         (bs = magic ∧ parseIdle s = parseScan { s with draws := k, parsePos := 8, pstate := .scan })))) := by
  unfold parseIdle
  by_cases h : s.inLen.toNat < 8
  · exact .inl ⟨h, by rw [if_pos h]⟩
  refine .inr ⟨by omega, ?_⟩
  rw [if_neg h]
  cases hr : readBytes s.params.unwritten s.ibuf 0 8 s.draws with
  | none => exact .inl ⟨rfl, rfl⟩
  | some r =>
    obtain ⟨bs, k⟩ := r
    refine .inr ⟨bs, k, rfl, ?_⟩
    by_cases hm : bs ≠ magic
    · exact .inl ⟨hm, by simp only; rw [if_pos hm]⟩
    · exact .inr ⟨Classical.not_not.1 hm, by simp only; rw [if_neg hm]⟩

end Sys2Proof.Machine
end

