-- ==== Sys2Proof/Laws/Exec.lean ====
section
/-! SUPPORT. What each command can do, said once: every outcome PARSE_NEXT can have, and every outcome of the other ten commands. -/

namespace Sys2Proof.Machine

/-- Everything the SCAN arm of 41_parser.md R126 can do, as a relation between the state and the outcome: it stops on an unwritten
byte below IN_LEN, fails at a chunk at or past PARSE_POS, ends the walk, or returns a recognized chunk. -/
def ScanEffect (s : State) (o : Host.Outcome State Fault Refusal) : Prop :=
  (o = .fault .unwrittenRead ∧ s.params.unwritten = .fault ∧ ∃ j, j < s.inLen.toNat ∧ bufRead s.ibuf j = none) ∨
  (∃ k pos cc e, o = .next (failParse e { s with draws := k, parsePos := pos, chCalc := cc }) ∧ s.parsePos.toNat ≤ pos.toNat
     ∧ (e = .truncatedChunk ∨ e = .crcMismatch) ∧ (pos.toNat ≤ s.inLen.toNat)) ∨
  (∃ k pos cc, o = .next (endOfBuffer { s with draws := k, parsePos := pos, chCalc := cc }) ∧ s.parsePos.toNat ≤ pos.toNat
     ∧ (pos = s.parsePos ∨ pos.toNat ≤ s.inLen.toNat)) ∨
  (∃ (k : Nat) (pos stored : Word) (kind : ChunkKind) (tag len data : Word), o = .next (returnChunk kind tag len data stored { s with draws := k, parsePos := pos, chCalc := stored }) ∧
     kindOf tag = some kind ∧ s.parsePos.toNat + 8 ≤ data.toNat ∧ data.toNat + len.toNat + 4 = pos.toNat ∧ pos.toNat ≤ s.inLen.toNat)

/-- `ScanEffect` holds of the scan. -/
theorem parseScan_effect (s : State) : ScanEffect s (parseScan s) := by
  refine parseScan_induction (P := ScanEffect) ?_ ?_ s
  · intro s o h
    rcases parsePass_cases s with ⟨-, h1⟩ | ⟨h8, ⟨hn, h1⟩ | ⟨len, tag, k1, hh, ⟨-, h1⟩ | ⟨hle, ⟨hn, h1⟩ | ⟨c, st, k2, hc, h1⟩⟩⟩⟩
    · rw [h1] at h; cases h
      exact .inr (.inr (.inl ⟨s.draws, s.parsePos, s.chCalc, rfl, Nat.le_refl _, .inl rfl⟩))
    · rw [h1] at h; cases h
      obtain ⟨hu, j, hj, hb⟩ := readHeader_eq_none hn
      exact .inl ⟨rfl, hu, _, by omega, hb⟩
    · rw [h1] at h; cases h
      exact .inr (.inl ⟨k1, s.parsePos, s.chCalc, _, rfl, Nat.le_refl _, .inl rfl, by omega⟩)
    · rw [h1] at h; cases h
      obtain ⟨hu, j, hj, hj2, hb⟩ := readChecksums_eq_none hn
      exact .inl ⟨rfl, hu, _, by omega, hb⟩
    · rw [h1] at h
      rcases judgeChunk_cases len tag c st { s with draws := k2 } with ⟨-, h2⟩ | ⟨he, hk, h2⟩ | ⟨he, k, hk, h2⟩
      · rw [h2] at h; cases h
        exact .inr (.inl ⟨k2, s.parsePos, c, _, rfl, Nat.le_refl _, .inr rfl, by omega⟩)
      · rw [h2] at h; cases h
      · rw [h2] at h; cases h
        subst he
        have hp := parsePos_advance_toNat hle
        have h8' : (s.parsePos + 8).toNat = s.parsePos.toNat + 8 := by
          rw [BitVec.toNat_add]
          have := s.inLen.isLt
          have : (8 : Word).toNat = 8 := rfl
          rw [this]; omega
        refine .inr (.inr (.inr ⟨k2, s.parsePos + 12 + len, c, k, tag, len, s.parsePos + 8, rfl, hk, ?_, ?_, ?_⟩))
        · omega
        · omega
        · omega
  · intro s s' h ih
    rw [parseScan_eq, h]
    simp only
    have hpr := parsePass_again_progress h
    obtain ⟨len, tag, k1, k2, stored, -, -, hle, -, rfl⟩ := parsePass_again h
    have hp := parsePos_advance_toNat hle
    simp only [skipTo] at *
    rcases ih with ⟨h1, h2, j, hj, hb⟩ | ⟨k, pos, calc', e, h1, h2, h3, h4⟩ | ⟨k, pos, calc', h1, h2, h3⟩ | ⟨k, pos, stored, kind, tag, len', data, h1, h2, h3, h4, h5⟩
    · exact .inl ⟨h1, h2, j, hj, hb⟩
    · refine .inr (.inl ⟨k, pos, calc', e, h1, ?_, h3, h4⟩); simp only at *; omega
    · refine .inr (.inr (.inl ⟨k, pos, calc', h1, ?_, ?_⟩)) <;> simp only at *
      · omega
      · rcases h3 with rfl | h3
        · right; omega
        · exact .inr h3
    · refine .inr (.inr (.inr ⟨k, pos, stored, kind, tag, len', data, h1, h2, ?_, h4, h5⟩)); simp only at *; omega

/-- Everything PARSE_NEXT can do, the scan summed up by `ScanEffect`. -/
theorem execParseNext_effect {s : State} {o} (h : execParseNext s = o) :
   (o = .fault .unwrittenRead ∧ s.params.unwritten = .fault ∧ ∃ j, j < s.inLen.toNat ∧ bufRead s.ibuf j = none) ∨
   (s.params.ibufSize < s.inLen.toNat ∧ o = .next (raiseError .rangeError s)) ∨
   (s.inLen.toNat ≤ s.params.ibufSize ∧ ∃ e, s.pstate = .error e ∧ o = .next (raiseError (errorOf e) s)) ∨
   (s.inLen.toNat ≤ s.params.ibufSize ∧ (s.pstate = .doneIend ∨ s.pstate = .doneEob) ∧ o = .next (endOfWalk s)) ∨
   (s.inLen.toNat ≤ s.params.ibufSize ∧ s.pstate = .idle ∧ ∃ k, o = .next (failParse .magicMismatch { s with draws := k })) ∨
   (s.inLen.toNat ≤ s.params.ibufSize ∧ s.pstate = .idle ∧ 8 ≤ s.inLen.toNat ∧ ∃ k, ScanEffect { s with draws := k, parsePos := 8, pstate := .scan } o) ∨
   (s.inLen.toNat ≤ s.params.ibufSize ∧ s.pstate = .scan ∧ ScanEffect s o) := by
  rcases execParseNext_cases s with ⟨h1, e⟩ | ⟨h1, ⟨e', h2, e⟩ | ⟨h2, e⟩ | ⟨h2, e⟩ | ⟨h2, e⟩⟩
  · rw [e] at h; exact .inr (.inl ⟨h1, h.symm⟩)
  · rw [e] at h; exact .inr (.inr (.inl ⟨h1, e', h2, h.symm⟩))
  · rw [e] at h; exact .inr (.inr (.inr (.inl ⟨h1, h2, h.symm⟩)))
  · rw [e] at h
    rcases parseIdle_cases s with ⟨h3, e⟩ | ⟨h3, ⟨h4, e⟩ | ⟨bs, k, h4, ⟨h5, e⟩ | ⟨h5, e⟩⟩⟩
    · rw [e] at h; exact .inr (.inr (.inr (.inr (.inl ⟨h1, h2, s.draws, h.symm⟩))))
    · rw [e] at h
      obtain ⟨hu, j, hj, hb⟩ := readBytes_eq_none.1 h4
      exact .inl ⟨h.symm, hu, _, by omega, hb⟩
    · rw [e] at h; exact .inr (.inr (.inr (.inr (.inl ⟨h1, h2, k, h.symm⟩))))
    · rw [e] at h; exact .inr (.inr (.inr (.inr (.inr (.inl ⟨h1, h2, h3, k, h ▸ parseScan_effect _⟩)))))
  · rw [e] at h; exact .inr (.inr (.inr (.inr (.inr (.inr ⟨h1, h2, h ▸ parseScan_effect _⟩)))))

/-- Everything a command other than PARSE_NEXT can do, as a relation between the command, the state and the outcome. -/
def CommandEffect (i : Instr) (s : State) (o : Host.Outcome State Fault Refusal) : Prop :=
  (o = .fault .unwrittenRead ∧ s.params.unwritten = .fault ∧ (i = .crcBuf ∨ ∃ t b, i = .rowUnfilt t b)) ∨
  (∃ e, o = .next (raiseError e s)) ∨
  (∃ x k, i.opcode ∈ [Opcode.crcInit, .crcByte, .crcBuf] ∧ o = .next (succeed { s with crcState := x, draws := k })) ∨
  (i = .nop ∧ o = .next (succeed s)) ∨
  (i = .crcFinal ∧ o = .next (succeed { s with result := s.crcState ^^^ 0xFFFFFFFF })) ∨
  (i = .parseReset ∧ o = .next (succeed { s with
    pstate := .idle, parsePos := 0, chType := 0, chLen := 0, chData := 0, chCrc := 0, chCalc := 0 })) ∨
  (∃ a b c, i = .paeth a b c ∧ o = .next (succeed { s with result := zext32 (paeth a b c) })) ∨
  (∃ t f, i = .unfilt t ∧ filterOfTag t = some f ∧ o = .next (succeed { s with result := zext32 (recon f (unfiltFilt s) (unfiltA s) (unfiltB s) (unfiltC s)) })) ∨
  (i = .rowClear ∧ o = .next (succeed { s with prior := fillZero s.params.rowMax s.prior })) ∨
  (∃ t b f cur row k, i = .rowUnfilt t b ∧ s.arg0.toNat ≤ s.params.rowMax ∧ row.length = s.arg0.toNat ∧
     reconRow s.params.unwritten f b.toNat s.prior s.arg0.toNat 0 s.cur s.draws = some (cur, k) ∧
     o = .next (succeed { s with cur := cur, prior := writeBytes s.prior 0 row, draws := k }))

/-- `CommandEffect` holds of every command but PARSE_NEXT, which `execParseNext_effect` covers. -/
theorem exec_effect (i : Instr) (s : State) (h : i ≠ .parseNext) : CommandEffect i s (exec i s) := by
  cases i with
  | parseNext => exact absurd rfl h
  | nop => exact .inr (.inr (.inr (.inl ⟨rfl, rfl⟩)))
  | crcInit => exact .inr (.inr (.inl ⟨_, s.draws, by simp [Instr.opcode], rfl⟩))
  | crcByte d => exact .inr (.inr (.inl ⟨_, s.draws, by simp [Instr.opcode], rfl⟩))
  | crcBuf =>
    show CommandEffect _ s (execCrcBuf s)
    rcases execCrcBuf_cases s with ⟨_, e⟩ | ⟨_, _, e⟩ | ⟨_, _, e1, e⟩ | ⟨_, _, bs', k, e1, e⟩ <;> rw [e]
    · exact .inr (.inl ⟨_, rfl⟩)
    · exact .inr (.inl ⟨_, rfl⟩)
    · exact .inl ⟨rfl, (readBytes_eq_none.1 e1).1, .inl rfl⟩
    · exact .inr (.inr (.inl ⟨_, _, by simp [Instr.opcode], rfl⟩))
  | crcFinal => exact .inr (.inr (.inr (.inr (.inl ⟨rfl, rfl⟩))))
  | parseReset => exact .inr (.inr (.inr (.inr (.inr (.inl ⟨rfl, rfl⟩)))))
  | paeth a b c => exact .inr (.inr (.inr (.inr (.inr (.inr (.inl ⟨a, b, c, rfl, rfl⟩))))))
  | unfilt t =>
    show CommandEffect _ s (execUnfilt t s)
    rcases execUnfilt_cases t s with ⟨_, e⟩ | ⟨f, hf, e⟩ <;> rw [e]
    · exact .inr (.inl ⟨_, rfl⟩)
    · exact .inr (.inr (.inr (.inr (.inr (.inr (.inr (.inl ⟨t, f, rfl, hf, rfl⟩)))))))
  | rowClear => exact .inr (.inr (.inr (.inr (.inr (.inr (.inr (.inr (.inl ⟨rfl, rfl⟩))))))))
  | rowUnfilt t b =>
    show CommandEffect _ s (execRowUnfilt t b s)
    rcases execRowUnfilt_cases t b s with ⟨_, e⟩ | ⟨_, _, e⟩ | ⟨_, _, _, e⟩ | ⟨hb, hl, f, _, e⟩ <;> rw [e]
    · exact .inr (.inl ⟨_, rfl⟩)
    · exact .inr (.inl ⟨_, rfl⟩)
    · exact .inr (.inl ⟨_, rfl⟩)
    · rcases unfiltRow_cases f b.toNat s.arg0.toNat s with ⟨h1, e⟩ | ⟨cur, row, k, h1, h2, h3, e⟩ <;> rw [e]
      · exact .inl ⟨rfl, (reconRow_eq_none h1 hb (by intro j hj; omega)).1, .inr ⟨t, b, rfl⟩⟩
      · exact .inr (.inr (.inr (.inr (.inr (.inr (.inr (.inr (.inr ⟨t, b, f, cur, row, k, rfl, hl, h2, h1, rfl⟩))))))))

/-! ### The host's side does not reach a command -/

/-- A state with another schedule and other host data: the two fields of the host's side. -/
abbrev State.withHostSide (sched : List Turn) (data : Option ReadData) (s : State) : State :=
  { s with schedule := sched, hostRead := data }

/-- An outcome with its next state changed. -/
def mapNext (f : State → State) (o : Host.Outcome State Fault Refusal) : Host.Outcome State Fault Refusal :=
  match o with
  | .next t => .next (f t)
  | .fault r => .fault r
  | .refused r => .refused r

/-- A pass of the skip loop neither reads nor writes the host's side. -/
theorem parsePass_hostSide (sched : List Turn) (data : Option ReadData) (s : State) :
    parsePass (s.withHostSide sched data) = match parsePass s with
      | .done o => .done (mapNext (State.withHostSide sched data) o)
      | .again s' => .again (s'.withHostSide sched data) := by
  rcases parsePass_cases s with ⟨h, e⟩ | ⟨h, ⟨hn, e⟩ | ⟨len, tag, k1, hr, ⟨h2, e⟩ | ⟨h2, ⟨hn, e⟩ | ⟨c, st, k2, hc, e⟩⟩⟩⟩ <;>
    rw [e] <;> simp only [parsePass, State.withHostSide]
  · rw [if_pos h]; rfl
  · rw [if_neg (by omega), hn]; rfl
  · rw [if_neg (by omega), hr]; simp only; rw [if_pos h2]; rfl
  · rw [if_neg (by omega), hr]; simp only; rw [if_neg (by omega), hn]; rfl
  · rw [if_neg (by omega), hr]; simp only; rw [if_neg (by omega), hc]
    simp only [judgeChunk]
    split
    · rfl
    · cases kindOf tag <;> rfl

theorem parseScan_hostSide (sched : List Turn) (data : Option ReadData) (s : State) :
    parseScan (s.withHostSide sched data) = mapNext (State.withHostSide sched data) (parseScan s) := by
  refine parseScan_induction
    (P := fun s o => parseScan (s.withHostSide sched data) = mapNext (State.withHostSide sched data) o) ?_ ?_ s
  · intro s o h
    rw [parseScan_eq, parsePass_hostSide, h]
  · intro s s' h ih
    rw [parseScan_eq, parsePass_hostSide, h, parseScan_eq s, h]
    exact ih

/-- No command reads or writes the schedule or the host's data. -/
theorem exec_hostSide (sched : List Turn) (data : Option ReadData) (i : Instr) (s : State) :
    exec i (s.withHostSide sched data) = mapNext (State.withHostSide sched data) (exec i s) := by
  cases i with
  | crcBuf =>
    show execCrcBuf _ = mapNext _ (execCrcBuf s)
    rcases execCrcBuf_cases s with ⟨h, e⟩ | ⟨h1, h2, e⟩ | ⟨h1, h2, hr, e⟩ | ⟨h1, h2, bs, k, hr, e⟩ <;> rw [e]
    · exact if_pos h
    · exact (if_neg (Nat.not_lt.2 h1)).trans (if_pos h2)
    · refine (if_neg (Nat.not_lt.2 h1)).trans ((if_neg (Nat.not_lt.2 h2)).trans ?_)
      rw [show readBytes _ _ (crcBufStart (s.withHostSide sched data)) (crcBufCount (s.withHostSide sched data)) _ = _ from hr]
      rfl
    · refine (if_neg (Nat.not_lt.2 h1)).trans ((if_neg (Nat.not_lt.2 h2)).trans ?_)
      rw [show readBytes _ _ (crcBufStart (s.withHostSide sched data)) (crcBufCount (s.withHostSide sched data)) _ = _ from hr]
      rfl
  | parseNext =>
    show execParseNext _ = mapNext _ (execParseNext s)
    unfold execParseNext
    split
    · rfl
    · cases s.pstate with
      | error e => rfl
      | doneIend => rfl
      | doneEob => rfl
      | scan => exact parseScan_hostSide sched data s
      | idle =>
        simp only [parseIdle]
        split
        · rfl
        · cases readBytes s.params.unwritten s.ibuf 0 8 s.draws with
          | none => rfl
          | some r =>
            simp only
            split
            · rfl
            · exact parseScan_hostSide sched data { s with draws := r.2, parsePos := 8, pstate := .scan }
  | unfilt t =>
    simp only [exec, execUnfilt]
    cases filterOfTag t <;> rfl
  | rowUnfilt t bpp =>
    show execRowUnfilt _ _ _ = mapNext _ (execRowUnfilt t bpp s)
    rcases execRowUnfilt_cases t bpp s with ⟨h, e⟩ | ⟨h, hf, e⟩ | ⟨h, ⟨f, hf⟩, hr, e⟩ | ⟨h, hr, f, hf, e⟩ <;> rw [e] <;>
      simp only [execRowUnfilt]
    · rw [if_pos h]; rfl
    · rw [if_neg h, hf]; rfl
    · rw [if_neg h, hf]; exact if_pos hr
    · rw [if_neg h, hf]
      refine (if_neg (Nat.not_lt.2 hr)).trans ?_
      show unfiltRow f bpp.toNat s.arg0.toNat (s.withHostSide sched data) = _
      simp only [unfiltRow]
      cases reconRow s.params.unwritten f bpp.toNat s.prior s.arg0.toNat 0 s.cur s.draws with
      | none => rfl
      | some r =>
        simp only
        cases readBytes s.params.unwritten r.1 0 s.arg0.toNat r.2 <;> rfl
  | nop => rfl
  | crcInit => rfl
  | crcByte d => rfl
  | crcFinal => rfl
  | parseReset => rfl
  | paeth a b c => rfl
  | rowClear => rfl

end Sys2Proof.Machine
end

