-- ==== Sys2Proof/Laws/Flags.lean ====
section
/-! SUPPORT. The fields of the STATUS word are where 10_state.md R33 puts them. -/

namespace Sys2Proof.Machine

/-- A field inside the lower part of a concatenation. -/
theorem extract_append_low {n m k : Nat} (x : BitVec n) (y : BitVec m) (i : Nat) (hi : i + k ≤ m) :
    (x ++ y).extractLsb' i k = y.extractLsb' i k := by
  apply BitVec.eq_of_getLsbD_eq
  intro j hj
  simp only [BitVec.getLsbD_extractLsb', BitVec.getLsbD_append]
  rw [if_pos (by omega)]

/-- A field at or above the start of the upper part of a concatenation. -/
theorem extract_append_high {n m k : Nat} (x : BitVec n) (y : BitVec m) (i : Nat) (hi : m ≤ i) :
    (x ++ y).extractLsb' i k = x.extractLsb' (i - m) k := by
  apply BitVec.eq_of_getLsbD_eq
  intro j hj
  simp only [BitVec.getLsbD_extractLsb', BitVec.getLsbD_append]
  rw [if_neg (by omega)]
  congr 2; omega

/-- BUSY is bit 0 of the word; the lemmas below say the same of the other fields. -/
theorem statusWord_busy (s : State) : (statusWord s).extractLsb' 0 1 = statusBusy s := by
  unfold statusWord
  rw [extract_append_low _ _ _ (by decide)]
  simp

theorem statusWord_err (s : State) : (statusWord s).extractLsb' 1 1 = statusErr s := by
  unfold statusWord
  iterate 1 rw [extract_append_high _ _ _ (by decide)]
  rw [extract_append_low _ _ _ (by decide)]
  simp

theorem statusWord_errCode (s : State) : (statusWord s).extractLsb' 4 4 = statusErrCode s := by
  unfold statusWord
  iterate 3 rw [extract_append_high _ _ _ (by decide)]
  rw [extract_append_low _ _ _ (by decide)]
  simp

theorem statusWord_pstate (s : State) : (statusWord s).extractLsb' 8 3 = statusPState s := by
  unfold statusWord
  iterate 4 rw [extract_append_high _ _ _ (by decide)]
  rw [extract_append_low _ _ _ (by decide)]
  simp

theorem statusWord_perr (s : State) : (statusWord s).extractLsb' 12 4 = statusPErr s := by
  unfold statusWord
  iterate 6 rw [extract_append_high _ _ _ (by decide)]
  rw [extract_append_low _ _ _ (by decide)]
  simp

theorem statusWord_reserved2 (s : State) : (statusWord s).extractLsb' 2 2 = 0 := by
  unfold statusWord
  iterate 2 rw [extract_append_high _ _ _ (by decide)]
  rw [extract_append_low _ _ _ (by decide)]
  simp

theorem statusWord_reserved11 (s : State) : (statusWord s).extractLsb' 11 1 = 0 := by
  unfold statusWord
  iterate 5 rw [extract_append_high _ _ _ (by decide)]
  rw [extract_append_low _ _ _ (by decide)]
  simp

theorem statusWord_reserved16 (s : State) : (statusWord s).extractLsb' 16 16 = 0 := by
  unfold statusWord
  iterate 7 rw [extract_append_high _ _ _ (by decide)]
  simp

end Sys2Proof.Machine
end

