-- ==== Sys2Proof/Laws/Host.lean ====
section
/-! SUPPORT. Host accesses and turns: what each can do. -/

namespace Sys2Proof.Machine

/-! ### The register map -/

theorem regAt_regOffset (r : RegName) : regAt (regOffset r) = some r := by cases r <;> rfl

theorem regAt_eq_some {o : Nat} {r : RegName} : regAt o = some r ↔ o = regOffset r := by
  constructor
  · intro h
    have := List.find?_some h
    exact (beq_iff_eq.1 this).symm
  · rintro rfl
    exact regAt_regOffset r

theorem regOffset_bounds (r : RegName) : regOffset r % 4 = 0 ∧ regOffset r < 0x34 := by cases r <;> decide

/-- Every multiple of 4 below 0x34 is a register's offset (10_state.md R38). -/
theorem regAt_isSome {o : Nat} (h : o % 4 = 0) (hlt : o < 0x34) : ∃ r, regAt o = some r := by
  have : o = 0 ∨ o = 4 ∨ o = 8 ∨ o = 12 ∨ o = 16 ∨ o = 20 ∨ o = 24 ∨ o = 28 ∨ o = 32 ∨ o = 36 ∨ o = 40 ∨ o = 44 ∨
      o = 48 := by omega
  rcases this with rfl | rfl | rfl | rfl | rfl | rfl | rfl | rfl | rfl | rfl | rfl | rfl | rfl <;>
    exact ⟨_, rfl⟩

/-! ### Windows -/

/-- The byte an offset reaches lies in that buffer's window (20_memory.md R63). -/
theorem byteAt_eq_some {p : Params} {o : Nat} {b : BufId} {i : Nat} (h : byteAt p o = some (b, i)) :
    inWindow p b o ∧ o = bufBase b + i ∧ i < bufSize p b := by
  unfold byteAt at h
  unfold inWindow
  split at h
  · simp only [Option.some.injEq, Prod.mk.injEq] at h
    obtain ⟨rfl, rfl⟩ := h
    simp only [bufBase, bufSize]
    omega
  · split at h
    · simp only [Option.some.injEq, Prod.mk.injEq] at h
      obtain ⟨rfl, rfl⟩ := h
      simp only [bufBase, bufSize]
      omega
    · split at h
      · simp only [Option.some.injEq, Prod.mk.injEq] at h
        obtain ⟨rfl, rfl⟩ := h
        simp only [bufBase, bufSize]
        omega
      · simp at h

theorem byteAt_eq_none {p : Params} {o : Nat} : byteAt p o = none ↔ ∀ b, ¬ inWindow p b o := by
  unfold byteAt inWindow
  constructor
  · intro h b
    split at h
    · simp at h
    · split at h
      · simp at h
      · split at h
        · simp at h
        · cases b <;> simp only [bufBase, bufSize] <;> assumption
  · intro h
    have h1 := h .cur; have h2 := h .prior; have h3 := h .ibuf
    simp only [bufBase, bufSize] at h1 h2 h3
    rw [if_neg h1, if_neg h2, if_neg h3]

/-- For legal parameters the windows do not overlap (20_memory.md R63), so the window names the byte. -/
theorem byteAt_of_inWindow {p : Params} (hp : p.legal) {b : BufId} {o : Nat} (h : inWindow p b o) :
    byteAt p o = some (b, o - bufBase b) := by
  obtain ⟨-, h2, -, h4⟩ := hp
  have e1 : curBase = 0x10000 := rfl
  have e2 : priorBase = 0x20000 := rfl
  have e3 : ibufBase = 0x80000000 := rfl
  unfold byteAt
  cases b <;> simp only [inWindow, bufBase, bufSize] at h ⊢
  · rw [if_neg (by omega), if_neg (by omega), if_pos h]
  · rw [if_pos h]
  · rw [if_neg (by omega), if_pos h]

/-! ### Accesses -/

/-- Everything a 32-bit access can reach. -/
theorem target32_cases (p : Params) (o : Nat) :
    target32 p o = none ∨ (∃ r, o = regOffset r ∧ target32 p o = some (.reg r)) ∨
    (∃ b i, o % 4 = 0 ∧ byteAt p o = some (b, i) ∧ i + 4 ≤ bufSize p b ∧ target32 p o = some (.bytes b i)) := by
  unfold target32
  split
  · exact .inl rfl
  · split
    · rename_i r hr
      exact .inr (.inl ⟨r, regAt_eq_some.1 hr, rfl⟩)
    · split
      · rename_i b i hb
        split
        · rename_i hle
          exact .inr (.inr ⟨b, i, by omega, hb, hle, rfl⟩)
        · exact .inl rfl
      · exact .inl rfl

theorem target32_reg (p : Params) (r : RegName) : target32 p (regOffset r) = some (.reg r) := by
  have := regOffset_bounds r
  unfold target32
  rw [if_neg (by omega), regAt_regOffset]

/-- A register's offset, as a host offset, is its offset. -/
theorem regAddr_toNat (r : RegName) : (regAddr r).toNat = regOffset r := by cases r <;> rfl

/-- A host read of a register answers its value and changes nothing else (20_memory.md R67). -/
theorem accessIdle_read_reg (r : RegName) (s : State) :
    accessIdle (.read32 (regAddr r)) s = .next { s with hostRead := some (.word (readReg r s)) } := by
  simp [accessIdle, hostRead32, regAddr_toNat, target32_reg]

/-- A host write of a register is `writeReg`. -/
theorem accessIdle_write_reg (r : RegName) (v : Word) (s : State) :
    accessIdle (.write32 (regAddr r) v) s = .next (writeReg r v s) := by
  simp [accessIdle, hostWrite32, regAddr_toNat, target32_reg]

/-- Everything a host write of a register can change: the schedule, the buffers and the parameters stay. -/
theorem writeReg_keeps (r : RegName) (v : Word) (s : State) :
    (writeReg r v s).ibuf = s.ibuf ∧ (writeReg r v s).cur = s.cur ∧ (writeReg r v s).prior = s.prior ∧
    (writeReg r v s).schedule = s.schedule ∧ (writeReg r v s).params = s.params ∧ (writeReg r v s).pstate = s.pstate ∧
    (writeReg r v s).lastError = s.lastError ∧ (writeReg r v s).result = s.result ∧
    (writeReg r v s).crcState = s.crcState ∧ (writeReg r v s).parsePos = s.parsePos := by
  cases r <;> simp [writeReg]

/-- A read answers its data and the next draw number, or stops. -/
theorem answerRead_cases (r : Option (ReadData × Nat)) (s : State) :
    (r = none ∧ answerRead r s = .fault .unwrittenRead) ∨
    (∃ d k, r = some (d, k) ∧ answerRead r s = .next { s with hostRead := some d, draws := k }) := by
  cases r with
  | none => exact .inl ⟨rfl, rfl⟩
  | some r => exact .inr ⟨r.1, r.2, rfl, rfl⟩

/-- Everything a host access can do (70_reset_and_hazards.md R225). -/
theorem hostAccess_cases (a : HostAccess) (s : State) :
    (s.busy = true ∧ isStatusRead a = false ∧ hostAccess a s = .fault .accessWhileBusy) ∨
    ((s.busy = true → isStatusRead a = true) ∧ hostAccess a s = accessIdle a s) := by
  unfold hostAccess
  split
  · rename_i h; exact .inl ⟨h.1, h.2, rfl⟩
  · rename_i h
    refine .inr ⟨fun hb => ?_, rfl⟩
    cases hs : isStatusRead a with
    | true => rfl
    | false => exact absurd ⟨hb, hs⟩ h

/-! ### Accesses to a buffer -/

theorem bufAddr_toNat {p : Params} (hp : p.legal) {b : BufId} {i : Nat} (hi : i < bufSize p b) :
    (bufAddr b i).toNat = bufBase b + i := by
  obtain ⟨h1, h2, h3, h4⟩ := hp
  have e1 : curBase = 0x10000 := rfl
  have e2 : priorBase = 0x20000 := rfl
  have e3 : ibufBase = 0x80000000 := rfl
  simp only [bufAddr, BitVec.toNat_ofNat]
  cases b <;> simp only [bufBase, bufSize] at hi ⊢ <;> omega

/-- The offset of a buffer byte reaches that byte (20_memory.md R63). -/
theorem byteAt_bufAddr {p : Params} (hp : p.legal) {b : BufId} {i : Nat} (hi : i < bufSize p b) :
    byteAt p (bufAddr b i).toNat = some (b, i) := by
  rw [bufAddr_toNat hp hi, byteAt_of_inWindow hp (b := b) (by unfold inWindow; omega)]
  simp

/-- An aligned word inside a buffer is reached by a 32-bit access (20_memory.md R63). -/
theorem target32_bufAddr {p : Params} (hp : p.legal) {b : BufId} {i : Nat} (ha : i % 4 = 0) (hi : i + 4 ≤ bufSize p b) :
    target32 p (bufAddr b i).toNat = some (.bytes b i) := by
  have hn := bufAddr_toNat hp (b := b) (i := i) (by omega)
  have hb := byteAt_bufAddr hp (b := b) (i := i) (by omega)
  have e1 : curBase = 0x10000 := rfl
  have e2 : priorBase = 0x20000 := rfl
  have e3 : ibufBase = 0x80000000 := rfl
  have hlow : 0x34 ≤ (bufAddr b i).toNat ∧ (bufAddr b i).toNat % 4 = 0 := by
    rw [hn]; cases b <;> simp only [bufBase] <;> omega
  unfold target32
  rw [if_neg (by omega)]
  cases hr : regAt (bufAddr b i).toNat with
  | some r =>
    have := regAt_eq_some.1 hr
    have := regOffset_bounds r
    omega
  | none => simp only [hb]; rw [if_pos hi]

theorem hostAccess_idle {s : State} (h : s.busy = false) (a : HostAccess) : hostAccess a s = accessIdle a s := by
  unfold hostAccess
  rw [if_neg (by simp [h])]

/-- Another content of one buffer leaves every other buffer and everything else. -/
theorem setBuf_keeps (s : State) (b : BufId) (m : Buffer) :
    s.setBuf b m = { s with ibuf := (s.setBuf b m).ibuf, cur := (s.setBuf b m).cur, prior := (s.setBuf b m).prior } ∧
    (s.setBuf b m).buf b = m ∧ ∀ b', b' ≠ b → (s.setBuf b m).buf b' = s.buf b' := by
  cases b <;> refine ⟨rfl, rfl, fun b' h => ?_⟩ <;> cases b' <;> first | rfl | exact absurd rfl h

/-- What every host access that answers leaves: the registers the host cannot write, the schedule and the parameters. -/
theorem hostAccess_keeps {a : HostAccess} {s t : State} (h : hostAccess a s = .next t) :
    t.result = s.result ∧ t.crcState = s.crcState ∧ t.pstate = s.pstate ∧ t.lastError = s.lastError ∧
    t.parsePos = s.parsePos ∧ t.schedule = s.schedule ∧ t.params = s.params := by
  have ans : ∀ r, answerRead r s = .next t → t.result = s.result ∧ t.crcState = s.crcState ∧ t.pstate = s.pstate ∧
      t.lastError = s.lastError ∧ t.parsePos = s.parsePos ∧ t.schedule = s.schedule ∧ t.params = s.params := by
    intro r h
    rcases answerRead_cases r s with ⟨_, e⟩ | ⟨d, k, _, e⟩ <;> rw [e] at h <;> cases h
    simp
  have buf : ∀ b m, s.setBuf b m = t → t.result = s.result ∧ t.crcState = s.crcState ∧ t.pstate = s.pstate ∧
      t.lastError = s.lastError ∧ t.parsePos = s.parsePos ∧ t.schedule = s.schedule ∧ t.params = s.params := by
    rintro b m rfl
    cases b <;> simp [State.setBuf]
  rcases hostAccess_cases a s with ⟨_, _, e⟩ | ⟨_, e⟩ <;> rw [e] at h
  · cases h
  cases a with
  | read8 o =>
    simp only [accessIdle, hostRead8] at h
    split at h
    · cases h
    · exact ans _ h
  | read16 o => cases h
  | write16 o v => cases h
  | read32 o =>
    simp only [accessIdle, hostRead32] at h
    split at h
    · cases h
    · cases h; simp
    · exact ans _ h
  | write8 o v =>
    simp only [accessIdle, hostWrite8] at h
    split at h
    · cases h
    · exact buf _ _ (by simpa using h)
  | write32 o v =>
    simp only [accessIdle, hostWrite32] at h
    split at h
    · cases h
    · rename_i r _
      cases h
      have := writeReg_keeps r v s
      tauto
    · exact buf _ _ (by simpa using h)

/-! ### Steps -/

/-- With nothing scheduled, the step is the block's turn. -/
theorem step_nil {s : State} (h : s.schedule = []) : step s = blockTurn s := by simp [step, h]

/-- With a turn scheduled, the step takes it. -/
theorem step_cons {s : State} {t : Turn} {rest : List Turn} (h : s.schedule = t :: rest) :
    step s = takeTurn t { s with schedule := rest } := by simp [step, h]

theorem blockTurn_busy {s : State} (h : s.busy = true) : blockTurn s = runWord s.cmd s := by
  simp [blockTurn, pending_of_busy h]

theorem blockTurn_idle {s : State} (h : s.busy = false) : blockTurn s = .next s := by
  simp [blockTurn, pending_of_idle h]

/-- One step of a run. -/
theorem core_run_succ {k : Nat} {s t : State} (h : step s = .next t) :
    Host.Core.run Sys2Proof.core (k + 1) s = Host.Core.run Sys2Proof.core k t := by
  have h' : Host.Core.step Sys2Proof.core s = .next t := h
  simp only [Host.Core.run, h']

end Sys2Proof.Machine
end

