-- ==== Sys2Proof/Laws/PerInstr.lean ====
section
/-! SUPPORT. The family of statements made per command: the fields of a command's word (30_encoding.md R80, R83). -/

namespace Sys2Proof.Laws.EncodedFields

/-- The word of a command carries the row's OPC in bits 7:0, and 0 in every field the row marks "0". -/
abbrev Statement (i : Instr) : Prop :=
  fieldOPC (encode i) = i.opcode.code ∧
  (i.opcode.f1Zero = true → fieldF1 (encode i) = 0) ∧
  (i.opcode.f2Zero = true → fieldF2 (encode i) = 0) ∧
  (i.opcode.f3Zero = true → fieldF3 (encode i) = 0)

/-! ### The fields of a packed word -/

theorem fieldOPC_packWord (f3 f2 f1 opc : Byte) : fieldOPC (packWord f3 f2 f1 opc) = opc := by
  apply BitVec.eq_of_getLsbD_eq
  intro i hi
  simp only [fieldOPC, packWord, BitVec.getLsbD_extractLsb', BitVec.getLsbD_append]
  simp [hi]

theorem fieldF1_packWord (f3 f2 f1 opc : Byte) : fieldF1 (packWord f3 f2 f1 opc) = f1 := by
  apply BitVec.eq_of_getLsbD_eq
  intro i hi
  simp only [fieldF1, packWord, BitVec.getLsbD_extractLsb', BitVec.getLsbD_append]
  simp [hi]

theorem fieldF2_packWord (f3 f2 f1 opc : Byte) : fieldF2 (packWord f3 f2 f1 opc) = f2 := by
  apply BitVec.eq_of_getLsbD_eq
  intro i hi
  have h1 : ¬ 16 + i < 8 := by omega
  have h2 : ¬ 16 + i - 8 < 8 := by omega
  have h3 : 16 + i - 8 - 8 < 8 := by omega
  have h4 : 16 + i - 8 - 8 = i := by omega
  simp only [fieldF2, packWord, BitVec.getLsbD_extractLsb', BitVec.getLsbD_append]
  simp [hi, h1, h2, h4]

theorem fieldF3_packWord (f3 f2 f1 opc : Byte) : fieldF3 (packWord f3 f2 f1 opc) = f3 := by
  apply BitVec.eq_of_getLsbD_eq
  intro i hi
  have h1 : ¬ 24 + i < 8 := by omega
  have h2 : ¬ 24 + i - 8 < 8 := by omega
  have h3 : ¬ 24 + i - 8 - 8 < 8 := by omega
  have h4 : 24 + i - 8 - 8 - 8 = i := by omega
  simp only [fieldF3, packWord, BitVec.getLsbD_extractLsb', BitVec.getLsbD_append]
  simp [hi, h1, h2, h3, h4]

/-! ### One lemma per command -/

theorem nop : Statement .nop := by decide
theorem crcInit : Statement .crcInit := by decide
theorem crcByte (d : Byte) : Statement (.crcByte d) :=
  ⟨fieldOPC_packWord _ _ _ _, by simp [Instr.opcode, Opcode.f1Zero], fun _ => fieldF2_packWord _ _ _ _,
    fun _ => fieldF3_packWord _ _ _ _⟩
theorem crcBuf : Statement .crcBuf := by decide
theorem crcFinal : Statement .crcFinal := by decide
theorem parseReset : Statement .parseReset := by decide
theorem parseNext : Statement .parseNext := by decide
theorem paeth (a b c : Byte) : Statement (.paeth a b c) :=
  ⟨fieldOPC_packWord _ _ _ _, by simp [Instr.opcode, Opcode.f1Zero], by simp [Instr.opcode, Opcode.f2Zero],
    by simp [Instr.opcode, Opcode.f3Zero]⟩
theorem unfilt (t : Byte) : Statement (.unfilt t) :=
  ⟨fieldOPC_packWord _ _ _ _, by simp [Instr.opcode, Opcode.f1Zero], fun _ => fieldF2_packWord _ _ _ _,
    fun _ => fieldF3_packWord _ _ _ _⟩
theorem rowClear : Statement .rowClear := by decide
theorem rowUnfilt (t bpp : Byte) : Statement (.rowUnfilt t bpp) :=
  ⟨fieldOPC_packWord _ _ _ _, by simp [Instr.opcode, Opcode.f1Zero], by simp [Instr.opcode, Opcode.f2Zero],
    fun _ => fieldF3_packWord _ _ _ _⟩

end Sys2Proof.Laws.EncodedFields
end

