-- ==== Sys2Proof/Tests/Slice0.lean ====
section
/-! SUPPORT. The model's own tests: well-formedness, decoding of words written out bit by bit, one step per test with the expected
values of spec/95_test_vectors.md, and a witness for the hypotheses of every statement that has some. -/

namespace Sys2Proof.Tests

open Sys2Proof Sys2Proof.Machine

/-! ### Well-formedness (42_defilter.md R152, R156) -/

theorem test_wf_unfilt_last_tag : Instr.wf (.unfilt 4) = true := by decide
theorem test_wf_unfilt_tag_5_refused : Instr.wf (.unfilt 5) = false := by decide
theorem test_wf_row_tag_5_refused : Instr.wf (.rowUnfilt 5 1) = false := by decide
theorem test_wf_row_bpp_0_refused : Instr.wf (.rowUnfilt 4 0) = false := by decide
theorem test_wf_row_legal : Instr.wf (.rowUnfilt 4 255) = true := by decide

/-! ### Decoding: words in the order F3, F2, F1, OPC (30_encoding.md R80, R83; 95 section 2.2) -/

theorem test_decode_nop : decode 0b00000000000000000000000000000000 = .ok .nop := rfl
theorem test_decode_crcInit : decode 0b00000000000000000000000000000001 = .ok .crcInit := rfl
theorem test_decode_crcByte : decode 0b00000000000000000100100100000010 = .ok (.crcByte 0x49) := rfl
theorem test_decode_crcBuf : decode 0b00000000000000000000000000000011 = .ok .crcBuf := rfl
theorem test_decode_crcFinal : decode 0b00000000000000000000000000000100 = .ok .crcFinal := rfl
theorem test_decode_parseReset : decode 0b00000000000000000000000000010000 = .ok .parseReset := rfl
theorem test_decode_parseNext : decode 0b00000000000000000000000000010001 = .ok .parseNext := rfl
theorem test_decode_paeth : decode 0b00001111000101000000101000100000 = .ok (.paeth 10 20 15) := rfl
theorem test_decode_unfilt : decode 0b00000000000000000000010000100001 = .ok (.unfilt 4) := rfl
theorem test_decode_rowClear : decode 0b00000000000000000000000000100010 = .ok .rowClear := rfl
theorem test_decode_rowUnfilt : decode 0b00000000000000110000010000100011 = .ok (.rowUnfilt 4 3) := rfl
theorem test_decode_paeth_all_ones : decode 0b11111111111111111111111100100000 = .ok (.paeth 255 255 255) := rfl

/-- 30_encoding.md R85: the ends of the three ranges of undefined OPC values. -/
theorem test_undefined_opcodes :
    decode 0x05 = .error .undefinedOpcode ∧ decode 0x0F = .error .undefinedOpcode ∧
    decode 0x12 = .error .undefinedOpcode ∧ decode 0x1F = .error .undefinedOpcode ∧
    decode 0x24 = .error .undefinedOpcode ∧ decode 0xFF = .error .undefinedOpcode := by
  refine ⟨?_, ?_, ?_, ?_, ?_, ?_⟩ <;> rfl

/-- 30_encoding.md R85: a nonzero value in a field marked "0". -/
theorem test_nonzero_fields :
    decode 0x00000101 = .error .nonzeroF1 ∧ decode 0x00000111 = .error .nonzeroF1 ∧
    decode 0x00010002 = .error .nonzeroF2 ∧ decode 0x00010021 = .error .nonzeroF2 ∧
    decode 0x01000023 = .error .nonzeroF3 ∧ decode 0x01000003 = .error .nonzeroF3 := by
  refine ⟨?_, ?_, ?_, ?_, ?_, ?_⟩ <;> rfl

/-- The words of 95 section 3. -/
theorem test_encode_words :
    encode (.crcByte 0x45) = 0x00004502 ∧ encode (.paeth 10 20 15) = 0x0F140A20 ∧ encode (.unfilt 4) = 0x00000421 ∧
    encode (.rowUnfilt 4 3) = 0x00030423 ∧ encode .rowClear = 0x00000022 := by decide

theorem test_decodeTableWord : decodeTableWord 32 0x0F140A20 = some (.paeth 10 20 15) := by decide
theorem test_decodeTableWord_illegal : decodeTableWord 32 0x00000005 = none := by decide

/-! ### Small states -/

/-- The 72-byte buffer of program P2 of 95. -/
def b72 : List Byte :=
  [0x89, 0x50, 0x4E, 0x47, 0x0D, 0x0A, 0x1A, 0x0A] ++
  [0x00, 0x00, 0x00, 0x0D, 0x49, 0x48, 0x44, 0x52, 0x00, 0x00, 0x00, 0x02, 0x00, 0x00, 0x00, 0x02,
   0x08, 0x02, 0x00, 0x00, 0x00, 0xFD, 0xD4, 0x9A, 0x73] ++
  [0x00, 0x00, 0x00, 0x00, 0x74, 0x65, 0x53, 0x74, 0x4D, 0xFB, 0x5A, 0xAE] ++
  [0x00, 0x00, 0x00, 0x03, 0x49, 0x44, 0x41, 0x54, 0x01, 0x02, 0x03, 0x53, 0x37, 0x17, 0xAD] ++
  [0x00, 0x00, 0x00, 0x00, 0x49, 0x45, 0x4E, 0x44, 0xAE, 0x42, 0x60, 0x82]

/-- B72 loaded. -/
def loaded : State := { State.reset with ibuf := writeBytes [] 0 b72, inLen := 72 }

/-- B72 loaded, the parser in SCAN at an index. -/
def scanAt (p : Word) : State := { loaded with pstate := .scan, parsePos := p }

/-- B72 with one byte changed, the parser in SCAN at an index. -/
def scanChanged (p : Word) (i : Nat) (v : Byte) : State := { scanAt p with ibuf := bufWrite loaded.ibuf i v }

/-- A row of CUR over a row of PRIOR. -/
def rows (cur prior : List Byte) : State :=
  { State.reset with cur := writeBytes [] 0 cur, prior := writeBytes [] 0 prior, arg0 := BitVec.ofNat 32 cur.length }

/-- A part of the next state, if there is one. -/
def after {α : Type} (o : Host.Outcome State Fault Refusal) (f : State → α) : Option α := (nextOf o).map f

/-! ### STATUS (10_state.md R33; the values of 95) -/

theorem test_status_crcMismatch :
    statusWord { State.reset with lastError := some .crcMismatch, pstate := .error .crcMismatch } = 0x00003432 := by decide
theorem test_status_truncated_busy :
    statusWord { State.reset with
      busy := true, lastError := some .truncatedChunk, pstate := .error .truncatedChunk } = 0x00002423 := by decide

/-! ### One step per command -/

/-- V-S2 and V-S3. -/
theorem test_nop_clears_err : after (exec .nop { State.reset with lastError := some .illegalCommand }) statusWord = some 0 := by
  decide
theorem test_nop_keeps_perr :
    after (exec .nop { State.reset with lastError := some .crcMismatch, pstate := .error .crcMismatch }) statusWord =
      some 0x00003400 := by decide

/-- V-C1. -/
theorem test_crcInit : after (exec .crcInit { State.reset with crcState := 0x12345678 }) State.crcState = some 0xFFFFFFFF := by
  decide

/-- V-C2, and the fourth line of the `crc_step` table. -/
theorem test_crcByte : after (exec (.crcByte 0x49) State.reset) State.crcState = some 0x22FDE946 := by decide +kernel
theorem test_crcByte_other :
    after (exec (.crcByte 0x9A) { State.reset with crcState := 0x12345678 }) State.crcState = some 0x4E16B702 := by
  decide +kernel

/-- V-C6 and V-C8. -/
theorem test_crcBuf : after (exec .crcBuf { loaded with arg0 := 64, arg1 := 4 }) State.crcState = some 0x51BD9F7D := by
  decide +kernel
theorem test_crcBuf_range_is_exact :
    after (exec .crcBuf { loaded with arg0 := 0xFFFFFFFF, arg1 := 2 }) (fun t => (statusWord t, t.crcState)) =
      some (0x00000062, 0xFFFFFFFF) := by decide +kernel

/-- V-C4. -/
theorem test_crcFinal :
    after (exec .crcFinal { State.reset with crcState := 0x51BD9F7D }) (fun t => (t.result, t.crcState)) =
      some (0xAE426082, 0x51BD9F7D) := by decide

/-- V-P13. -/
theorem test_parseReset :
    after (exec .parseReset { State.reset with
      pstate := .doneIend, parsePos := 72, chType := 0x49454E44, chData := 68, chCrc := 1, chCalc := 2, result := 4 })
      (fun t => (statusWord t, t.parsePos, t.chType, t.chData, t.chCalc, t.result)) = some (0, 0, 0, 0, 0, 4) := by decide

/-- V-P1 (1): from IDLE, the signature and the IHDR chunk. -/
theorem test_parseNext_ihdr :
    after (exec .parseNext loaded) (fun t => (t.result, t.parsePos, statusWord t, t.chType, t.chLen, t.chData, t.chCalc)) =
      some (1, 33, 0x100, 0x49484452, 13, 16, 0xFDD49A73) := by decide +kernel
/-- V-P2 (2): the unknown chunk is skipped and the changed payload byte caught, in one command. -/
theorem test_parseNext_skip_then_mismatch :
    after (exec .parseNext (scanChanged 33 53 0x00)) (fun t => (t.parsePos, statusWord t, t.chCalc)) =
      some (45, 0x3432, 0x52F57D9A) := by decide +kernel

/-- 95 section 2.3: the rows that tell the exact predictor from a mod-256 one, and a tie. -/
theorem test_paeth_exact : after (exec (.paeth 10 250 0) State.reset) State.result = some 250 := by decide
theorem test_paeth_operand_order : after (exec (.paeth 255 200 100) State.reset) State.result = some 255 := by decide

/-- 95 section 2.4. -/
theorem test_unfilt_average : after (exec (.unfilt 3) { State.reset with arg0 := 0x00FEFFC8 }) State.result = some 198 := by
  decide
theorem test_unfilt_tag_5 :
    after (exec (.unfilt 5) { State.reset with result := 7 }) (fun t => (statusWord t, t.result)) = some (0x42, 7) := by decide

/-- V-R1: here with a ROW_MAX of 4, so that the last byte and the first one past it are seen. -/
theorem test_rowClear :
    after (exec .rowClear { State.reset with
      prior := [(0, 9), (4, 9)], cur := [(1, 5)], params := { ibufSize := 8, rowMax := 4, unwritten := .fault } })
      (fun t => (t.prior, t.cur)) = some ([(0, 0), (1, 0), (2, 0), (3, 0), (4, 9)], [(1, 5)]) := by decide

/-- Program P4 row 5, and V-R10. -/
theorem test_rowUnfilt_paeth :
    after (exec (.rowUnfilt 4 3) (rows [1, 2, 3, 250, 10, 0] [10, 20, 30, 15, 25, 35])) (fun t => (t.cur == t.prior, t.cur)) =
      some (true, writeBytes [] 0 [11, 22, 33, 9, 35, 35]) := by decide +kernel
theorem test_rowUnfilt_sub_partial_pixel :
    after (exec (.rowUnfilt 1 2) (rows [1, 2, 3, 4, 5] [0, 0, 0, 0, 0])) State.cur =
      some (writeBytes [] 0 [1, 2, 4, 6, 9]) := by decide +kernel

/-- V-M1 with V-M2: a 32-bit write, then an 8-bit read of the fourth byte. -/
theorem test_host_lanes :
    (after (hostAccess (.write32 0x80000000 0x474E5089) State.reset) (fun t => after (hostAccess (.read8 0x80000003) t) State.hostRead)) =
      some (some (some (.byte 0x47))) := by decide +kernel
/-- V-M3, V-M4, V-M5, V-M6 and V-M8. -/
theorem test_host_bus_errors :
    nextOf (hostAccess (.read32 0x80000002) State.reset) = none ∧ nextOf (hostAccess (.read16 0) State.reset) = none ∧
    nextOf (hostAccess (.read32 0x34) State.reset) = none ∧ nextOf (hostAccess (.read32 0x8000) State.reset) = none ∧
    nextOf (hostAccess (.read32 4) { State.reset with busy := true }) = none := by decide +kernel

/-- A word placed by `withFetchWord` is what the next step runs (log 6). -/
theorem test_step_runs_fetched_word :
    after (step (State.reset.withFetchWord 32 0x0F140A20)) (fun t => (t.result, t.busy, t.cmd)) = some (15, false, 0x0F140A20) := by
  decide +kernel
theorem test_step_idle_waits : nextOf (step State.reset) = some State.reset := by decide +kernel

/-! ### Witnesses: for every statement with hypotheses, a state and operands that meet all of them, clause by clause -/

theorem witness_EncodeAfterDecode : decode 0x0F140A20 = .ok (.paeth 10 20 15) := rfl
theorem witness_OpcodeTable :
    (⟨.unfilt, 0xFFFF00FF, 0x00000021⟩ : TableRow) ∈ opcodeTable ∧
    TableRow.covers ⟨.unfilt, 0xFFFF00FF, 0x00000021⟩ 0x0000FF21 = true := by decide
theorem witness_IllegalWords : decode 0x00000024 = .error .undefinedOpcode := rfl

/-- A pending PARSE_RESET in SCAN, at the block's turn, scheduled or not; and a reset turn. -/
theorem witness_OnlyParserCommandsChangePState :
    (after (step { scanAt 8 with busy := true, cmd := 0x10 }) State.pstate = some .idle ∧
      after (step { scanAt 8 with busy := true, cmd := 0x10, schedule := [.block] }) State.pstate = some .idle ∧
      after (step { scanAt 8 with schedule := [.reset] }) State.pstate = some .idle) ∧ (scanAt 8).pstate = .scan := by
  decide +kernel

theorem witness_NopRule :
    fieldOPC 0x00000100 = 0x00 ∧ statusWord { State.reset with lastError := some .illegalCommand } = 0x00000052 ∧
    statusWord { State.reset with lastError := some .crcMismatch, pstate := .error .crcMismatch } = 0x00003432 := by decide
theorem witness_CrcInitRule : fieldOPC 0x01000001 = 0x01 ∧ (0x01000001 : Word) ≠ 0x00000001 := by decide
theorem witness_CrcByteRule :
    (fieldOPC 0x00010002 = 0x02 ∧ fieldF2 0x00010002 ≠ 0) ∧ (fieldOPC 0x01000002 = 0x02 ∧ fieldF3 0x01000002 ≠ 0) := by decide

/-- CRC_BUF clause by clause: an illegal word; the two range errors at their first value; a whole range at the end of IN_LEN,
written, and unwritten under each choice; a count of 0 at IN_LEN; the wrapping sum; the example. -/
theorem witness_CrcBufRule_errors :
    (fieldOPC 0x00000103 = 0x03 ∧ (0x00000103 : Word) ≠ 0x00000003) ∧
    (let s : State := { State.reset with inLen := 65537 }; s.params.ibufSize < s.inLen.toNat) ∧
    (let s : State := { loaded with arg0 := 70, arg1 := 3 }; s.inLen.toNat < s.arg0.toNat + s.arg1.toNat) ∧
    (let s : State := { loaded with arg0 := 0xFFFFFFFF, arg1 := 2 }; s.arg0 = 0xFFFFFFFF ∧ s.arg1 = 2) := by decide +kernel
theorem witness_CrcBufRule_whole :
    (let s : State := { loaded with arg0 := 68, arg1 := 4 };
      s.inLen.toNat ≤ s.params.ibufSize ∧ s.arg0.toNat + s.arg1.toNat ≤ s.inLen.toNat ∧
      ([0xAE, 0x42, 0x60, 0x82] : List Byte).length = s.arg1.toNat ∧
      holdsBytes s.ibuf s.arg0.toNat [0xAE, 0x42, 0x60, 0x82] = true) ∧
    (let s : State := { loaded with arg0 := 72, arg1 := 0 };
      s.inLen.toNat ≤ s.params.ibufSize ∧ s.arg1 = 0 ∧ s.arg0.toNat ≤ s.inLen.toNat) ∧
    (let s : State := { loaded with arg0 := 64, arg1 := 4 };
      s.inLen = 72 ∧ 72 ≤ s.params.ibufSize ∧ s.crcState = 0xFFFFFFFF ∧ s.arg0 = 64 ∧ s.arg1 = 4 ∧
      holdsBytes s.ibuf 64 [0x49, 0x45, 0x4E, 0x44] = true ∧ (nextOf (exec .crcBuf s)).isSome = true) := by decide +kernel
theorem witness_CrcBufRule_unwritten :
    (let s : State := { State.reset with inLen := 8, arg0 := 7, arg1 := 1 };
      s.params.unwritten = .fault ∧ s.inLen.toNat ≤ s.params.ibufSize ∧ s.arg0.toNat + s.arg1.toNat ≤ s.inLen.toNat ∧
      ¬ written s.ibuf s.arg0.toNat s.arg1.toNat) ∧
    (State.resetWith { ibufSize := 8, rowMax := 1, unwritten := .anyValue }).params.unwritten = .anyValue := by
  refine ⟨⟨rfl, by decide, by decide, fun h => absurd (h 0 (by decide)) (by decide)⟩, rfl⟩

theorem witness_CrcFinalRule :
    (fieldOPC 0x00000104 = 0x04 ∧ (0x00000104 : Word) ≠ 0x00000004) ∧
    (after (exec .crcInit loaded) (fun t => (nextOf (exec .crcFinal t)).isSome)) = some true ∧
    (nextOf (exec .crcFinal { loaded with crcState := 0x51BD9F7D })).isSome = true := by decide +kernel

/-- "IEND" fed as one CRC_BYTE and one CRC_BUF of three bytes, the host setting ARG0 and ARG1 between them. -/
theorem witness_ChecksumOfFedSequence :
    ∃ s1 t, exec .crcInit loaded = .next s1 ∧ FeedsCrc s1 [0x49, 0x45, 0x4E, 0x44] t :=
  ⟨_, _, rfl, .byte 0x49 rfl (.host (.write32 0x08 65)
    (t := { loaded with arg0 := 65, crcState := crcStep crcInitial 0x49 }) rfl (.host (.write32 0x0C 3)
    (t := { loaded with arg0 := 65, arg1 := 3, crcState := crcStep crcInitial 0x49 }) rfl
    (.range [0x45, 0x4E, 0x44] (bs := []) rfl (by decide +kernel) (by decide +kernel) (by decide +kernel)
      (t := succeed { loaded with
        arg0 := 65, arg1 := 3, draws := 0, lastError := none, busy := false
        crcState := crcUpdate (crcStep crcInitial 0x49) [0x45, 0x4E, 0x44] })
      rfl (.none _))))⟩

theorem witness_OneChangedByteChangesChecksum : (0x01 : Byte) ≠ 0x00 := by decide

/-- The IDAT chunk of B72. -/
theorem witness_ChunkFieldsAreBigEndian :
    holdsBytes loaded.ibuf 45
      ([0x00, 0x00, 0x00, 0x03, 0x49, 0x44, 0x41, 0x54] ++ [0x01, 0x02, 0x03] ++ [0x53, 0x37, 0x17, 0xAD]) = true := by
  decide +kernel

theorem witness_ParseResetRule :
    (fieldOPC 0x00000110 = 0x10 ∧ (0x00000110 : Word) ≠ 0x00000010) ∧
    (let s : State := { loaded with pstate := .doneIend };
      (nextOf (exec .parseNext s)).isSome = true ∧ Instr.parseNext ≠ .parseReset ∧ s.pstate ≠ .idle ∧ s.pstate ≠ .scan) := by
  decide +kernel

/-- V-P6, V-P5, V-P1 and the last clause on V-P6. -/
theorem witness_SignatureRule :
    (let s : State := { loaded with inLen := 7 };
      s.pstate = .idle ∧ s.inLen.toNat ≤ s.params.ibufSize ∧ s.inLen.toNat < 8 ∧ ParserOk s ∧
      after (exec .parseNext s) State.lastError = some (some .magicMismatch)) ∧
    (let s : State := { loaded with ibuf := bufWrite loaded.ibuf 1 0x51, inLen := 8 };
      s.pstate = .idle ∧ s.inLen.toNat ≤ s.params.ibufSize ∧ 8 ≤ s.inLen.toNat ∧
      holdsBytes s.ibuf 0 [0x89, 0x51, 0x4E, 0x47, 0x0D, 0x0A, 0x1A, 0x0A] = true) ∧
    (loaded.pstate = .idle ∧ loaded.inLen.toNat ≤ loaded.params.ibufSize ∧ 8 ≤ loaded.inLen.toNat ∧
      holdsBytes loaded.ibuf 0 [0x89, 0x50, 0x4E, 0x47, 0x0D, 0x0A, 0x1A, 0x0A] = true) := by decide +kernel

/-- V-P3 at its boundary (IN_LEN one short of the chunk's end), and V-P10. -/
theorem witness_TruncatedChunkNeverWraps :
    (let s : State := { scanAt 60 with inLen := 71 };
      s.pstate = .scan ∧ s.inLen.toNat ≤ s.params.ibufSize ∧ s.parsePos.toNat + 8 ≤ s.inLen.toNat ∧
      holdsBytes s.ibuf s.parsePos.toNat [0, 0, 0, 0, 0x49, 0x45, 0x4E, 0x44] = true ∧ s.inLen.toNat < s.parsePos.toNat + 12 + 0) ∧
    (let s : State := { scanAt 45 with ibuf := writeBytes loaded.ibuf 45 [0xFF, 0xFF, 0xFF, 0xFF] };
      s.parsePos.toNat + 8 ≤ s.inLen.toNat ∧
      holdsBytes s.ibuf s.parsePos.toNat [0xFF, 0xFF, 0xFF, 0xFF, 0x49, 0x44, 0x41, 0x54] = true ∧
      s.inLen.toNat < s.parsePos.toNat + 12 + (255 * 2 ^ 24 + 255 * 2 ^ 16 + 255 * 2 ^ 8 + 255)) := by decide +kernel

/-- The three chunks a walk of B72 can meet at PARSE_POS: good and recognized, at the end of IN_LEN; good and unrecognized; bad. -/
theorem witness_RecognizedChunkIsReturned :
    ChunkAtPos (scanAt 60) 0 0x49454E44 [] 0xAE426082 ∧ chunkCrc 0x49454E44 [] = 0xAE426082 ∧ kindOf 0x49454E44 = some .iend :=
  ⟨⟨by decide +kernel, by decide +kernel, rfl, by decide +kernel⟩, by decide +kernel, by decide⟩
theorem witness_UnrecognizedChunkIsSkipped :
    ChunkAtPos (scanAt 33) 0 0x74655374 [] 0x4DFB5AAE ∧ chunkCrc 0x74655374 [] = 0x4DFB5AAE ∧ kindOf 0x74655374 = none :=
  ⟨⟨by decide +kernel, by decide +kernel, rfl, by decide +kernel⟩, by decide +kernel, by decide⟩
theorem witness_BadChecksumRaisesCrcMismatch :
    ChunkAtPos (scanChanged 45 53 0x00) 3 0x49444154 [0x00, 0x02, 0x03] 0x533717AD ∧
    chunkCrc 0x49444154 [0x00, 0x02, 0x03] ≠ 0x533717AD :=
  ⟨⟨by decide +kernel, by decide +kernel, rfl, by decide +kernel⟩, by decide +kernel⟩

/-- V-P2: the first payload byte of the IDAT chunk changed. -/
theorem witness_OneChangedByteIsCaught :
    (scanChanged 45 53 0x00).pstate = .scan ∧
    ChunkAtPos (scanChanged 45 53 0x00) 3 0x49444154 [0x00, 0x02, 0x03] 0x533717AD ∧
    chunkCrc 0x49444154 [0x01, 0x02, 0x03] = 0x533717AD ∧ (0x01 : Byte) ≠ 0x00 ∧
    (let tag : Word := 0x49444154; let stored : Word := 0x533717AD;
      [byteOf tag 3, byteOf tag 2, byteOf tag 1, byteOf tag 0] ++ [0x01, 0x02, 0x03] ++
        [byteOf stored 3, byteOf stored 2, byteOf stored 1, byteOf stored 0] =
          [0x49, 0x44, 0x41, 0x54] ++ 0x01 :: [0x02, 0x03, 0x53, 0x37, 0x17, 0xAD] ∧
      [byteOf tag 3, byteOf tag 2, byteOf tag 1, byteOf tag 0] ++ [0x00, 0x02, 0x03] ++
        [byteOf stored 3, byteOf stored 2, byteOf stored 1, byteOf stored 0] =
          [0x49, 0x44, 0x41, 0x54] ++ 0x00 :: [0x02, 0x03, 0x53, 0x37, 0x17, 0xAD]) :=
  ⟨rfl, witness_BadChecksumRaisesCrcMismatch.1, by decide +kernel, by decide, by decide +kernel, by decide +kernel⟩

theorem witness_ParserErrorsAreSticky :
    after (exec .parseNext (scanChanged 45 53 0x00)) State.lastError = some (some (errorOf .crcMismatch)) ∧
    (let s : State := { loaded with pstate := .error .truncatedChunk };
      s.pstate = .error .truncatedChunk ∧ s.inLen.toNat ≤ s.params.ibufSize ∧ (nextOf (exec .nop s)).isSome = true ∧
      (nextOf (exec .parseReset s)).isSome = true) := by decide +kernel

/-- V-P1 (3), V-P4 (3) at its boundary, V-P1 (4). -/
theorem witness_EndOfWalk :
    after (exec .parseNext (scanAt 60)) (fun t => (t.lastError, t.result)) = some (none, 4) ∧
    after (exec .parseNext { loaded with inLen := 8 }) (fun t => (t.lastError, t.result)) = some (none, 0) ∧
    (let s : State := { scanAt 60 with inLen := 67 };
      s.pstate = .scan ∧ s.inLen.toNat ≤ s.params.ibufSize ∧ s.inLen.toNat < s.parsePos.toNat + 8) ∧
    (let s : State := { loaded with pstate := .doneIend };
      s.pstate = .doneIend ∧ s.inLen.toNat ≤ s.params.ibufSize) := by decide +kernel

/-- One successful PARSE_NEXT from SCAN meets the hypotheses of `ParseNextFrame`, `ParsePosAdvances`, `CompletionRule`, `BufferFrame`,
`ResultRegister` and `CommandsKeepTheRest`. -/
theorem witness_ParseNextFrame :
    (scanAt 8).pstate = .scan ∧
    after (exec .parseNext (scanAt 8)) (fun t => (t.lastError, t.result)) = some (none, 1) := by decide +kernel

theorem witness_ParseNextCompletes : readable loaded.params.unwritten loaded.ibuf 0 loaded.inLen.toNat :=
  .inr (written_of_holds (bs := b72) (by decide +kernel))

/-- B72 with the byte before PARSE_POS changed. -/
theorem witness_ConsumedBytesHaveNoEffect :
    (scanAt 33).pstate = .scan ∧
    ∀ j, (scanAt 33).parsePos.toNat ≤ j → bufRead (bufWrite (scanAt 33).ibuf 32 0x00) j = bufRead (scanAt 33).ibuf j :=
  ⟨rfl, fun j hj => bufRead_bufWrite_other _ _ (fun e => by subst e; exact absurd hj (by decide))⟩

/-- `PaethPicksNearest`: an operand triple for each of the three choices (95 section 2.3). -/
theorem witness_PaethPicksNearest : paeth 255 0 0 = 255 ∧ paeth 10 250 0 = 250 ∧ paeth 7 9 8 = 8 := by decide
theorem witness_InverseFilters : 4 < (5 : Byte).toNat := by decide
theorem witness_PaethRule : fieldOPC 0xFFFFFF20 = 0x20 := by decide
theorem witness_UnfiltRule_ignored_bytes :
    (usesA .none = true → (1 : Byte) = 2) ∧ (usesB .sub = true → (1 : Byte) = 2) ∧ (usesC .average = true → (1 : Byte) = 2) := by decide
theorem witness_UnfiltRule :
    filterOfTag 4 = some .paeth ∧ (4 : Byte).toNat ≤ 4 ∧ 4 < (5 : Byte).toNat ∧
    (fieldOPC 0x0000FF21 = 0x21 ∧ fieldF2 0x0000FF21 = 0 ∧ fieldF3 0x0000FF21 = 0) ∧
    (fieldOPC 0x00010021 = 0x21 ∧ fieldF2 0x00010021 ≠ 0) ∧ (fieldOPC 0x01000021 = 0x21 ∧ fieldF3 0x01000021 ≠ 0) ∧
    (let s : State := { State.reset with arg0 := 0x0F140A03 }; s.arg0 = 0x0F140A03 ∧ (nextOf (exec (.unfilt 4) s)).isSome = true) := by
  decide
theorem witness_RowClearRule : fieldOPC 0x00000122 = 0x22 ∧ (0x00000122 : Word) ≠ 0x00000022 ∧ 1023 < State.reset.params.rowMax ∧
    State.reset.params.rowMax ≤ 1024 := by decide

/-- A row as long as ROW_MAX, written in both line buffers, with the filter that uses every neighbour. -/
def fullRow : State :=
  { State.reset with
    cur := writeBytes [] 0 [1, 2, 3, 4], prior := writeBytes [] 0 [10, 20, 30, 40], arg0 := 4
    params := { ibufSize := 8, rowMax := 4, unwritten := .fault } }

theorem witness_RowIsReconstructed :
    (1 : Byte) ≠ 0 ∧ filterOfTag 4 = some .paeth ∧ fullRow.arg0.toNat ≤ fullRow.params.rowMax ∧
    written fullRow.cur 0 fullRow.arg0.toNat ∧ written fullRow.prior 0 fullRow.arg0.toNat :=
  ⟨by decide, rfl, by decide, written_of_holds (bs := [1, 2, 3, 4]) (by decide), written_of_holds (bs := [10, 20, 30, 40]) (by decide)⟩
theorem witness_RowStopsOnlyOnUsedUnwrittenBytes :
    (3 : Byte) ≠ 0 ∧ filterOfTag 0 = some .none ∧
    (let s : State := { fullRow with prior := [] }; s.arg0.toNat ≤ s.params.rowMax ∧ s.params.unwritten = .fault) ∧
    (let s : State := { fullRow with cur := [], params := { ibufSize := 8, rowMax := 4, unwritten := .anyValue } };
      s.arg0.toNat ≤ s.params.rowMax ∧ s.params.unwritten = .anyValue) := by decide
theorem witness_FirstRowFilters :
    let s : State := { fullRow with prior := fillZero 4 [] }
    ∀ i, i < s.arg0.toNat → bufRead s.prior i = some 0 := by decide

/-- `ResultRegister`: a host access that answers and issues a command. -/
theorem witness_ResultRegister :
    (nextOf (hostAccess (.write32 0x04 0x00000004) { State.reset with result := 7 })).isSome = true := by decide +kernel

theorem witness_CompletionRule :
    after (exec (.unfilt 5) State.reset) State.lastError = some (some .invalidFilterType) ∧
    after (exec .parseNext (scanChanged 45 53 0x00)) State.lastError = some (some .crcMismatch) ∧
    after (exec .nop State.reset) State.lastError = some none := by decide +kernel

/-- The clauses of `CheckPriority` that the witnesses above do not cover: bpp = 0 with tag 5; tag 5 with a row too long; a row one
too long; IN_LEN one too long; a range one too long; MagicMismatch from IDLE. -/
theorem witness_CheckPriority :
    (let s : State := { fullRow with arg0 := 5 }; (1 : Byte) ≠ 0 ∧ (4 : Byte).toNat ≤ 4 ∧ s.params.rowMax < s.arg0.toNat) ∧
    (let s : State := { fullRow with inLen := 9 }; s.params.ibufSize < s.inLen.toNat) ∧
    (let s : State := { loaded with arg0 := 72, arg1 := 1 };
      s.inLen.toNat ≤ s.params.ibufSize ∧ s.inLen.toNat < s.arg0.toNat + s.arg1.toNat) ∧
    (let s : State := { loaded with pstate := .error .magicMismatch, inLen := 7 };
      s.inLen.toNat ≤ s.params.ibufSize ∧ s.pstate = .error .magicMismatch) ∧
    (loaded.pstate = .idle ∧ after (exec .parseNext { loaded with inLen := 7 }) State.lastError = some (some .magicMismatch)) := by
  decide +kernel

/-- `UnitResultsDependOnOwnState`: two states that differ outside the unit, and complete. -/
theorem witness_UnitResultsDependOnOwnState :
    (let s : State := { loaded with arg0 := 64, arg1 := 4 }; let s' : State := { s with pstate := .scan, cur := [(0, 1)], result := 9 };
      (nextOf (exec .crcBuf s)).isSome = true ∧ (nextOf (exec .crcBuf s')).isSome = true) ∧
    ((nextOf (exec .parseNext (scanAt 45))).isSome = true ∧
      (nextOf (exec .parseNext { scanAt 45 with crcState := 1, cur := [(0, 1)], result := 9 })).isSome = true) ∧
    ((nextOf (exec (.rowUnfilt 4 1) fullRow)).isSome = true ∧
      (nextOf (exec (.rowUnfilt 4 1) { fullRow with crcState := 1, pstate := .scan, result := 9 })).isSome = true) := by
  decide +kernel

theorem witness_BusErrorsExactly : State.reset.params.legal ∧ State.reset.busy = false := by decide
/-- The last aligned word and the last byte of PRIOR, written and unwritten; the example. -/
theorem witness_HostLanesAreLittleEndian :
    State.reset.params.legal ∧ State.reset.busy = false ∧ 1020 % 4 = 0 ∧ 1020 + 4 ≤ bufSize State.reset.params .prior ∧
    1023 < bufSize State.reset.params .prior ∧
    (nextOf (hostAccess (.write32 0x80000000 0x474E5089) State.reset)).isSome = true := by decide +kernel
theorem witness_HostLanesAreLittleEndian_reads :
    (let s : State := { State.reset with prior := writeBytes [] 1020 [1, 2, 3, 4] };
      s.busy = false ∧ bufRead (s.buf .prior) 1023 = some 4 ∧ holdsBytes (s.buf .prior) 1020 [1, 2, 3, 4] = true) ∧
    (let s : State := { State.reset with prior := writeBytes [] 1020 [1, 2, 3] };
      bufRead (s.buf .prior) 1023 = none ∧ ¬ written (s.buf .prior) 1020 4 ∧ s.params.unwritten = .fault) ∧
    (let s : State := State.resetWith { ibufSize := 8, rowMax := 4, unwritten := .anyValue };
      s.params.legal ∧ s.busy = false ∧ bufRead (s.buf .prior) 3 = none ∧ 0 + 4 ≤ bufSize s.params .prior ∧
      s.params.unwritten = .anyValue) :=
  ⟨by decide +kernel, ⟨by decide +kernel, fun h => absurd (h 3 (by decide)) (by decide +kernel), rfl⟩, by decide +kernel⟩
theorem witness_RegisterMap :
    State.reset.busy = false ∧ 0x34 ≤ (0x34 : Word).toNat ∧ (0xFC : Word).toNat ≤ 0xFC := by decide
theorem witness_CommandIssue : State.reset.busy = false ∧ (nextOf (exec .nop State.reset)).isSome = true := by decide

/-- While BUSY: the two accesses nearest to a read of STATUS; the block's turn; and an idle step that issues a command. -/
theorem witness_BusyRule :
    (let s : State := { State.reset with busy := true };
      s.busy = true ∧ HostAccess.read32 4 ≠ .read32 0 ∧ HostAccess.write32 0 0 ≠ .read32 0 ∧
      (nextOf (blockTurn s)).isSome = true) ∧
    (let s : State := { State.reset with schedule := [.host (.write32 0x04 1)] };
      s.busy = false ∧ after (step s) State.busy = some true) := by decide +kernel
theorem witness_HostReadsHaveNoSideEffect : (nextOf (hostAccess (.read8 0x80000000) loaded)).isSome = true := by decide +kernel

/-- A reset while a command is pending. -/
theorem witness_ResetRule :
    let s : State := { loaded with busy := true, cmd := 0x11, schedule := [.reset] }
    s.schedule = .reset :: [] := rfl
theorem witness_StepRunsDecodedCommand :
    (let s : State := { loaded with busy := true, cmd := 0x00000003, schedule := [.block, .reset] };
      s.busy = true ∧ s.schedule.head? = some .block) ∧
    (let s : State := { loaded with busy := true, cmd := 0x00000003 }; s.busy = true ∧ s.schedule.head? = none) ∧
    decode 0x00000003 = .ok .crcBuf ∧ (0x03 : Nat) < 2 ^ 32 ∧ decode (BitVec.ofNat 32 0x03) = .ok .crcBuf := by
  refine ⟨⟨rfl, rfl⟩, ⟨rfl, rfl⟩, rfl, by decide, rfl⟩
theorem witness_StepTakesHostTurnsAndWaits :
    (let s : State := { State.reset with schedule := [.host (.read32 0)] }; s.schedule = .host (.read32 0) :: []) ∧
    (State.reset.busy = false ∧ State.reset.schedule = []) ∧
    (let s : State := { State.reset with schedule := [.block] }; s.busy = false ∧ s.schedule = .block :: []) :=
  ⟨rfl, ⟨rfl, rfl⟩, rfl, rfl⟩

/-- A pending CRC_FINAL that two reads of STATUS see as BUSY, and a word that reads no buffer. -/
theorem witness_WaitEnds :
    (let s : State := { State.reset with busy := true, cmd := 0x00000004, schedule := waitTurns 2 ++ [.reset] };
      s.busy = true ∧ s.schedule = waitTurns 2 ++ [.reset] ∧ (nextOf (runWord s.cmd s)).isSome = true) ∧
    (fieldOPC 0x00000004 ≠ 0x03 ∧ fieldOPC 0x00000004 ≠ 0x11 ∧ fieldOPC 0x00000004 ≠ 0x23) := by decide +kernel
/-- A pending CRC_BUF that stops on an unwritten byte. -/
theorem witness_WaitEnds_stop :
    let s : State := { State.reset with busy := true, cmd := 0x00000003, inLen := 1, arg1 := 1, schedule := waitTurns 0 }
    s.busy = true ∧ s.schedule = waitTurns 0 ++ [] ∧ runWord s.cmd s = .fault .unwrittenRead := ⟨rfl, rfl, rfl⟩
/-- All three buffers written whole. -/
theorem witness_WaitEnds_readable :
    let s : State := { fullRow with ibuf := writeBytes [] 0 [1, 2, 3, 4, 5, 6, 7, 8] }
    ∀ b : BufId, readable s.params.unwritten (s.buf b) 0 (bufSize s.params b) := by
  intro s b
  cases b
  · exact .inr (written_of_holds (bs := [1, 2, 3, 4, 5, 6, 7, 8]) (by decide))
  · exact .inr (written_of_holds (bs := [1, 2, 3, 4]) (by decide))
  · exact .inr (written_of_holds (bs := [10, 20, 30, 40]) (by decide))
theorem witness_ResetMeetsInvariant :
    Params.legal { ibufSize := 8, rowMax := 1, unwritten := .fault } ∧
    Params.legal { ibufSize := 2 ^ 31, rowMax := 2 ^ 16, unwritten := .anyValue } := by decide

/-- A state in the middle of a walk, with a returned chunk: IHDR, then the position after it. -/
theorem witness_StepKeepsInvariant :
    let s : State := { State.reset with
      pstate := .scan, inLen := 33, parsePos := 33, chType := 0x49484452, chLen := 13, chData := 16, chCrc := 0xFDD49A73
      busy := true, cmd := 0x00000011 }
    BlockOk s ∧ (nextOf (step s)).isSome = true := by decide +kernel

/-- An obedient host: it writes ARG0, issues a command, polls, and lets the block finish. -/
theorem witness_ObedientHostMeetsNoFault :
    Safe { State.reset with
      params := { ibufSize := 8, rowMax := 1, unwritten := .anyValue }
      schedule := [.host (.write32 8 1), .host (.write32 4 0x00000003), .host (.read32 0), .block, .reset] } := by
  have reg : ∀ (p : Params) (o : Nat), o % 4 = 0 → o < 0x34 → ¬ busError32 p o := by
    intro p o h1 h2 h
    have low : ∀ b, inWindow p b o → False := by
      intro b hb
      have hc : curBase = 0x10000 := rfl
      have hp : priorBase = 0x20000 := rfl
      have hi : ibufBase = 0x80000000 := rfl
      have h3 := hb.1
      cases b <;> simp only [bufBase] at h3 <;> omega
    rcases h with h | h | h | ⟨b, h, -⟩
    · exact h h1
    · omega
    · omega
    · exact low b h
  exact ⟨by decide, rfl, reg _ _ rfl (by decide), fun h => absurd h (by decide), reg _ _ rfl (by decide),
    fun h => absurd h (by decide), reg _ _ rfl (by decide), fun _ => rfl, trivial⟩

end Sys2Proof.Tests
end

section
/-! The state family (10_state.md): what each command, host access and step leaves of RESULT and CMD, the register map, and the
state after reset. -/

namespace Sys2Proof.Machine

/-! ### How PARSE_NEXT answers -/

/-- The state with the parser's position and draws moved: all that PARSE_NEXT changes before it completes. -/
def parserMoved (ps : PState) (pos cc : Word) (k : Nat) (s : State) : State :=
  { s with pstate := ps, parsePos := pos, chCalc := cc, draws := k }

/-- How PARSE_NEXT completes from `s` in `t`: with an error, at the end of the walk, or with a recognized chunk
(41_parser.md R126). -/
def ParserAnswer (s t : State) : Prop :=
  ∃ ps pos cc k,
    (∃ e, t = raiseError e (parserMoved ps pos cc k s)) ∨
    t = endOfWalk (parserMoved ps pos cc k s) ∨
    ∃ kind tag len data stored, kindOf tag = some kind ∧
      t = returnChunk kind tag len data stored (parserMoved ps pos cc k s)

/-- A scan that started with the parser moved answers as the parser does. -/
theorem ScanEffect.parserAnswer {s t : State} {ps : PState} {pos cc : Word} {k : Nat}
    (h : ScanEffect (parserMoved ps pos cc k s) (.next t)) : ParserAnswer s t := by
  rcases h with ⟨h, -⟩ | ⟨k, pos, cc, e, h, -⟩ | ⟨k, pos, cc, h, -⟩ | ⟨k, pos, stored, kind, tag, len, data, h, hk, -⟩ <;>
    cases h
  · exact ⟨.error e, pos, cc, k, .inl ⟨errorOf e, rfl⟩⟩
  · exact ⟨.doneEob, pos, cc, k, .inr (.inl rfl)⟩
  · exact ⟨ps, pos, stored, k, .inr (.inr ⟨kind, tag, len, data, stored, hk, rfl⟩)⟩

theorem execParseNext_answer {s t : State} (h : execParseNext s = .next t) : ParserAnswer s t := by
  rcases execParseNext_effect h with ⟨h, -⟩ | ⟨-, h⟩ | ⟨-, e, -, h⟩ | ⟨-, -, h⟩ | ⟨-, -, k, h⟩ | ⟨-, -, -, k, h⟩ | ⟨-, -, h⟩
  · cases h
  · cases h; exact ⟨s.pstate, s.parsePos, s.chCalc, s.draws, .inl ⟨.rangeError, rfl⟩⟩
  · cases h; exact ⟨s.pstate, s.parsePos, s.chCalc, s.draws, .inl ⟨errorOf e, rfl⟩⟩
  · cases h; exact ⟨s.pstate, s.parsePos, s.chCalc, s.draws, .inr (.inl rfl)⟩
  · cases h; exact ⟨.error .magicMismatch, s.parsePos, s.chCalc, k, .inl ⟨errorOf .magicMismatch, rfl⟩⟩
  · exact ScanEffect.parserAnswer (ps := .scan) (pos := 8) (cc := s.chCalc) (k := k) h
  · exact ScanEffect.parserAnswer (ps := s.pstate) (pos := s.parsePos) (cc := s.chCalc) (k := s.draws) h

/-- A PARSE_NEXT that raises no error reports no chunk, or the kind of the chunk CH_TYPE names. -/
theorem execParseNext_result {s t : State} (h : execParseNext s = .next t) (hok : t.lastError = none) :
    t.result = 0 ∨ ∃ k, kindOf t.chType = some k ∧ t.result = kindCode k := by
  obtain ⟨ps, pos, cc, k, ⟨e, rfl⟩ | rfl | ⟨kind, tag, len, data, stored, hk, rfl⟩⟩ := execParseNext_answer h
  · cases hok
  · exact .inl rfl
  · exact .inr ⟨kind, hk, rfl⟩

theorem kindCode_le (k : ChunkKind) : (kindCode k).toNat ≤ 4 := by cases k <;> decide

/-! ### RESULT and CMD under a command -/

/-- What a completed command leaves: CMD always, and RESULT unless it is one of the four that return a value and raised no
error (10_state.md R34, R36). -/
theorem exec_keeps_cmd_result {i : Instr} {s t : State} (h : exec i s = .next t) :
    t.cmd = s.cmd ∧
    (t.result = s.result ∨ t.lastError = none ∧ i.opcode ∈ [Opcode.crcFinal, .parseNext, .paeth, .unfilt]) := by
  by_cases hi : i = .parseNext
  · subst hi
    obtain ⟨ps, pos, cc, k, ⟨e, rfl⟩ | rfl | ⟨_, _, _, _, _, -, rfl⟩⟩ := execParseNext_answer h
    · exact ⟨rfl, .inl rfl⟩
    · exact ⟨rfl, .inr ⟨rfl, by decide⟩⟩
    · exact ⟨rfl, .inr ⟨rfl, by decide⟩⟩
  · have he := exec_effect i s hi
    rw [h] at he
    rcases he with ⟨he, -⟩ | ⟨e, he⟩ | ⟨_, _, -, he⟩ | ⟨-, he⟩ | ⟨rfl, he⟩ | ⟨-, he⟩ | ⟨_, _, _, rfl, he⟩ | ⟨_, _, rfl, -, he⟩ |
      ⟨-, he⟩ | ⟨_, _, _, _, _, _, -, -, -, -, he⟩ <;> cases he
    · exact ⟨rfl, .inl rfl⟩
    · exact ⟨rfl, .inl rfl⟩
    · exact ⟨rfl, .inl rfl⟩
    · exact ⟨rfl, .inr ⟨rfl, by decide⟩⟩
    · exact ⟨rfl, .inl rfl⟩
    · exact ⟨rfl, .inr ⟨rfl, by simp [Instr.opcode]⟩⟩
    · exact ⟨rfl, .inr ⟨rfl, by simp [Instr.opcode]⟩⟩
    · exact ⟨rfl, .inl rfl⟩
    · exact ⟨rfl, .inl rfl⟩

theorem exec_keeps_cmd {i : Instr} {s t : State} (h : exec i s = .next t) : t.cmd = s.cmd := (exec_keeps_cmd_result h).1

theorem exec_error_keeps_result {i : Instr} {s t : State} (h : exec i s = .next t) (herr : t.lastError ≠ none) :
    t.result = s.result :=
  (exec_keeps_cmd_result h).2.resolve_right fun hr => herr hr.1

theorem exec_keeps_result {i : Instr} {s t : State} (h : exec i s = .next t)
    (hi : i.opcode ∉ [Opcode.crcFinal, .parseNext, .paeth, .unfilt]) : t.result = s.result :=
  (exec_keeps_cmd_result h).2.resolve_right fun hr => hi hr.2

theorem zext32_toNat (b : Byte) : (zext32 b).toNat = b.toNat := by
  have := b.isLt
  simp only [zext32, BitVec.toNat_setWidth]
  omega

/-! ### Host accesses to registers -/

theorem hostAccess_read_reg (r : RegName) {s : State} (h : s.busy = false) :
    hostAccess (.read32 (regAddr r)) s = .next { s with hostRead := some (.word (readReg r s)) } := by
  rw [hostAccess_idle h, accessIdle_read_reg]

theorem hostAccess_write_reg (r : RegName) (v : Word) {s : State} (h : s.busy = false) :
    hostAccess (.write32 (regAddr r) v) s = .next (writeReg r v s) := by
  rw [hostAccess_idle h, accessIdle_write_reg]

/-- A write to a read-only register has no effect (10_state.md R38). -/
theorem writeReg_readOnly {r : RegName} (hr : r ∉ [RegName.cmd, .arg0, .arg1, .inLen]) (v : Word) (s : State) :
    writeReg r v s = s := by
  cases r with
  | cmd | arg0 | arg1 | inLen => exact absurd (by decide) hr
  | status | result | crcState | parsePos | chType | chLen | chData | chCrc | chCalc => rfl

theorem writeReg_keeps_cmd {r : RegName} (hr : r ≠ .cmd) (v : Word) (s : State) : (writeReg r v s).cmd = s.cmd := by
  cases r with
  | cmd => exact absurd rfl hr
  | arg0 | arg1 | inLen => rfl
  | status | result | crcState | parsePos | chType | chLen | chData | chCrc | chCalc => rfl

theorem eq_regAddr {o : Word} {r : RegName} (h : o.toNat = regOffset r) : o = regAddr r :=
  BitVec.eq_of_toNat_eq (h.trans (regAddr_toNat r).symm)

/-- Everything a host access that answers can do: a read returns data and may draw, a write stores to one buffer or to one
register. -/
theorem hostAccess_next_cases {a : HostAccess} {s t : State} (h : hostAccess a s = .next t) :
    ((∃ o, a = .read8 o ∨ a = .read32 o) ∧ ∃ d k, t = { s with hostRead := some d, draws := k }) ∨
    ((∃ o, (∃ v, a = .write8 o v) ∨ ∃ v, a = .write32 o v) ∧ ∃ b m, t = s.setBuf b m) ∨
    (∃ r v, a = .write32 (regAddr r) v ∧ t = writeReg r v s) := by
  have answer : ∀ r, answerRead r s = .next t → ∃ d k, t = { s with hostRead := some d, draws := k } := by
    intro r h
    rcases answerRead_cases r s with ⟨-, e⟩ | ⟨d, k, -, e⟩ <;> rw [e] at h <;> cases h
    exact ⟨d, k, rfl⟩
  rcases hostAccess_cases a s with ⟨-, -, e⟩ | ⟨-, e⟩ <;> rw [e] at h
  · cases h
  cases a with
  | read16 o => cases h
  | write16 o v => cases h
  | read8 o =>
    simp only [accessIdle, hostRead8] at h
    split at h
    · cases h
    · exact .inl ⟨⟨o, .inl rfl⟩, answer _ h⟩
  | write8 o v =>
    simp only [accessIdle, hostWrite8] at h
    split at h <;> cases h
    exact .inr (.inl ⟨⟨o, .inl ⟨v, rfl⟩⟩, _, _, rfl⟩)
  | read32 o =>
    simp only [accessIdle, hostRead32] at h
    rcases target32_cases s.params o.toNat with ht | ⟨r, -, ht⟩ | ⟨b, i, -, -, -, ht⟩ <;> simp only [ht] at h
    · cases h
    · cases h; exact .inl ⟨⟨o, .inr rfl⟩, _, s.draws, rfl⟩
    · exact .inl ⟨⟨o, .inr rfl⟩, answer _ h⟩
  | write32 o v =>
    simp only [accessIdle, hostWrite32] at h
    rcases target32_cases s.params o.toNat with ht | ⟨r, ho, ht⟩ | ⟨b, i, -, -, -, ht⟩ <;> simp only [ht] at h <;> cases h
    · exact .inr (.inr ⟨r, v, by rw [eq_regAddr ho], rfl⟩)
    · exact .inr (.inl ⟨⟨o, .inr ⟨v, rfl⟩⟩, b, _, rfl⟩)

/-- A host access changes CMD only by a write at its offset (10_state.md R34). -/
theorem hostAccess_cmd {a : HostAccess} {s t : State} (h : hostAccess a s = .next t) :
    t.cmd = s.cmd ∨ ∃ w, a = .write32 (regAddr .cmd) w ∧ t.cmd = w := by
  rcases hostAccess_next_cases h with ⟨-, d, k, rfl⟩ | ⟨-, b, m, rfl⟩ | ⟨r, v, rfl, rfl⟩
  · exact .inl rfl
  · exact .inl (setBuf_cmd s b m)
  · by_cases hr : r = .cmd
    · subst hr; exact .inr ⟨v, rfl, rfl⟩
    · exact .inl (writeReg_keeps_cmd hr v s)

/-! ### CMD under the block's turn and a step -/

theorem runWord_keeps_cmd {w : Word} {s t : State} (h : runWord w s = .next t) : t.cmd = s.cmd := by
  unfold runWord at h
  split at h
  · exact exec_keeps_cmd h
  · cases h; rfl

theorem blockTurn_keeps_cmd {s t : State} (h : blockTurn s = .next t) : t.cmd = s.cmd := by
  cases hb : s.busy with
  | true => rw [blockTurn_busy hb] at h; exact runWord_keeps_cmd h
  | false => rw [blockTurn_idle hb] at h; cases h; rfl

/-- A step changes CMD only by a reset or a host write at its offset (10_state.md R34). -/
theorem step_cmd {s t : State} (h : step s = .next t) :
    t.cmd = s.cmd ∨ s.schedule.head? = some .reset ∨
    ∃ w, s.schedule.head? = some (.host (.write32 (regAddr .cmd) w)) ∧ t.cmd = w := by
  cases hs : s.schedule with
  | nil => rw [step_nil hs] at h; exact .inl (blockTurn_keeps_cmd h)
  | cons turn rest =>
    rw [step_cons hs] at h
    cases turn with
    | reset => exact .inr (.inl rfl)
    | block => exact .inl (blockTurn_keeps_cmd (s := { s with schedule := rest }) h)
    | host a =>
      rcases hostAccess_cmd h with hk | ⟨w, rfl, hw⟩
      · exact .inl hk
      · exact .inr (.inr ⟨w, rfl, hw⟩)

/-! ### Offsets that hold no register -/

/-- Every buffer window starts at 0x10000 or above (20_memory.md R63). -/
theorem byteAt_below_windows (p : Params) {o : Nat} (h : o < 0x10000) : byteAt p o = none := by
  refine byteAt_eq_none.2 fun b ⟨hb, _⟩ => ?_
  have hbase : 0x10000 ≤ bufBase b := by cases b <;> decide
  omega

/-- Nothing lies between the last register and the first window (10_state.md R38). -/
theorem target32_above_registers (p : Params) {o : Nat} (hlo : 0x34 ≤ o) (hhi : o < 0x10000) : target32 p o = none := by
  rcases target32_cases p o with ht | ⟨r, ho, -⟩ | ⟨b, i, -, hb, -⟩
  · exact ht
  · have := regOffset_bounds r
    omega
  · rw [byteAt_below_windows p hhi] at hb
    cases hb

/-! ### The state after reset -/

theorem statusWord_resetWith (p : Params) : statusWord (State.resetWith p) = 0 := by
  simp [statusWord, statusPErr, statusPState, statusErrCode, statusErr, statusBusy, State.resetWith]

theorem bufRead_resetWith (p : Params) (b : BufId) (i : Nat) : bufRead ((State.resetWith p).buf b) i = none := by
  cases b <;> rfl

/-! ### The statements -/

/-- Settles O43: RESULT is followed through every command by what the command can do, and through a host access by what an
access keeps. -/
theorem resultRegister : Obligations.ResultRegister := by
  unfold Obligations.ResultRegister
  refine ⟨fun i s t h => ⟨exec_error_keeps_result h, fun hok => ?_⟩, fun a s t h => (hostAccess_keeps h).1,
    fun s v hidle => ⟨hostAccess_read_reg .result hidle, hostAccess_write_reg .result v hidle⟩, fun p => rfl⟩
  cases i with
  | crcFinal => cases h; rfl
  | paeth a b c => cases h; exact zext32_toNat _
  | unfilt tag =>
    rcases execUnfilt_cases tag s with ⟨-, e⟩ | ⟨f, hf, e⟩ <;> cases e.symm.trans h
    · cases hok
    · exact ⟨f, hf, zext32_toNat _⟩
  | parseNext =>
    have hr := execParseNext_result h hok
    refine ⟨?_, hr⟩
    rcases hr with h0 | ⟨k, -, hk⟩
    · simp [h0]
    · rw [hk]; exact kindCode_le k
  | nop | crcInit | crcByte d | crcBuf | parseReset | rowClear | rowUnfilt t bpp =>
    exact exec_keeps_result h (by simp [Instr.opcode])

/-- Settles O50: CMD is followed through commands, host accesses and turns. -/
theorem commandIssue : Obligations.CommandIssue := by
  unfold Obligations.CommandIssue
  refine ⟨fun s w hidle => ⟨issueCommand w s, hostAccess_write_reg .cmd w hidle, rfl, rfl, rfl, rfl⟩,
    fun s hidle => ⟨_, hostAccess_read_reg .cmd hidle, rfl⟩, fun i s t => exec_keeps_cmd, fun s t => step_cmd,
    fun s => ⟨rfl, rfl⟩⟩

/-- Settles O49: each clause is one case of `readReg`, `writeReg`, the reset state, or the gap above the registers. -/
theorem registerMap : Obligations.RegisterMap := by
  unfold Obligations.RegisterMap
  refine ⟨fun s hidle row hrow => ?_, fun s v hidle => ⟨hostAccess_write_reg .cmd v hidle, hostAccess_write_reg .arg0 v hidle,
    hostAccess_write_reg .arg1 v hidle, hostAccess_write_reg .inLen v hidle, fun o ho => ?_⟩,
    fun p => ⟨statusWord_resetWith p, rfl, rfl, rfl, rfl, rfl, rfl, rfl, rfl, rfl, rfl, rfl, rfl⟩,
    fun s o v h b hidle hlo hhi a ha => ?_⟩
  · have hmap : row ∈ regNames.map fun r => (regAddr r, readReg r s) := hrow
    obtain ⟨r, -, rfl⟩ := List.mem_map.1 hmap
    exact hostAccess_read_reg r hidle
  · have hmap : o ∈ [RegName.status, .result, .crcState, .parsePos, .chType, .chLen, .chData, .chCrc, .chCalc].map regAddr := ho
    obtain ⟨r, hr, rfl⟩ := List.mem_map.1 hmap
    rw [hostAccess_write_reg r v hidle, writeReg_readOnly (by revert r; decide)]
  · have hbyte : byteAt s.params o.toNat = none := byteAt_below_windows _ (by omega)
    have hword : target32 s.params o.toNat = none := target32_above_registers _ hlo (by omega)
    rw [hostAccess_idle hidle]
    simp only [List.mem_cons, List.not_mem_nil, or_false] at ha
    rcases ha with rfl | rfl | rfl | rfl | rfl | rfl <;>
      simp [accessIdle, hostRead8, hostRead32, hostWrite8, hostWrite32, hbyte, hword]

/-- Settles O54: `State.reset` is `State.resetWith` at one choice of the parameters. -/
theorem resetState : Obligations.ResetState := by
  unfold Obligations.ResetState
  exact ⟨statusWord_resetWith _, rfl, rfl, rfl, rfl, rfl, rfl, rfl, rfl, rfl, rfl, rfl, rfl, rfl, rfl, rfl, rfl,
    bufRead_resetWith _⟩

end Sys2Proof.Machine
end

section
/-! The memory family (20_memory.md): the byte order of a chunk's fields, and the host accesses that are bus errors. -/

namespace Sys2Proof.Machine

/-! ### The fields of a chunk -/

/-- Settles O17: the chunk's bytes are split once after the tag and once after the length, and each field is the big-endian word
of its four bytes. -/
theorem chunkFieldsAreBigEndian : Obligations.ChunkFieldsAreBigEndian := by
  unfold Obligations.ChunkFieldsAreBigEndian
  intro u m p k l0 l1 l2 l3 t0 t1 t2 t3 c0 c1 c2 c3 payload h
  have hheader : holdsBytes m p [l0, l1, l2, l3, t0, t1, t2, t3] = true := by
    rw [List.append_assoc, holdsBytes_append, Bool.and_eq_true] at h
    exact h.1
  have hrest : holdsBytes m (p + 4) (([t0, t1, t2, t3] ++ payload) ++ [c0, c1, c2, c3]) = true := by
    have hsplit : holdsBytes m p ([l0, l1, l2, l3] ++ (([t0, t1, t2, t3] ++ payload) ++ [c0, c1, c2, c3])) = true := h
    rw [holdsBytes_append, Bool.and_eq_true] at hsplit
    exact hsplit.2
  have hcovered : ([t0, t1, t2, t3] ++ payload).length = 4 + payload.length := List.length_append
  exact ⟨wordBE l0 l1 l2 l3, wordBE t0 t1 t2 t3, crc32 ([t0, t1, t2, t3] ++ payload), wordBE c0 c1 c2 c3,
    readHeader_of_holds hheader, readChecksums_of_holds hrest hcovered, wordBE_toNat .., wordBE_toNat .., wordBE_toNat .., rfl⟩

/-! ### Offsets without a target -/

/-- No window but REG holds an offset below 0x10000 (20_memory.md R63). -/
theorem not_inWindow_of_lt {p : Params} {o : Nat} (h : o < 0x10000) (b : BufId) : ¬ inWindow p b o :=
  byteAt_eq_none.1 (byteAt_below_windows p h) b

theorem bufBase_aligned (b : BufId) : bufBase b % 4 = 0 := by cases b <;> rfl

/-- An aligned offset whose four bytes lie in one window has a target. -/
theorem target32_of_inWindow {p : Params} (hp : p.legal) {b : BufId} {o : Nat} (ha : o % 4 = 0) (hfirst : inWindow p b o)
    (hlast : inWindow p b (o + 3)) : target32 p o = some (.bytes b (o - bufBase b)) := by
  obtain ⟨hlo, -⟩ := hfirst
  obtain ⟨-, hhi⟩ := hlast
  have hbase := bufBase_aligned b
  have ht := target32_bufAddr hp (b := b) (i := o - bufBase b) (by omega) (by omega)
  rwa [bufAddr_toNat hp (by omega), Nat.add_sub_cancel' hlo] at ht

/-- An offset without a target falls under one of the causes of 20_memory.md R64. -/
theorem busError32_of_target32_none {p : Params} (hp : p.legal) {o : Nat} (h : target32 p o = none) : busError32 p o := by
  by_cases ha : o % 4 = 0
  case neg => exact .inl ha
  by_cases hreg : o < 0x34
  · obtain ⟨r, hr⟩ := regAt_isSome ha hreg
    rw [regAt_eq_some.1 hr, target32_reg] at h
    cases h
  by_cases hgap : o < 0x100
  · exact .inr (.inl ⟨by omega, hgap⟩)
  by_cases hwin : ∀ b, ¬ inWindow p b o
  · exact .inr (.inr (.inl ⟨by omega, hwin⟩))
  obtain ⟨b, hb⟩ := Classical.not_forall_not.1 hwin
  refine .inr (.inr (.inr ⟨b, hb, fun hlast => ?_⟩))
  rw [target32_of_inWindow hp ha hb hlast] at h
  cases h

/-- An offset that falls under a cause of 20_memory.md R64 has no target: it is no register's, and no window holds its word. -/
theorem target32_none_of_busError32 {p : Params} (hp : p.legal) {o : Nat} (h : busError32 p o) : target32 p o = none := by
  rcases target32_cases p o with ht | ⟨r, ho, -⟩ | ⟨b, i, ha, hb, hle, -⟩
  · exact ht
  · have := regOffset_bounds r
    rcases h with hmis | hgap | hout | ⟨b, hb, -⟩
    · omega
    · omega
    · omega
    · exact absurd hb (not_inWindow_of_lt (by omega) b)
  · obtain ⟨hwin, ho, -⟩ := byteAt_eq_some hb
    rcases h with hmis | hgap | hout | ⟨b', hb', hpast⟩
    · exact absurd ha hmis
    · exact absurd hwin (not_inWindow_of_lt (by omega) b)
    · exact absurd hwin (hout.2 b)
    · rw [byteAt_of_inWindow hp hb'] at hb
      cases hb
      exact absurd ⟨by omega, by omega⟩ hpast

/-- A 32-bit access has no target exactly at the offsets 20_memory.md R64 calls a bus error. -/
theorem target32_eq_none_iff {p : Params} (hp : p.legal) {o : Nat} : target32 p o = none ↔ busError32 p o :=
  ⟨busError32_of_target32_none hp, target32_none_of_busError32 hp⟩

/-! ### Accesses that stop as a bus error -/

theorem answerRead_ne_busError (r : Option (ReadData × Nat)) (s : State) : answerRead r s ≠ .fault .busError := by
  rcases answerRead_cases r s with ⟨-, e⟩ | ⟨d, k, -, e⟩ <;> rw [e] <;> nofun

theorem hostRead8_busError_iff (o : Word) (s : State) :
    hostRead8 o s = .fault .busError ↔ byteAt s.params o.toNat = none := by
  cases hb : byteAt s.params o.toNat with
  | none => simp [hostRead8, hb]
  | some target => simp [hostRead8, hb, answerRead_ne_busError]

theorem hostWrite8_busError_iff (o : Word) (v : Byte) (s : State) :
    hostWrite8 o v s = .fault .busError ↔ byteAt s.params o.toNat = none := by
  cases hb : byteAt s.params o.toNat with
  | none => simp [hostWrite8, hb]
  | some target => simp [hostWrite8, hb]

theorem hostRead32_busError_iff (o : Word) (s : State) :
    hostRead32 o s = .fault .busError ↔ target32 s.params o.toNat = none := by
  rcases ht : target32 s.params o.toNat with _ | ⟨r⟩ | ⟨b, i⟩
  · simp [hostRead32, ht]
  · simp [hostRead32, ht]
  · simp [hostRead32, ht, answerRead_ne_busError]

theorem hostWrite32_busError_iff (o v : Word) (s : State) :
    hostWrite32 o v s = .fault .busError ↔ target32 s.params o.toNat = none := by
  rcases ht : target32 s.params o.toNat with _ | ⟨r⟩ | ⟨b, i⟩
  · simp [hostWrite32, ht]
  · simp [hostWrite32, ht]
  · simp [hostWrite32, ht]

/-- An access with BUSY = 0 stops as a bus error exactly when 20_memory.md R64 calls it one. -/
theorem accessIdle_busError_iff (a : HostAccess) {s : State} (hp : s.params.legal) :
    accessIdle a s = .fault .busError ↔ BusError s.params a := by
  cases a with
  | read8 o => exact (hostRead8_busError_iff o s).trans byteAt_eq_none
  | write8 o v => exact (hostWrite8_busError_iff o v s).trans byteAt_eq_none
  | read16 o => exact iff_of_true rfl trivial
  | write16 o v => exact iff_of_true rfl trivial
  | read32 o => exact (hostRead32_busError_iff o s).trans (target32_eq_none_iff hp)
  | write32 o v => exact (hostWrite32_busError_iff o v s).trans (target32_eq_none_iff hp)

/-- Settles O47: with BUSY = 0 the access is the idle one, and one that answers has not stopped. -/
theorem busErrorsExactly : Obligations.BusErrorsExactly := by
  unfold Obligations.BusErrorsExactly
  intro a s hp hidle
  rw [hostAccess_idle hidle]
  have hiff := accessIdle_busError_iff a hp
  refine ⟨hiff, fun t hnext hbus => ?_⟩
  have hstop := hiff.2 hbus
  rw [hnext] at hstop
  cases hstop

end Sys2Proof.Machine
end

section
/-! The encoding family (30_encoding.md): the rows of the opcode map by their OPC, and the words that do not decode. -/

namespace Sys2Proof

/-! ### The row of an OPC -/

theorem Opcode.code_eq_of_ofByte {b : Byte} {op : Opcode} (h : Opcode.ofByte b = some op) : b = op.code :=
  (eq_of_beq (List.find?_some (p := fun row : Opcode => row.code == b) h)).symm

/-- The OPC values in no row of R83 are the ranges R85 lists. -/
theorem Opcode.ofByte_eq_none_iff {b : Byte} :
    Opcode.ofByte b = none ↔
      (0x05 ≤ b.toNat ∧ b.toNat ≤ 0x0F) ∨ (0x12 ≤ b.toNat ∧ b.toNat ≤ 0x1F) ∨ 0x24 ≤ b.toNat := by
  have hnone : Opcode.ofByte b = none ↔ ∀ op ∈ Opcode.all, op.code.toNat ≠ b.toNat := by
    simp [Opcode.ofByte, BitVec.toNat_inj]
  rw [hnone]
  simp only [Opcode.all, Opcode.code, List.forall_mem_cons, List.not_mem_nil, false_imp_iff, implies_true, and_true,
    BitVec.ofNat_eq_ofNat, BitVec.toNat_ofNat]
  omega

/-! ### The fields a row marks "0" (R83), by the row's OPC -/

theorem Opcode.f1Zero_iff (op : Opcode) :
    op.f1Zero = true ↔ op.code ∈ ([0x00, 0x01, 0x03, 0x04, 0x10, 0x11, 0x22] : List Byte) := by
  cases op <;> decide

theorem Opcode.f2Zero_iff (op : Opcode) :
    op.f2Zero = true ↔ op.code ∈ ([0x00, 0x01, 0x02, 0x03, 0x04, 0x10, 0x11, 0x21, 0x22] : List Byte) := by
  cases op <;> decide

theorem Opcode.f3Zero_iff (op : Opcode) :
    op.f3Zero = true ↔ op.code ∈ ([0x00, 0x01, 0x02, 0x03, 0x04, 0x10, 0x11, 0x21, 0x22, 0x23] : List Byte) := by
  cases op <;> decide

/-! ### Words that do not decode (R84) -/

theorem decode_of_ofByte_none {w : Word} (h : Opcode.ofByte (fieldOPC w) = none) : decode w = .error .undefinedOpcode := by
  simp only [decode, h]

/-- A word with a row's OPC is illegal exactly when a field the row marks "0" is not. -/
theorem decode_error_iff_of_ofByte_some {w : Word} {op : Opcode} (h : Opcode.ofByte (fieldOPC w) = some op) :
    (∃ e, decode w = .error e) ↔
      (op.f1Zero = true ∧ fieldF1 w ≠ 0) ∨ (op.f2Zero = true ∧ fieldF2 w ≠ 0) ∨ (op.f3Zero = true ∧ fieldF3 w ≠ 0) := by
  simp only [decode, h]
  split_ifs with h1 h2 h3
  · exact iff_of_true ⟨_, rfl⟩ (.inl h1)
  · exact iff_of_true ⟨_, rfl⟩ (.inr (.inl h2))
  · exact iff_of_true ⟨_, rfl⟩ (.inr (.inr h3))
  · exact iff_of_false nofun (not_or.2 ⟨h1, not_or.2 ⟨h2, h3⟩⟩)

end Sys2Proof

namespace Sys2Proof.Machine

theorem runWord_of_decode_error {w : Word} {e : DecodeError} (h : decode w = .error e) (s : State) :
    runWord w s = .next (raiseError .illegalCommand s) := by
  simp only [runWord, h]

/-- Settles O5: a word whose OPC has no row lies in one of the ranges; one whose OPC has a row lies in none, and its fields
decide. -/
theorem illegalWords : Obligations.IllegalWords := by
  unfold Obligations.IllegalWords
  refine ⟨fun w => ?_, fun w e s h => ⟨_, runWord_of_decode_error h s, rfl, rfl, rfl⟩⟩
  cases hrow : Opcode.ofByte (fieldOPC w) with
  | none =>
    refine iff_of_true ⟨_, decode_of_ofByte_none hrow⟩ ?_
    rcases Opcode.ofByte_eq_none_iff.1 hrow with hlow | hmid | hhigh
    · exact .inl hlow
    · exact .inr (.inl hmid)
    · exact .inr (.inr (.inl hhigh))
  | some op =>
    have hrange : Opcode.ofByte (fieldOPC w) ≠ none := by simp [hrow]
    rw [ne_eq, Opcode.ofByte_eq_none_iff, not_or, not_or] at hrange
    obtain ⟨hlow, hmid, hhigh⟩ := hrange
    rw [decode_error_iff_of_ofByte_some hrow, op.f1Zero_iff, op.f2Zero_iff, op.f3Zero_iff, ← Opcode.code_eq_of_ofByte hrow,
      or_iff_right hlow, or_iff_right hmid, or_iff_right hhigh]

end Sys2Proof.Machine
end

section
/-! The CRC family (40_crc.md): the illegal words of its commands, the byte step as rounds on bit 0, and the four commands. -/

namespace Sys2Proof

/-! ### Words from their fields (30_encoding.md R80) -/

theorem packWord_fields (w : Word) : packWord (fieldF3 w) (fieldF2 w) (fieldF1 w) (fieldOPC w) = w := by
  have h32 : fieldF3 w ++ fieldF2 w = w.extractLsb' 16 16 := BitVec.extractLsb'_append_extractLsb'_eq_extractLsb' rfl
  have h21 : w.extractLsb' 16 16 ++ fieldF1 w = w.extractLsb' 8 24 := BitVec.extractLsb'_append_extractLsb'_eq_extractLsb' rfl
  have h10 : w.extractLsb' 8 24 ++ fieldOPC w = w.extractLsb' 0 32 := BitVec.extractLsb'_append_extractLsb'_eq_extractLsb' rfl
  rw [packWord, h32, h21, h10, BitVec.extractLsb'_eq_self]

theorem Opcode.ofByte_code (op : Opcode) : Opcode.ofByte op.code = some op := by cases op <;> rfl

end Sys2Proof

namespace Sys2Proof.Machine

/-! ### Illegal words of a row (R85) -/

theorem runWord_of_nonzero_field {op : Opcode} {w : Word} (hopc : fieldOPC w = op.code)
    (hfield : (op.f1Zero = true ∧ fieldF1 w ≠ 0) ∨ (op.f2Zero = true ∧ fieldF2 w ≠ 0) ∨ (op.f3Zero = true ∧ fieldF3 w ≠ 0))
    (s : State) : runWord w s = .next (raiseError .illegalCommand s) := by
  have hrow : Opcode.ofByte (fieldOPC w) = some op := hopc ▸ op.ofByte_code
  obtain ⟨e, he⟩ := (decode_error_iff_of_ofByte_some hrow).2 hfield
  exact runWord_of_decode_error he s

/-- A row that marks all three fields "0" has one legal word. -/
theorem runWord_of_ne_only_word {op : Opcode} (h1 : op.f1Zero = true) (h2 : op.f2Zero = true) (h3 : op.f3Zero = true) {w : Word}
    (hopc : fieldOPC w = op.code) (hw : w ≠ packWord 0 0 0 op.code) (s : State) :
    runWord w s = .next (raiseError .illegalCommand s) := by
  refine runWord_of_nonzero_field hopc ?_ s
  by_contra hfields
  simp only [h1, h2, h3, true_and, not_or, not_not] at hfields
  obtain ⟨hf1, hf2, hf3⟩ := hfields
  exact hw (by rw [← packWord_fields w, hf1, hf2, hf3, hopc])

/-! ### The rounds of the byte step (R100) -/

theorem crcRound_eq_of_low_bit (r : Word) : crcRound r = if r.toNat % 2 = 1 then (r >>> 1) ^^^ 0xEDB88320 else r >>> 1 := by
  have hbit : r.getLsbD 0 = decide (r.toNat % 2 = 1) := Nat.testBit_zero _
  simp only [crcRound, hbit, decide_eq_true_eq, crcPoly]

theorem crcRounds_eq_iterate (n : Nat) (r : Word) : crcRounds n r = crcRound^[n] r := by
  induction n generalizing r with
  | zero => rfl
  | succ n ih => exact ih (crcRound r)

/-! ### CRC_BUF (R105) -/

theorem execCrcBuf_of_out_of_range {s : State}
    (h : s.params.ibufSize < s.inLen.toNat ∨ s.inLen.toNat < s.arg0.toNat + s.arg1.toNat) :
    execCrcBuf s = .next (raiseError .rangeError s) := by
  rcases execCrcBuf_cases s with ⟨_, he⟩ | ⟨_, _, he⟩ | ⟨hsize, hrange, _⟩ | ⟨hsize, hrange, _⟩
  · exact he
  · exact he
  · omega
  · omega

section InRange

variable {s : State} (hsize : s.inLen.toNat ≤ s.params.ibufSize) (hrange : s.arg0.toNat + s.arg1.toNat ≤ s.inLen.toNat)
include hsize hrange

theorem execCrcBuf_of_read_none
    (hread : readBytes s.params.unwritten s.ibuf s.arg0.toNat s.arg1.toNat s.draws = none) :
    execCrcBuf s = .fault .unwrittenRead := by
  rcases execCrcBuf_cases s with ⟨hbad, _⟩ | ⟨_, hbad, _⟩ | ⟨_, _, _, he⟩ | ⟨_, _, bs, k, hsome, _⟩
  · omega
  · omega
  · exact he
  · simp [hread] at hsome

theorem execCrcBuf_of_read_some {bs : List Byte} {k : Nat}
    (hread : readBytes s.params.unwritten s.ibuf s.arg0.toNat s.arg1.toNat s.draws = some (bs, k)) :
    execCrcBuf s = .next (succeed { s with crcState := crcUpdate s.crcState bs, draws := k }) := by
  rcases execCrcBuf_cases s with ⟨hbad, _⟩ | ⟨_, hbad, _⟩ | ⟨_, _, hnone, _⟩ | ⟨_, _, bs', k', hsome, he⟩
  · omega
  · omega
  · simp [hread] at hnone
  · obtain ⟨rfl, rfl⟩ : bs = bs' ∧ k = k' := by simpa [hread] using hsome
    exact he

/-- Written bytes are folded as they stand, and nothing is drawn. -/
theorem execCrcBuf_of_holds {bs : List Byte} (hlen : bs.length = s.arg1.toNat)
    (hholds : holdsBytes s.ibuf s.arg0.toNat bs = true) :
    execCrcBuf s = .next (succeed { s with crcState := crcUpdate s.crcState bs }) :=
  execCrcBuf_of_read_some hsize hrange (readBytes_of_holds' hholds hlen)

theorem execCrcBuf_of_not_written (hfault : s.params.unwritten = .fault)
    (hnot : ¬ written s.ibuf s.arg0.toNat s.arg1.toNat) : execCrcBuf s = .fault .unwrittenRead := by
  refine execCrcBuf_of_read_none hsize hrange (readBytes_eq_none.2 ⟨hfault, ?_⟩)
  simpa [written] using hnot

/-- Under `any_value` some bytes are folded, and they are the held ones where a byte is held. -/
theorem execCrcBuf_of_anyValue (hany : s.params.unwritten = .anyValue) :
    ∃ (bs : List Byte) (k : Nat), bs.length = s.arg1.toNat ∧
      (∀ j v, j < s.arg1.toNat → bufRead s.ibuf (s.arg0.toNat + j) = some v → bs[j]? = some v) ∧
      execCrcBuf s = .next (succeed { s with crcState := crcUpdate s.crcState bs, draws := k }) := by
  have hreadable : readable s.params.unwritten s.ibuf s.arg0.toNat s.arg1.toNat := .inl hany
  obtain ⟨bs, k, hread⟩ := readBytes_of_readable s.draws hreadable
  exact ⟨bs, k, readBytes_length hread, fun _ _ hj hv => readBytes_getElem hread hj hv,
    execCrcBuf_of_read_some hsize hrange hread⟩

end InRange

/-- R105's corner case: the bounds are integer sums, so 0xFFFFFFFF + 2 passes every IN_LEN. -/
theorem execCrcBuf_no_wrap {s : State} (h0 : s.arg0 = 0xFFFFFFFF) (h1 : s.arg1 = 2) :
    execCrcBuf s = .next (raiseError .rangeError s) := by
  have hsum : s.arg0.toNat + s.arg1.toNat = 0x100000001 := by rw [h0, h1]; rfl
  have hlen : s.inLen.toNat < 2 ^ 32 := s.inLen.isLt
  exact execCrcBuf_of_out_of_range (.inr (by omega))

/-! ### The statements -/

/-- Settles O13: out of range by the integer bounds, in range by what the read of the range answers. -/
theorem crcBufRule : Obligations.CrcBufRule := by
  unfold Obligations.CrcBufRule
  refine ⟨rfl, fun s _ hopc hw => runWord_of_ne_only_word (op := .crcBuf) rfl rfl rfl hopc hw s,
    fun _ => execCrcBuf_of_out_of_range, ?inRange, ?empty, fun _ => execCrcBuf_no_wrap, ?iend⟩
  case inRange =>
    intro s hsize hrange
    exact ⟨fun _ => execCrcBuf_of_holds hsize hrange, execCrcBuf_of_not_written hsize hrange,
      execCrcBuf_of_anyValue hsize hrange⟩
  case empty =>
    intro s hsize hcount hstart
    have hn : s.arg1.toNat = 0 := by rw [hcount]; rfl
    exact execCrcBuf_of_holds hsize (by omega) (bs := []) hn.symm rfl
  case iend =>
    intro s t hlen hibuf hcrc hstart hcount hholds hnext
    have h0 : s.arg0.toNat = 64 := by rw [hstart]; rfl
    have h1 : s.arg1.toNat = 4 := by rw [hcount]; rfl
    have hL : s.inLen.toNat = 72 := by rw [hlen]; rfl
    have hexec := execCrcBuf_of_holds (by omega) (by omega) (bs := [0x49, 0x45, 0x4E, 0x44]) h1.symm (h0 ▸ hholds)
    obtain rfl := Host.Outcome.next.inj (hexec.symm.trans hnext)
    change crcUpdate s.crcState [0x49, 0x45, 0x4E, 0x44] = 0x51BD9F7D
    rw [hcrc]
    decide +kernel

/-- Settles O9: a round tests bit 0, and the eight rounds are an iteration of it. -/
theorem crcByteStep : Obligations.CrcByteStep := by
  unfold Obligations.CrcByteStep
  intro r d
  rw [← funext crcRound_eq_of_low_bit]
  exact crcRounds_eq_iterate 8 _

/-- Settles O11: the effect is the command's definition, and the row has one legal word. -/
theorem crcInitRule : Obligations.CrcInitRule :=
  ⟨rfl, fun _ => rfl, fun s _ hopc hw => runWord_of_ne_only_word (op := .crcInit) rfl rfl rfl hopc hw s⟩

/-- Settles O12: the effect is the command's definition, and F2 and F3 are marked "0" in its row. -/
theorem crcByteRule : Obligations.CrcByteRule := by
  unfold Obligations.CrcByteRule
  refine ⟨fun _ => rfl, fun _ _ => rfl, fun s w hopc hfield => ?illegal, by decide +kernel, by decide +kernel⟩
  case illegal =>
    refine runWord_of_nonzero_field (op := .crcByte) hopc (.inr ?_) s
    exact hfield.imp (fun hf2 => ⟨rfl, hf2⟩) (fun hf3 => ⟨rfl, hf3⟩)

/-- Settles O14: the effect is the command's definition, and after CRC_INIT the two constants cancel. -/
theorem crcFinalRule : Obligations.CrcFinalRule := by
  unfold Obligations.CrcFinalRule
  refine ⟨rfl, fun _ => rfl, fun s _ hopc hw => runWord_of_ne_only_word (op := .crcFinal) rfl rfl rfl hopc hw s, ?empty, ?iend⟩
  case empty =>
    intro s t u hinit hfinal
    obtain rfl := Host.Outcome.next.inj hinit
    obtain rfl := Host.Outcome.next.inj hfinal
    exact BitVec.xor_self
  case iend =>
    intro s t hcrc hfinal
    obtain rfl := Host.Outcome.next.inj hfinal
    rw [succeed_result, hcrc]
    rfl

end Sys2Proof.Machine
end

section
/-! The parser family (41_parser.md): PARSE_NEXT by PSTATE, how it ends, and which commands change PSTATE. -/

namespace Sys2Proof.Machine

/-! ### PARSE_NEXT by PSTATE, with IN_LEN inside IBUF (R126) -/

section InLenInIbuf

variable {s : State} (hlen : s.inLen.toNat ≤ s.params.ibufSize)
include hlen

theorem execParseNext_of_error {e : ParseError} (hp : s.pstate = .error e) :
    execParseNext s = .next (raiseError (errorOf e) s) := by
  rw [execParseNext, if_neg (Nat.not_lt.2 hlen), hp]

theorem execParseNext_of_done (hp : s.pstate = .doneIend ∨ s.pstate = .doneEob) :
    execParseNext s = .next (endOfWalk s) := by
  rw [execParseNext, if_neg (Nat.not_lt.2 hlen)]
  rcases hp with hp | hp <;> rw [hp]

theorem execParseNext_of_idle (hp : s.pstate = .idle) : execParseNext s = parseIdle s := by
  rw [execParseNext, if_neg (Nat.not_lt.2 hlen), hp]

theorem execParseNext_of_scan (hp : s.pstate = .scan) : execParseNext s = parseScan s := by
  rw [execParseNext, if_neg (Nat.not_lt.2 hlen), hp]

end InLenInIbuf

/-! ### The signature check (R128) -/

theorem parseIdle_of_short {s : State} (h : s.inLen.toNat < 8) : parseIdle s = .next (failParse .magicMismatch s) :=
  if_pos h

/-- Eight held bytes are read as they stand, and nothing is drawn. -/
theorem parseIdle_of_holds {s : State} {bs : List Byte} (h8 : 8 ≤ s.inLen.toNat) (hbs : bs.length = 8)
    (hholds : holdsBytes s.ibuf 0 bs = true) :
    parseIdle s =
      if bs ≠ magic then .next (failParse .magicMismatch s) else parseScan { s with parsePos := 8, pstate := .scan } := by
  rw [parseIdle, if_neg (Nat.not_lt.2 h8), readBytes_of_holds' hholds hbs]

/-! ### The end of the buffer (R132) -/

theorem parseScan_of_short {s : State} (h : s.inLen.toNat < s.parsePos.toNat + 8) : parseScan s = .next (endOfBuffer s) := by
  have hpass : parsePass s = .done (.next (endOfBuffer s)) := if_pos h
  rw [parseScan_eq, hpass]

/-! ### How a scan and a PARSE_NEXT end -/

theorem errorOf_injective : Function.Injective errorOf := by
  intro e e' h
  cases e <;> cases e' <;> cases h <;> rfl

theorem errorOf_ne_rangeError (e : ParseError) : errorOf e ≠ .rangeError := by cases e <;> decide

/-- A scan that completes fails at a chunk, ends the walk without a chunk, or returns a chunk of some kind (R126). -/
theorem ScanEffect.status {s t : State} (h : ScanEffect s (.next t)) :
    (∃ e, t.lastError = some (errorOf e) ∧ t.pstate = .error e ∧ e ≠ .magicMismatch) ∨
    (t.lastError = none ∧ t.pstate = .doneEob ∧ t.result = 0) ∨
    (∃ k, t.lastError = none ∧ t.pstate = (if k = .iend then .doneIend else s.pstate) ∧ t.result = kindCode k) := by
  rcases h with ⟨h, -⟩ | ⟨_, _, _, e, h, -, he, -⟩ | ⟨_, _, _, h, -⟩ | ⟨_, _, _, k, _, _, _, h, -⟩ <;> cases h
  · exact .inl ⟨e, rfl, rfl, by rcases he with rfl | rfl <;> decide⟩
  · exact .inr (.inl ⟨rfl, rfl, rfl⟩)
  · exact .inr (.inr ⟨k, rfl, rfl, rfl⟩)

theorem ScanEffect.pstate_of_error {s t : State} {e : ParseError} (h : ScanEffect s (.next t))
    (herr : t.lastError = some (errorOf e)) : t.pstate = .error e ∧ e ≠ .magicMismatch := by
  rcases h.status with ⟨e', he, hp, hm⟩ | ⟨hnone, -⟩ | ⟨_, hnone, -⟩
  · obtain rfl := errorOf_injective (Option.some.inj (he.symm.trans herr))
    exact ⟨hp, hm⟩
  · simp [hnone] at herr
  · simp [hnone] at herr

/-- A PARSE_NEXT that reports a parser error leaves the parser in ERROR with that error, and a MagicMismatch comes from ERROR
or from IDLE, where PARSE_POS stays (R126, R131). -/
theorem execParseNext_of_reported {s t : State} {e : ParseError} (h : execParseNext s = .next t)
    (herr : t.lastError = some (errorOf e)) :
    t.pstate = .error e ∧
    (e = .magicMismatch → (s.pstate = .idle ∨ s.pstate = .error .magicMismatch) ∧ t.parsePos = s.parsePos) := by
  rcases execParseNext_effect h with ⟨h, -⟩ | ⟨-, h⟩ | ⟨-, e', hp, h⟩ | ⟨-, -, h⟩ | ⟨-, hp, _, h⟩ | ⟨-, -, -, _, hscan⟩ |
    ⟨-, -, hscan⟩
  · cases h
  · cases h
    exact absurd (Option.some.inj herr).symm (errorOf_ne_rangeError e)
  · cases h
    obtain rfl := errorOf_injective (Option.some.inj herr)
    exact ⟨hp, fun hm => ⟨.inr (hm ▸ hp), rfl⟩⟩
  · cases h
    cases herr
  · cases h
    obtain rfl := errorOf_injective (Option.some.inj herr)
    exact ⟨rfl, fun _ => ⟨.inl hp, rfl⟩⟩
  · exact (hscan.pstate_of_error herr).imp_right fun hm he => absurd he hm
  · exact (hscan.pstate_of_error herr).imp_right fun hm he => absurd he hm

/-- A PARSE_NEXT from IDLE or SCAN that raises no error has scanned from SCAN (R126). -/
theorem execParseNext_scanned {s t : State} (h : execParseNext s = .next t) (hp : s.pstate = .idle ∨ s.pstate = .scan)
    (hok : t.lastError = none) : ∃ s', s'.pstate = .scan ∧ ScanEffect s' (.next t) := by
  rcases execParseNext_effect h with ⟨h, -⟩ | ⟨-, h⟩ | ⟨-, _, -, h⟩ | ⟨-, hdone, -⟩ | ⟨-, -, _, h⟩ | ⟨-, -, -, _, hscan⟩ |
    ⟨-, hs, hscan⟩
  · cases h
  · cases h; cases hok
  · cases h; cases hok
  · rcases hp with hp | hp <;> simp [hp] at hdone
  · cases h; cases hok
  · exact ⟨_, rfl, hscan⟩
  · exact ⟨s, hs, hscan⟩

/-! ### Which commands change PSTATE -/

theorem exec_keeps_pstate {i : Instr} {s t : State} (h : exec i s = .next t) (hreset : i ≠ .parseReset)
    (hnext : i ≠ .parseNext) : t.pstate = s.pstate := by
  have he := exec_effect i s hnext
  rw [h] at he
  rcases he with ⟨⟨⟩, -⟩ | ⟨_, ⟨⟩⟩ | ⟨_, _, -, ⟨⟩⟩ | ⟨-, ⟨⟩⟩ | ⟨-, ⟨⟩⟩ | ⟨hi, -⟩ | ⟨_, _, _, -, ⟨⟩⟩ | ⟨_, _, -, -, ⟨⟩⟩ |
    ⟨-, ⟨⟩⟩ | ⟨_, _, _, _, _, _, -, -, -, -, ⟨⟩⟩
  on_goal 5 => exact absurd hi hreset
  all_goals rfl

/-- In ERROR, DONE_IEND and DONE_EOB, PARSE_NEXT stays (R131, R132). -/
theorem execParseNext_keeps_ended {s t : State} (h : execParseNext s = .next t) (hidle : s.pstate ≠ .idle)
    (hscan : s.pstate ≠ .scan) : t.pstate = s.pstate := by
  rcases execParseNext_cases s with ⟨-, he⟩ | ⟨-, ⟨_, -, he⟩ | ⟨-, he⟩ | ⟨hp, -⟩ | ⟨hp, -⟩⟩
  · cases he.symm.trans h; rfl
  · cases he.symm.trans h; rfl
  · cases he.symm.trans h; rfl
  · exact absurd hp hidle
  · exact absurd hp hscan

/-- PARSE_RESET is the only way out of ERROR, DONE_IEND and DONE_EOB (R125). -/
theorem exec_keeps_ended {i : Instr} {s t : State} (h : exec i s = .next t) (hreset : i ≠ .parseReset)
    (hidle : s.pstate ≠ .idle) (hscan : s.pstate ≠ .scan) : t.pstate = s.pstate := by
  by_cases hnext : i = .parseNext
  · subst hnext; exact execParseNext_keeps_ended h hidle hscan
  · exact exec_keeps_pstate h hreset hnext

/-! ### STATUS in ERROR (10_state.md R33) -/

theorem statusPState_of_error {s : State} {e : ParseError} (h : s.pstate = .error e) : statusPState s = 4 := by
  rw [statusPState, h]

theorem statusPErr_of_error {s : State} {e : ParseError} (h : s.pstate = .error e) :
    statusPErr s = errorCodeBits (errorOf e) := by
  rw [statusPErr, h]

/-! ### The statements -/

/-- Settles O19: the effect is the command's definition, the row has one legal word, and no other command leaves an ended
parser state. -/
theorem parseResetRule : Obligations.ParseResetRule :=
  ⟨rfl, fun _ => rfl, fun s _ hopc hw => runWord_of_ne_only_word (op := .parseReset) rfl rfl rfl hopc hw s,
    fun _ _ _ h hreset hidle hscan => exec_keeps_ended h hreset hidle hscan⟩

/-- Settles O20: the IDLE arm on a short buffer and on eight held bytes, and where a MagicMismatch can come from. -/
theorem signatureRule : Obligations.SignatureRule := by
  unfold Obligations.SignatureRule
  refine ⟨fun s hp hlen hshort => ?short, fun s bs hp hlen h8 hbs hholds => ?signature, fun s t hok h herr => ?position⟩
  case short => exact (execParseNext_of_idle hlen hp).trans (parseIdle_of_short hshort)
  case signature =>
    have hidle := (execParseNext_of_idle hlen hp).trans (parseIdle_of_holds h8 hbs hholds)
    refine ⟨fun hne => hidle.trans (if_pos hne), fun heq => ?_⟩
    have hscan := execParseNext_of_scan (s := { s with pstate := .scan, parsePos := 8 }) hlen rfl
    exact (hidle.trans (if_neg (not_not_intro heq))).trans hscan.symm
  case position =>
    obtain ⟨-, hmagic⟩ := execParseNext_of_reported (e := .magicMismatch) h herr
    obtain ⟨hpos, hkept⟩ := hmagic rfl
    obtain ⟨-, hzero⟩ := hok
    rw [if_pos hpos] at hzero
    exact hkept.trans hzero

/-- Settles O26: PARSE_NEXT reports a parser error only into ERROR, repeats it there, and PARSE_RESET alone leaves. -/
theorem parserErrorsAreSticky : Obligations.ParserErrorsAreSticky := by
  unfold Obligations.ParserErrorsAreSticky
  refine ⟨fun s t e h herr => ?reported, fun s e hp hlen => execParseNext_of_error hlen hp, fun i s t e hp h => ?left⟩
  case reported =>
    obtain ⟨hp, -⟩ := execParseNext_of_reported h herr
    refine ⟨hp, statusPState_of_error hp, (statusPErr_of_error hp).trans ?_⟩
    cases e <;> rfl
  case left =>
    split_ifs with hi
    · subst hi; cases h; rfl
    · exact (exec_keeps_ended h hi (by simp [hp]) (by simp [hp])).trans hp

/-- Settles O27: a scan without an error ends in DONE_EOB or with a chunk, whose kind is told by RESULT. -/
theorem endOfWalkRule : Obligations.EndOfWalk := by
  unfold Obligations.EndOfWalk
  refine ⟨fun s t hp h hok => ?walk, fun s hp hlen hshort => ?buffer, fun s hp hlen => execParseNext_of_done hlen hp⟩
  case walk =>
    obtain ⟨s', hs', hscan⟩ := execParseNext_scanned h hp hok
    rcases hscan.status with ⟨_, herr, -⟩ | ⟨-, hps, hr⟩ | ⟨k, -, hps, hr⟩
    · simp [herr] at hok
    · simp [hps, hr]
    · rw [hs'] at hps
      cases k <;> simp [hps, hr, kindCode]
  case buffer => exact (execParseNext_of_scan hlen hp).trans (parseScan_of_short hshort)

end Sys2Proof.Machine
end

section
/-! The defilter family (42_defilter.md): the filters byte by byte, and the commands PAETH, UNFILT and ROW_CLEAR. -/

namespace Sys2Proof

/-! ### Words that decode (R84) -/

/-- A word with a row's OPC whose fields are 0 where the row marks "0" is the row's command on its fields. -/
theorem decode_of_zero_fields {op : Opcode} {w : Word} (hopc : fieldOPC w = op.code) (h1 : op.f1Zero = true → fieldF1 w = 0)
    (h2 : op.f2Zero = true → fieldF2 w = 0) (h3 : op.f3Zero = true → fieldF3 w = 0) :
    decode w = .ok (op.instr (fieldF1 w) (fieldF2 w) (fieldF3 w)) := by
  simp only [decode, hopc, Opcode.ofByte_code]
  rw [if_neg (fun ⟨hm, hf⟩ => hf (h1 hm)), if_neg (fun ⟨hm, hf⟩ => hf (h2 hm)), if_neg (fun ⟨hm, hf⟩ => hf (h3 hm))]

end Sys2Proof

namespace Sys2Proof.Machine

/-! ### One byte (R151, R152) -/

theorem paeth_self (a : Byte) : paeth a a a = a := if_pos ⟨le_rfl, le_rfl⟩

/-- A filter answers the same when the neighbours it uses are the same. -/
theorem recon_congr {f : FilterType} {a b c a' b' c' : Byte} (filt : Byte) (ha : usesA f = true → a = a')
    (hb : usesB f = true → b = b') (hc : usesC f = true → c = c') : recon f filt a b c = recon f filt a' b' c' := by
  rw [← recon_unused f filt a b c, ← recon_unused f filt a' b' c', ite_congr rfl ha fun _ => rfl, ite_congr rfl hb fun _ => rfl,
    ite_congr rfl hc fun _ => rfl]

/-! ### UNFILT by its tag (R154) -/

theorem execUnfilt_of_filter {t : Byte} {f : FilterType} (h : filterOfTag t = some f) (s : State) :
    execUnfilt t s = .next (succeed { s with
      result := zext32 (recon f (unfiltFilt s) (unfiltA s) (unfiltB s) (unfiltC s)) }) := by
  rw [execUnfilt, h]

theorem execUnfilt_of_tag_gt {t : Byte} (h : 4 < t.toNat) (s : State) :
    execUnfilt t s = .next (raiseError .invalidFilterType s) := by
  rw [execUnfilt, filterOfTag_eq_none.2 h]

/-! ### The statements -/

/-- Settles O35: the filter of the tag, or none, decides UNFILT; F2 and F3 are marked "0" in its row. -/
theorem unfiltRule : Obligations.UnfiltRule := by
  unfold Obligations.UnfiltRule
  refine ⟨fun t f s hf => execUnfilt_of_filter hf s, fun t ht => Option.isSome_iff_exists.1 (filterOfTag_isSome.2 ht),
    fun t s ht => execUnfilt_of_tag_gt ht s, fun w hopc hf2 hf3 => ?legal, fun s w hopc hfield => ?illegal,
    fun f filt a b c a' b' c' => recon_congr filt, by decide, fun s t harg hnext => ?r154Example⟩
  case legal => exact decode_of_zero_fields (op := .unfilt) hopc nofun (fun _ => hf2) (fun _ => hf3)
  case illegal =>
    refine runWord_of_nonzero_field (op := .unfilt) hopc (.inr ?_) s
    exact hfield.imp (fun hf2 => ⟨rfl, hf2⟩) (fun hf3 => ⟨rfl, hf3⟩)
  case r154Example =>
    have hexec := execUnfilt_of_filter (t := 4) rfl s
    obtain rfl := Host.Outcome.next.inj (hexec.symm.trans hnext)
    simp only [succeed_result, unfiltFilt, unfiltA, unfiltB, unfiltC, harg]
    decide

/-- Settles O36: PRIOR is the zero-filled buffer, and the row has one legal word. -/
theorem rowClearRule : Obligations.RowClearRule := by
  unfold Obligations.RowClearRule
  refine ⟨rfl, fun s => ⟨_, rfl, rfl, fun i hi => ?inside, fun i hi => ?outside, fun _ => rfl, fun _ => rfl⟩,
    fun s _ hopc hw => runWord_of_ne_only_word (op := .rowClear) rfl rfl rfl hopc hw s⟩
  case inside => exact (bufRead_fillZero s.params.rowMax s.prior i).trans (if_pos hi)
  case outside => exact (bufRead_fillZero s.params.rowMax s.prior i).trans (if_neg (Nat.not_lt.2 hi))

/-- Settles O33: each tag's filter is a full sum brought back to a byte once, which is its value mod 256. -/
theorem inverseFilters : Obligations.InverseFilters := by
  unfold Obligations.InverseFilters
  intro t filt a b c
  refine ⟨?none, ?sub, ?up, ?average, ?paeth, filterOfTag_eq_none.2⟩
  case none => rintro rfl; exact ⟨.none, rfl, rfl⟩
  case sub => rintro rfl; exact ⟨.sub, rfl, BitVec.toNat_ofNat ..⟩
  case up => rintro rfl; exact ⟨.up, rfl, BitVec.toNat_ofNat ..⟩
  case average => rintro rfl; exact ⟨.average, rfl, BitVec.toNat_ofNat ..⟩
  case paeth => rintro rfl; exact ⟨.paeth, rfl, BitVec.toNat_ofNat ..⟩

/-- Settles O34: the effect is the command's definition, and its row marks no field "0". -/
theorem paethRule : Obligations.PaethRule := by
  unfold Obligations.PaethRule
  have hexample : paeth 10 20 15 = 15 := by decide
  refine ⟨fun _ _ _ _ => rfl, fun w hopc => decode_of_zero_fields (op := .paeth) hopc nofun nofun nofun, paeth_self, by decide,
    hexample, by decide, fun s => ⟨_, rfl, congrArg zext32 hexample⟩⟩

end Sys2Proof.Machine
end

section
/-! The control family (43_control.md): NOP, and what it leaves of the STATUS word. -/

namespace Sys2Proof.Machine

/-! ### STATUS at a successful end (R191) -/

/-- PERR (bits 15:12) and PSTATE (bits 10:8) are read from the old STATUS; every other bit reads 0. -/
theorem statusWord_succeed (s : State) :
    statusWord (succeed s) = (0 : BitVec 16) ++ (statusWord s).extractLsb' 12 4 ++ (0 : BitVec 1)
      ++ (statusWord s).extractLsb' 8 3 ++ (0 : BitVec 4) ++ (0 : BitVec 2) ++ (0 : BitVec 1) ++ (0 : BitVec 1) := by
  rw [statusWord_perr, statusWord_pstate]
  rfl

/-! ### The statement -/

/-- Settles O8: the effect is the command's definition, the row has one legal word, and in both examples STATUS keeps PERR and
PSTATE only. -/
theorem nopRule : Obligations.NopRule := by
  unfold Obligations.NopRule
  refine ⟨rfl, fun _ => rfl, fun s _ hopc hw => runWord_of_ne_only_word (op := .nop) rfl rfl rfl hopc hw s, ?examples⟩
  case examples =>
    intro s t hnext
    obtain rfl := Host.Outcome.next.inj hnext
    rw [statusWord_succeed]
    constructor
    · intro hs; rw [hs]; rfl
    · intro hs; rw [hs]; rfl

end Sys2Proof.Machine
end

section
/-! The encoder and the decoder (30_encoding.md): they are inverse to each other, and the opcode table's masks and patterns pick
out the words that decode. -/

namespace Sys2Proof

/-! ### Decoding what was encoded -/

theorem encode_fields (i : Instr) : Laws.EncodedFields.Statement i := by
  cases i with
  | nop => exact Laws.EncodedFields.nop
  | crcInit => exact Laws.EncodedFields.crcInit
  | crcByte d => exact Laws.EncodedFields.crcByte d
  | crcBuf => exact Laws.EncodedFields.crcBuf
  | crcFinal => exact Laws.EncodedFields.crcFinal
  | parseReset => exact Laws.EncodedFields.parseReset
  | parseNext => exact Laws.EncodedFields.parseNext
  | paeth a b c => exact Laws.EncodedFields.paeth a b c
  | unfilt t => exact Laws.EncodedFields.unfilt t
  | rowClear => exact Laws.EncodedFields.rowClear
  | rowUnfilt t bpp => exact Laws.EncodedFields.rowUnfilt t bpp

open Laws.EncodedFields in
/-- The row of a command, on the fields of its word, is the command. -/
theorem opcode_instr_encode (i : Instr) :
    i.opcode.instr (fieldF1 (encode i)) (fieldF2 (encode i)) (fieldF3 (encode i)) = i := by
  cases i with
  | nop | crcInit | crcBuf | crcFinal | parseReset | parseNext | rowClear => rfl
  | crcByte | paeth | unfilt | rowUnfilt =>
    simp only [Instr.opcode, Opcode.instr, encode, fieldF1_packWord, fieldF2_packWord, fieldF3_packWord]

theorem decode_encode (i : Instr) : decode (encode i) = .ok i := by
  obtain ⟨hopc, h1, h2, h3⟩ := encode_fields i
  rw [decode_of_zero_fields hopc h1 h2 h3, opcode_instr_encode]

/-! ### Words that decode (R84) -/

theorem Opcode.opcode_instr (op : Opcode) (f1 f2 f3 : Byte) : (op.instr f1 f2 f3).opcode = op := by cases op <;> rfl

/-- The word has the row's OPC, and 0 in every field the row marks "0" (R83). -/
def Opcode.Fits (op : Opcode) (w : Word) : Prop :=
  fieldOPC w = op.code ∧ (op.f1Zero = true → fieldF1 w = 0) ∧ (op.f2Zero = true → fieldF2 w = 0) ∧
  (op.f3Zero = true → fieldF3 w = 0)

/-- A word decodes exactly to a row that it fits, on its fields. -/
theorem decode_eq_ok_iff {w : Word} {i : Instr} :
    decode w = .ok i ↔ i.opcode.Fits w ∧ i = i.opcode.instr (fieldF1 w) (fieldF2 w) (fieldF3 w) := by
  constructor
  · intro h
    cases hrow : Opcode.ofByte (fieldOPC w) with
    | none => simp [decode_of_ofByte_none hrow] at h
    | some op =>
      have hlegal : ¬ ∃ e, decode w = .error e := by simp [h]
      rw [decode_error_iff_of_ofByte_some hrow, not_or, not_or, not_and_not_right, not_and_not_right, not_and_not_right] at hlegal
      obtain ⟨h1, h2, h3⟩ := hlegal
      have hopc := Opcode.code_eq_of_ofByte hrow
      rw [decode_of_zero_fields hopc h1 h2 h3, Except.ok.injEq] at h
      subst h
      rw [op.opcode_instr]
      exact ⟨⟨hopc, h1, h2, h3⟩, rfl⟩
  · rintro ⟨⟨hopc, h1, h2, h3⟩, hi⟩
    rw [decode_of_zero_fields hopc h1 h2 h3, ← hi]

/-- The word of a row's command on fields that are 0 where the row marks "0". -/
theorem encode_instr {op : Opcode} {f1 f2 f3 : Byte} (h1 : op.f1Zero = true → f1 = 0) (h2 : op.f2Zero = true → f2 = 0)
    (h3 : op.f3Zero = true → f3 = 0) : encode (op.instr f1 f2 f3) = packWord f3 f2 f1 op.code := by
  cases op with
  | nop | crcInit | crcBuf | crcFinal | parseReset | parseNext | rowClear => rw [h1 rfl, h2 rfl, h3 rfl]; rfl
  | crcByte | unfilt => rw [h2 rfl, h3 rfl]; rfl
  | paeth => rfl
  | rowUnfilt => rw [h3 rfl]; rfl

theorem encode_of_decode {w : Word} {i : Instr} (h : decode w = .ok i) : encode i = w := by
  obtain ⟨⟨hopc, h1, h2, h3⟩, hi⟩ := decode_eq_ok_iff.1 h
  rw [hi, encode_instr h1 h2 h3, ← hopc, packWord_fields]

/-! ### The opcode table -/

/-- The mask of a field: all its bits where the row marks "0", none elsewhere. -/
def zeroMask (marked : Bool) : Byte := if marked then 0xFF else 0

/-- The row of the opcode table that R83's marks call for. -/
def Opcode.tableRow (op : Opcode) : TableRow :=
  ⟨op, packWord (zeroMask op.f3Zero) (zeroMask op.f2Zero) (zeroMask op.f1Zero) 0xFF, packWord 0 0 0 op.code⟩

theorem opcodeTable_eq : opcodeTable = Opcode.all.map Opcode.tableRow := by decide

theorem Opcode.mem_all (op : Opcode) : op ∈ Opcode.all := by cases op <;> decide

theorem Opcode.code_injective : Function.Injective Opcode.code := by
  intro op op' h
  have hrow := op.ofByte_code
  rw [h, op'.ofByte_code] at hrow
  exact (Option.some.inj hrow).symm

theorem packWord_and (f3 f2 f1 opc g3 g2 g1 gopc : Byte) :
    packWord f3 f2 f1 opc &&& packWord g3 g2 g1 gopc = packWord (f3 &&& g3) (f2 &&& g2) (f1 &&& g1) (opc &&& gopc) := by
  have hupper : (f3 ++ f2 ++ f1) &&& (g3 ++ g2 ++ g1) = (f3 &&& g3) ++ (f2 &&& g2) ++ (f1 &&& g1) := by
    rw [BitVec.and_append, BitVec.and_append]
  exact BitVec.and_append.trans (congrArg (· ++ (opc &&& gopc)) hupper)

open Laws.EncodedFields in
theorem packWord_inj {f3 f2 f1 opc g3 g2 g1 gopc : Byte} :
    packWord f3 f2 f1 opc = packWord g3 g2 g1 gopc ↔ f3 = g3 ∧ f2 = g2 ∧ f1 = g1 ∧ opc = gopc := by
  refine ⟨fun h => ⟨?_, ?_, ?_, ?_⟩, ?_⟩
  · simpa only [fieldF3_packWord] using congrArg fieldF3 h
  · simpa only [fieldF2_packWord] using congrArg fieldF2 h
  · simpa only [fieldF1_packWord] using congrArg fieldF1 h
  · simpa only [fieldOPC_packWord] using congrArg fieldOPC h
  · rintro ⟨rfl, rfl, rfl, rfl⟩; rfl

theorem and_zeroMask_eq_zero_iff (f : Byte) (marked : Bool) : f &&& zeroMask marked = 0 ↔ (marked = true → f = 0) := by
  cases marked with
  | false => simp [zeroMask]
  | true => rw [zeroMask, if_pos rfl, show (0xFF : Byte) = BitVec.allOnes 8 from rfl, BitVec.and_allOnes]; simp

/-- A row's fixed bits are its OPC and the fields it marks "0". -/
theorem tableRow_covers_iff (op : Opcode) (w : Word) : op.tableRow.covers w = true ↔ op.Fits w := by
  have hopc : fieldOPC w &&& 0xFF = fieldOPC w := BitVec.and_allOnes
  have hand := packWord_and (fieldF3 w) (fieldF2 w) (fieldF1 w) (fieldOPC w) (zeroMask op.f3Zero) (zeroMask op.f2Zero)
    (zeroMask op.f1Zero) 0xFF
  rw [packWord_fields, hopc] at hand
  rw [TableRow.covers, beq_iff_eq, Opcode.tableRow, hand, packWord_inj]
  simp only [and_zeroMask_eq_zero_iff, Opcode.Fits]
  tauto

theorem Opcode.eq_of_fits {op op' : Opcode} {w : Word} (h : op.Fits w) (h' : op'.Fits w) : op = op' :=
  Opcode.code_injective (h.1.symm.trans h'.1)

/-- A word fits a row exactly when it decodes to a command of the row. -/
theorem Opcode.fits_iff_decode (op : Opcode) (w : Word) : op.Fits w ↔ ∃ i, decode w = .ok i ∧ i.opcode = op := by
  constructor
  · intro h
    have hop := op.opcode_instr (fieldF1 w) (fieldF2 w) (fieldF3 w)
    exact ⟨_, decode_eq_ok_iff.2 ⟨hop.symm ▸ h, by rw [hop]⟩, hop⟩
  · rintro ⟨i, hi, rfl⟩
    exact (decode_eq_ok_iff.1 hi).1

/-! ### The statements -/

/-- Settles O2: the word's fields are the row's OPC and the operands, and decoding puts them back into the row's command. -/
theorem decodeAfterEncode : Obligations.DecodeAfterEncode := decode_encode

/-- Settles O3: a word that decodes fits its row, and it is packed from its fields. -/
theorem encodeAfterDecode : Obligations.EncodeAfterDecode := fun _ _ => encode_of_decode

/-- Settles O4: the table is built from the marks of R83, so covering a word is fitting the row. -/
theorem opcodeTableAgreesWithDecode : Obligations.OpcodeTableAgreesWithDecode := by
  unfold Obligations.OpcodeTableAgreesWithDecode
  rw [opcodeTable_eq]
  simp only [List.forall_mem_map]
  refine ⟨fun op _ w => ?_, fun op _ op' _ w h h' => ?_, fun i => ?_⟩
  · exact (tableRow_covers_iff op w).trans (op.fits_iff_decode w)
  · rw [Opcode.eq_of_fits ((tableRow_covers_iff op w).1 h) ((tableRow_covers_iff op' w).1 h')]
  · exact ⟨_, List.mem_map_of_mem i.opcode.mem_all, rfl⟩

/-- Settles O1: each word decodes by evaluation. -/
theorem sampleWordsDecode : Obligations.SampleWordsDecode := by
  unfold Obligations.SampleWordsDecode
  decide

end Sys2Proof
end

section
/-! What every command does (60_exceptions.md R191, R193): how it completes, when it stops, and what it leaves of the units, the
host's registers and the buffers. -/

namespace Sys2Proof.Machine

theorem exec_next_effect {i : Instr} {s t : State} (h : exec i s = .next t) (hi : i ≠ .parseNext) :
    CommandEffect i s (.next t) := h ▸ exec_effect i s hi

/-! ### Completing or stopping -/

theorem ScanEffect.completes_or_stops {s : State} {o} (h : ScanEffect s o) :
    (∃ t, o = .next t) ∨
    (o = .fault .unwrittenRead ∧ s.params.unwritten = .fault ∧ ∃ j, j < s.inLen.toNat ∧ bufRead s.ibuf j = none) := by
  rcases h with hstop | ⟨_, _, _, _, h, -⟩ | ⟨_, _, _, h, -⟩ | ⟨_, _, _, _, _, _, _, h, -⟩
  · exact .inr hstop
  all_goals exact .inl ⟨_, h⟩

/-- PARSE_NEXT stops only on an unwritten byte below IN_LEN. -/
theorem execParseNext_completes_or_stops (s : State) :
    (∃ t, execParseNext s = .next t) ∨
    (execParseNext s = .fault .unwrittenRead ∧ s.params.unwritten = .fault ∧
      ∃ j, j < s.inLen.toNat ∧ bufRead s.ibuf j = none) := by
  rcases execParseNext_effect (s := s) rfl with hstop | ⟨-, h⟩ | ⟨-, _, -, h⟩ | ⟨-, -, h⟩ | ⟨-, -, _, h⟩ | ⟨-, -, -, _, hscan⟩ |
    ⟨-, -, hscan⟩
  · exact .inr hstop
  · exact .inl ⟨_, h⟩
  · exact .inl ⟨_, h⟩
  · exact .inl ⟨_, h⟩
  · exact .inl ⟨_, h⟩
  · exact hscan.completes_or_stops
  · exact hscan.completes_or_stops

theorem CommandEffect.completes_or_stops {i : Instr} {s : State} {o} (h : CommandEffect i s o) :
    (∃ t, o = .next t) ∨
    (o = .fault .unwrittenRead ∧ s.params.unwritten = .fault ∧ (i = .crcBuf ∨ ∃ t bpp, i = .rowUnfilt t bpp)) := by
  rcases h with hstop | ⟨_, h⟩ | ⟨_, _, -, h⟩ | ⟨-, h⟩ | ⟨-, h⟩ | ⟨-, h⟩ | ⟨_, _, _, -, h⟩ | ⟨_, _, -, -, h⟩ | ⟨-, h⟩ |
    ⟨_, _, _, _, _, _, -, -, -, -, h⟩
  · exact .inr hstop
  all_goals exact .inl ⟨_, h⟩

/-- Every command completes, or stops on an unwritten byte under `fault`, and only three can (R12, R196). -/
theorem exec_completes_or_stops (i : Instr) (s : State) :
    (∃ t, exec i s = .next t) ∨
    (exec i s = .fault .unwrittenRead ∧ s.params.unwritten = .fault ∧
      (i = .crcBuf ∨ i = .parseNext ∨ ∃ t bpp, i = .rowUnfilt t bpp)) := by
  by_cases hi : i = .parseNext
  · subst hi
    exact (execParseNext_completes_or_stops s).imp_right fun ⟨h, hu, _⟩ => ⟨h, hu, .inr (.inl rfl)⟩
  · exact (exec_effect i s hi).completes_or_stops.imp_right fun ⟨h, hu, hi⟩ => ⟨h, hu, hi.imp_right .inr⟩

/-! ### Bytes that may be read (00_scope.md R12) -/

theorem bufRead_ne_none_of_readable {u : UnwrittenRead} {m : Buffer} {n j : Nat} (h : readable u m 0 n) (hu : u = .fault)
    (hj : j < n) : bufRead m j ≠ none := by
  rcases h with hany | hw
  · rw [hu] at hany; cases hany
  · have := hw j hj
    rw [Nat.zero_add] at this
    exact Option.isSome_iff_ne_none.1 this

theorem execParseNext_completes_of_readable {s : State} (h : readable s.params.unwritten s.ibuf 0 s.inLen.toNat) :
    ∃ t, execParseNext s = .next t := by
  rcases execParseNext_completes_or_stops s with hnext | ⟨-, hu, j, hj, hnone⟩
  · exact hnext
  · exact absurd hnone (bufRead_ne_none_of_readable h hu hj)

theorem readable_mono {u : UnwrittenRead} {m : Buffer} {n n' : Nat} (h : readable u m 0 n) (hn : n' ≤ n) : readable u m 0 n' :=
  h.imp_right fun hw j hj => hw j (by omega)

/-- Every command completes where the three buffers may be read. -/
theorem exec_completes_of_readable {s : State} (h : ∀ b : BufId, readable s.params.unwritten (s.buf b) 0 (bufSize s.params b))
    (i : Instr) : ∃ t, exec i s = .next t := by
  have hibuf : readable s.params.unwritten s.ibuf 0 s.params.ibufSize := h .ibuf
  have hcur : readable s.params.unwritten s.cur 0 s.params.rowMax := h .cur
  have hprior : readable s.params.unwritten s.prior 0 s.params.rowMax := h .prior
  rcases exec_completes_or_stops i s with hnext | ⟨-, hu, rfl | rfl | ⟨t, bpp, rfl⟩⟩
  · exact hnext
  · rcases execCrcBuf_cases s with ⟨-, e⟩ | ⟨-, -, e⟩ | ⟨hsize, hrange, hread, -⟩ | ⟨-, -, _, _, -, e⟩
    · exact ⟨_, e⟩
    · exact ⟨_, e⟩
    · obtain ⟨-, j, hj, hnone⟩ := readBytes_eq_none.1 hread
      exact absurd hnone (bufRead_ne_none_of_readable hibuf hu (by omega))
    · exact ⟨_, e⟩
  · rcases execParseNext_cases s with ⟨-, e⟩ | ⟨hsize, -⟩
    · exact ⟨_, e⟩
    · exact execParseNext_completes_of_readable (readable_mono hibuf hsize)
  · rcases execRowUnfilt_cases t bpp s with ⟨-, e⟩ | ⟨-, -, e⟩ | ⟨-, -, -, e⟩ | ⟨hbpp, hle, f, -, e⟩
    · exact ⟨_, e⟩
    · exact ⟨_, e⟩
    · exact ⟨_, e⟩
    · rcases unfiltRow_cases f bpp.toNat s.arg0.toNat s with ⟨hrow, -⟩ | ⟨_, _, _, -, -, -, e'⟩
      · obtain ⟨-, j, hj, ⟨-, hnone⟩ | ⟨-, hnone⟩⟩ := reconRow_eq_none hrow hbpp (by intro j hj; omega)
        · exact absurd hnone (bufRead_ne_none_of_readable hcur hu (by omega))
        · exact absurd hnone (bufRead_ne_none_of_readable hprior hu (by omega))
      · exact ⟨_, e.trans e'⟩

/-! ### STATUS at the end of a command (R191) -/

theorem statusErr_of_error {s : State} {e : ErrorCode} (h : s.lastError = some e) : statusErr s = 1 := by
  rw [statusErr, h]; rfl

theorem statusErrCode_of_error {s : State} {e : ErrorCode} (h : s.lastError = some e) : statusErrCode s = errorCodeBits e := by
  rw [statusErrCode, h]

theorem status_of_success {s : State} (h : s.lastError = none) : statusErr s = 0 ∧ statusErrCode s = 0 := by
  rw [statusErr, statusErrCode, h]; exact ⟨rfl, rfl⟩

/-! ### The frame of all commands -/

/-- What a command leaves of the host's side: its registers, IBUF, and the model's own fields but the draw count. -/
structure KeepsHost (s t : State) : Prop where
  cmd : t.cmd = s.cmd
  arg0 : t.arg0 = s.arg0
  arg1 : t.arg1 = s.arg1
  inLen : t.inLen = s.inLen
  ibuf : t.ibuf = s.ibuf
  schedule : t.schedule = s.schedule
  hostRead : t.hostRead = s.hostRead
  params : t.params = s.params

/-- The parser's registers stay. -/
structure KeepsParser (s t : State) : Prop where
  pstate : t.pstate = s.pstate
  parsePos : t.parsePos = s.parsePos
  chType : t.chType = s.chType
  chLen : t.chLen = s.chLen
  chData : t.chData = s.chData
  chCrc : t.chCrc = s.chCrc
  chCalc : t.chCalc = s.chCalc

/-- The line buffers stay. -/
def KeepsRows (s t : State) : Prop := t.cur = s.cur ∧ t.prior = s.prior

/-- What a command other than PARSE_NEXT leaves, unit by unit, and that one which fails has only raised its error (R193). -/
structure CommandFrame (i : Instr) (s t : State) : Prop where
  host : KeepsHost s t
  busy : t.busy = false
  parser : i ≠ .parseReset → KeepsParser s t
  crcState : i.opcode ∉ [Opcode.crcInit, .crcByte, .crcBuf] → t.crcState = s.crcState
  rows : i.opcode ∉ [Opcode.rowClear, .rowUnfilt] → KeepsRows s t
  failed : ∀ e, t.lastError = some e → t = raiseError e s

theorem CommandEffect.frame {i : Instr} {s t : State} (h : CommandEffect i s (.next t)) : CommandFrame i s t := by
  rcases h with ⟨⟨⟩, -⟩ | ⟨_, ⟨⟩⟩ | ⟨_, _, hcrc, ⟨⟩⟩ | ⟨-, ⟨⟩⟩ | ⟨-, ⟨⟩⟩ | ⟨hreset, ⟨⟩⟩ | ⟨_, _, _, -, ⟨⟩⟩ | ⟨_, _, -, -, ⟨⟩⟩ |
    ⟨hclear, ⟨⟩⟩ | ⟨_, _, _, _, _, _, hrow, -, -, -, ⟨⟩⟩
  on_goal 2 =>
    exact ⟨⟨rfl, rfl, rfl, rfl, rfl, rfl, rfl, rfl⟩, rfl, fun _ => ⟨rfl, rfl, rfl, rfl, rfl, rfl, rfl⟩,
      fun hi => absurd hcrc hi, fun _ => ⟨rfl, rfl⟩, nofun⟩
  on_goal 4 =>
    exact ⟨⟨rfl, rfl, rfl, rfl, rfl, rfl, rfl, rfl⟩, rfl, fun hi => absurd hreset hi, fun _ => rfl, fun _ => ⟨rfl, rfl⟩, nofun⟩
  on_goal 6 =>
    exact ⟨⟨rfl, rfl, rfl, rfl, rfl, rfl, rfl, rfl⟩, rfl, fun _ => ⟨rfl, rfl, rfl, rfl, rfl, rfl, rfl⟩, fun _ => rfl,
      fun hi => absurd (by rw [hclear]; decide) hi, nofun⟩
  on_goal 6 =>
    exact ⟨⟨rfl, rfl, rfl, rfl, rfl, rfl, rfl, rfl⟩, rfl, fun _ => ⟨rfl, rfl, rfl, rfl, rfl, rfl, rfl⟩, fun _ => rfl,
      fun hi => absurd (by rw [hrow, Instr.opcode]; decide) hi, nofun⟩
  all_goals
    exact ⟨⟨rfl, rfl, rfl, rfl, rfl, rfl, rfl, rfl⟩, rfl, fun _ => ⟨rfl, rfl, rfl, rfl, rfl, rfl, rfl⟩, fun _ => rfl,
      fun _ => ⟨rfl, rfl⟩, fun _ he => by cases he <;> rfl⟩

theorem exec_frame {i : Instr} {s t : State} (h : exec i s = .next t) (hi : i ≠ .parseNext) : CommandFrame i s t :=
  (exec_next_effect h hi).frame

/-- What PARSE_NEXT leaves (41_parser.md R126). -/
structure ParserFrame (s t : State) : Prop where
  host : KeepsHost s t
  busy : t.busy = false
  crcState : t.crcState = s.crcState
  rows : KeepsRows s t

theorem ParserAnswer.frame {s t : State} (h : ParserAnswer s t) : ParserFrame s t := by
  obtain ⟨_, _, _, _, ⟨_, rfl⟩ | rfl | ⟨_, _, _, _, _, -, rfl⟩⟩ := h
  all_goals exact ⟨⟨rfl, rfl, rfl, rfl, rfl, rfl, rfl, rfl⟩, rfl, rfl, ⟨rfl, rfl⟩⟩

/-- A failing PARSE_NEXT has moved the parser and raised its error (R193). -/
theorem execParseNext_error_eq {s t : State} {e : ErrorCode} (h : execParseNext s = .next t) (he : t.lastError = some e) :
    t = raiseError e (parserMoved t.pstate t.parsePos t.chCalc t.draws s) := by
  obtain ⟨_, _, _, _, ⟨_, rfl⟩ | rfl | ⟨_, _, _, _, _, -, rfl⟩⟩ := execParseNext_answer h
  · cases he; rfl
  · cases he
  · cases he

theorem exec_keepsHost {i : Instr} {s t : State} (h : exec i s = .next t) : KeepsHost s t := by
  by_cases hi : i = .parseNext
  · subst hi; exact (execParseNext_answer h).frame.host
  · exact (exec_frame h hi).host

theorem exec_busy {i : Instr} {s t : State} (h : exec i s = .next t) : t.busy = false := by
  by_cases hi : i = .parseNext
  · subst hi; exact (execParseNext_answer h).frame.busy
  · exact (exec_frame h hi).busy

theorem exec_keepsParser {i : Instr} {s t : State} (h : exec i s = .next t)
    (hi : i.opcode ∉ [Opcode.parseReset, .parseNext]) : KeepsParser s t := by
  have hreset : i ≠ .parseReset := by rintro rfl; exact hi (by decide)
  have hnext : i ≠ .parseNext := by rintro rfl; exact hi (by decide)
  exact (exec_frame h hnext).parser hreset

theorem exec_keepsCrcState {i : Instr} {s t : State} (h : exec i s = .next t)
    (hi : i.opcode ∉ [Opcode.crcInit, .crcByte, .crcBuf]) : t.crcState = s.crcState := by
  by_cases hnext : i = .parseNext
  · subst hnext; exact (execParseNext_answer h).frame.crcState
  · exact (exec_frame h hnext).crcState hi

theorem exec_keepsRows {i : Instr} {s t : State} (h : exec i s = .next t)
    (hi : i.opcode ∉ [Opcode.rowClear, .rowUnfilt]) : KeepsRows s t := by
  by_cases hnext : i = .parseNext
  · subst hnext; exact (execParseNext_answer h).frame.rows
  · exact (exec_frame h hnext).rows hi

theorem exec_keeps_buf {i : Instr} {s t : State} (h : exec i s = .next t)
    (hi : i.opcode ∉ [Opcode.rowClear, .rowUnfilt]) (b : BufId) : t.buf b = s.buf b := by
  obtain ⟨hcur, hprior⟩ := exec_keepsRows h hi
  cases b with
  | ibuf => exact (exec_keepsHost h).ibuf
  | cur => exact hcur
  | prior => exact hprior

/-- A ROW_UNFILT that completes has raised an error, or both line buffers hold the new row (42_defilter.md R156). -/
theorem execRowUnfilt_next {t bpp : Byte} {s u : State} (h : execRowUnfilt t bpp s = .next u) :
    (∃ e, u = raiseError e s) ∨
    (s.arg0.toNat ≤ s.params.rowMax ∧ ∃ f cur row k, filterOfTag t = some f ∧
      reconRow s.params.unwritten f bpp.toNat s.prior s.arg0.toNat 0 s.cur s.draws = some (cur, k) ∧
      row.length = s.arg0.toNat ∧ holdsBytes cur 0 row = true ∧
      u = succeed { s with cur := cur, prior := writeBytes s.prior 0 row, draws := k }) := by
  rcases execRowUnfilt_cases t bpp s with ⟨-, e⟩ | ⟨-, -, e⟩ | ⟨-, -, -, e⟩ | ⟨-, hle, f, hf, e⟩ <;> rw [e] at h
  · cases h; exact .inl ⟨_, rfl⟩
  · cases h; exact .inl ⟨_, rfl⟩
  · cases h; exact .inl ⟨_, rfl⟩
  · rcases unfiltRow_cases f bpp.toNat s.arg0.toNat s with ⟨-, e⟩ | ⟨cur, row, k, hrow, hl, hh, e⟩ <;> rw [e] at h <;> cases h
    exact .inr ⟨hle, f, cur, row, k, hf, hrow, hl, hh, rfl⟩

theorem bufRead_writeBytes_outside {bs : List Byte} {m : Buffer} {i j : Nat} (h : j < i ∨ i + bs.length ≤ j) :
    bufRead (writeBytes m i bs) j = bufRead m j := by
  rw [bufRead_writeBytes, dif_neg (by omega)]

/-- ROW_UNFILT stores only to CUR and PRIOR below the row length, and to nothing when it fails (R156, R193). -/
theorem execRowUnfilt_buf {t bpp : Byte} {s u : State} (h : execRowUnfilt t bpp s = .next u) (b : BufId) (a : Nat) :
    ((b = .cur ∨ b = .prior) ∧ a < s.arg0.toNat ∧ u.lastError = none) ∨ bufRead (u.buf b) a = bufRead (s.buf b) a := by
  rcases execRowUnfilt_next h with ⟨_, rfl⟩ | ⟨-, f, cur, row, k, -, hrow, hl, -, rfl⟩
  · exact .inr (by cases b <;> rfl)
  by_cases ha : a < s.arg0.toNat
  · cases b with
    | ibuf => exact .inr rfl
    | cur => exact .inl ⟨.inl rfl, ha, rfl⟩
    | prior => exact .inl ⟨.inr rfl, ha, rfl⟩
  · cases b with
    | ibuf => exact .inr rfl
    | cur => exact .inr (reconRow_outside hrow (by omega))
    | prior => exact .inr (bufRead_writeBytes_outside (by omega))

/-! ### A command word that takes effect (30_encoding.md R84, R85) -/

theorem runWord_of_decode_ok {w : Word} {i : Instr} (h : decode w = .ok i) (s : State) : runWord w s = exec i s := by
  simp only [runWord, h]

/-- A word runs as the command it decodes to, or raises IllegalCommand. -/
theorem runWord_cases (w : Word) (s : State) :
    (∃ i, decode w = .ok i ∧ runWord w s = exec i s) ∨ runWord w s = .next (raiseError .illegalCommand s) := by
  cases h : decode w with
  | ok i => exact .inl ⟨i, rfl, runWord_of_decode_ok h s⟩
  | error e => exact .inr (runWord_of_decode_error h s)

theorem runWord_keepsHost {w : Word} {s t : State} (h : runWord w s = .next t) : KeepsHost s t := by
  rcases runWord_cases w s with ⟨i, -, e⟩ | e <;> rw [e] at h
  · exact exec_keepsHost h
  · cases h; exact ⟨rfl, rfl, rfl, rfl, rfl, rfl, rfl, rfl⟩

theorem runWord_busy {w : Word} {s t : State} (h : runWord w s = .next t) : t.busy = false := by
  rcases runWord_cases w s with ⟨i, -, e⟩ | e <;> rw [e] at h
  · exact exec_busy h
  · cases h; rfl

theorem blockTurn_keepsHost {s t : State} (h : blockTurn s = .next t) : KeepsHost s t := by
  cases hb : s.busy with
  | true => rw [blockTurn_busy hb] at h; exact runWord_keepsHost h
  | false => rw [blockTurn_idle hb] at h; cases h; exact ⟨rfl, rfl, rfl, rfl, rfl, rfl, rfl, rfl⟩

theorem blockTurn_ends_idle {s t : State} (h : blockTurn s = .next t) : t.busy = false := by
  cases hb : s.busy with
  | true => rw [blockTurn_busy hb] at h; exact runWord_busy h
  | false => rw [blockTurn_idle hb] at h; cases h; exact hb

/-! ### PSTATE and PERR over steps (10_state.md R33) -/

theorem runWord_pstate {w : Word} {s t : State} (h : runWord w s = .next t) (hne : t.pstate ≠ s.pstate) :
    decode w = .ok .parseReset ∨ decode w = .ok .parseNext := by
  rcases runWord_cases w s with ⟨i, hi, e⟩ | e <;> rw [e] at h
  · by_contra hno
    rw [hi, not_or, Except.ok.injEq, Except.ok.injEq] at hno
    exact hne (exec_keeps_pstate h hno.1 hno.2)
  · cases h; exact absurd rfl hne

theorem blockTurn_pstate {s t : State} (h : blockTurn s = .next t) (hne : t.pstate ≠ s.pstate) :
    s.busy = true ∧ (decode s.cmd = .ok .parseReset ∨ decode s.cmd = .ok .parseNext) := by
  cases hb : s.busy with
  | true => rw [blockTurn_busy hb] at h; exact ⟨rfl, runWord_pstate h hne⟩
  | false => rw [blockTurn_idle hb] at h; cases h; exact absurd rfl hne

/-! ### The statements -/

/-- Settles O44: the commands other than PARSE_NEXT by their effect, PARSE_NEXT by its own. -/
theorem commandsStopOnlyOnUnwrittenBytes : Obligations.CommandsStopOnlyOnUnwrittenBytes := exec_completes_or_stops

/-- Settles O30: a stop needs an unwritten byte below IN_LEN under `fault`. -/
theorem parseNextCompletes : Obligations.ParseNextCompletes := by
  unfold Obligations.ParseNextCompletes
  intro s h
  obtain ⟨t, ht⟩ := execParseNext_completes_of_readable h
  exact ⟨t, ht, exec_busy (i := .parseNext) ht⟩

/-- Settles O45: each unit's state is kept by the commands outside the unit. -/
theorem commandsKeepTheRest : Obligations.CommandsKeepTheRest := by
  unfold Obligations.CommandsKeepTheRest
  intro i s t h
  have hhost := exec_keepsHost h
  refine ⟨⟨hhost.cmd, hhost.arg0, hhost.arg1, hhost.inLen, fun a => by rw [hhost.ibuf], hhost.schedule, hhost.hostRead,
    hhost.params⟩, fun hi => ?parser, fun hi => ?crc, fun hi => ?rows⟩
  case parser =>
    have hp := exec_keepsParser h (by revert hi; cases i.opcode <;> decide)
    exact ⟨hp.pstate, hp.parsePos, hp.chType, hp.chLen, hp.chData, hp.chCrc, hp.chCalc⟩
  case crc => exact exec_keepsCrcState h (by revert hi; cases i.opcode <;> decide)
  case rows => exact exec_keepsRows h (by revert hi; cases i.opcode <;> decide)

/-- Settles O42: ROW_CLEAR by the zero fill, ROW_UNFILT by its row, every other command by the frame. -/
theorem bufferFrame : Obligations.BufferFrame := by
  unfold Obligations.BufferFrame
  intro i s t h b a
  cases i with
  | rowClear =>
    cases h
    cases b with
    | ibuf => exact .inr rfl
    | cur => exact .inr rfl
    | prior =>
      by_cases ha : a < s.params.rowMax
      · exact .inl ⟨rfl, ha⟩
      · exact .inr ((bufRead_fillZero s.params.rowMax s.prior a).trans (if_neg ha))
  | rowUnfilt t bpp => exact execRowUnfilt_buf h b a
  | nop | crcInit | crcByte | crcBuf | crcFinal | parseReset | parseNext | paeth | unfilt =>
    exact .inr (by rw [exec_keeps_buf h (by simp [Instr.opcode])])

/-- Settles O40: success and failure show in STATUS, and a failing command has raised its error and no more. -/
theorem completionRule : Obligations.CompletionRule := by
  unfold Obligations.CompletionRule
  intro i s t h
  refine ⟨?busy, status_of_success, fun e he =>
    ⟨statusErr_of_error he, ?code, fun hi => (exec_frame h hi).failed e he, ?parseNext⟩⟩
  case busy => rw [statusBusy, exec_busy h]; rfl
  case code => rw [statusErrCode_of_error he]; cases e <;> rfl
  case parseNext => rintro rfl; exact execParseNext_error_eq h he

/-- Settles O7: a host access keeps PSTATE, and so does the block's turn but for the two commands. -/
theorem onlyParserCommandsChangePState : Obligations.OnlyParserCommandsChangePState := by
  unfold Obligations.OnlyParserCommandsChangePState
  intro s t h hne
  cases hs : s.schedule with
  | nil =>
    rw [step_nil hs] at h
    obtain ⟨hb, hd⟩ := blockTurn_pstate h hne
    exact .inr ⟨hb, .inl rfl, hd⟩
  | cons turn rest =>
    rw [step_cons hs] at h
    cases turn with
    | reset => exact .inl rfl
    | host a =>
      obtain ⟨-, -, hp, -⟩ := hostAccess_keeps h
      exact absurd hp hne
    | block =>
      obtain ⟨hb, hd⟩ := blockTurn_pstate (s := { s with schedule := rest }) h hne
      exact .inr ⟨hb, .inr rfl, hd⟩

end Sys2Proof.Machine
end

section
/-! Host accesses and steps (20_memory.md, 70_reset_and_hazards.md): what an access stores, the rule while BUSY, reads, reset, and
the turns of a WAIT. -/

namespace Sys2Proof.Machine

/-! ### What a host access does -/

/-- An 8-bit write that answers has stored its byte inside a buffer. -/
theorem hostWrite8_next {o : Word} {v : Byte} {s t : State} (h : hostWrite8 o v s = .next t) :
    ∃ b i, i < bufSize s.params b ∧ t = s.setBuf b (writeBytes (s.buf b) i [v]) := by
  unfold hostWrite8 at h
  split at h
  · cases h
  · rename_i b i hb
    obtain ⟨-, -, hi⟩ := byteAt_eq_some hb
    cases h
    exact ⟨b, i, hi, rfl⟩

/-- A 32-bit write that answers has written a register, or stored its four bytes inside a buffer. -/
theorem hostWrite32_next {o v : Word} {s t : State} (h : hostWrite32 o v s = .next t) :
    (∃ r, o = regAddr r ∧ t = writeReg r v s) ∨
    (0x10000 ≤ o.toNat ∧ ∃ b i, i + 4 ≤ bufSize s.params b ∧ t = s.setBuf b (writeBytes (s.buf b) i (lanesLE v))) := by
  unfold hostWrite32 at h
  rcases target32_cases s.params o.toNat with ht | ⟨r, ho, ht⟩ | ⟨b, i, -, hb, hi, ht⟩ <;> simp only [ht] at h <;> cases h
  · exact .inl ⟨r, eq_regAddr ho, rfl⟩
  · refine .inr ⟨?_, b, i, hi, rfl⟩
    by_contra hlt
    rw [byteAt_below_windows _ (by omega)] at hb
    cases hb

/-- Everything a host access that answers can do: a read returns data and may draw, a write stores bytes inside one buffer or
writes one register. -/
theorem hostAccess_effect {a : HostAccess} {s t : State} (h : hostAccess a s = .next t) :
    (isCommandWrite a = false ∧ ∃ d k, t = { s with hostRead := some d, draws := k }) ∨
    (isCommandWrite a = false ∧ ∃ b i bs, i + bs.length ≤ bufSize s.params b ∧
      t = s.setBuf b (writeBytes (s.buf b) i bs)) ∨
    (∃ r v, a = .write32 (regAddr r) v ∧ t = writeReg r v s) := by
  rcases hostAccess_next_cases h with ⟨⟨o, rfl | rfl⟩, d, k, ht⟩ | ⟨⟨o, ⟨v, rfl⟩ | ⟨v, rfl⟩⟩, -⟩ | hreg
  · exact .inl ⟨rfl, d, k, ht⟩
  · exact .inl ⟨rfl, d, k, ht⟩
  · rcases hostAccess_cases (.write8 o v) s with ⟨-, -, e⟩ | ⟨-, e⟩ <;> rw [e] at h
    · cases h
    · obtain ⟨b, i, hi, ht⟩ := hostWrite8_next h
      exact .inr (.inl ⟨rfl, b, i, [v], hi, ht⟩)
  · rcases hostAccess_cases (.write32 o v) s with ⟨-, -, e⟩ | ⟨-, e⟩ <;> rw [e] at h
    · cases h
    · rcases hostWrite32_next h with ⟨r, rfl, ht⟩ | ⟨ho, b, i, hi, ht⟩
      · exact .inr (.inr ⟨r, v, rfl, ht⟩)
      · refine .inr (.inl ⟨?_, b, i, lanesLE v, hi, ht⟩)
        have hne : o ≠ 4 := by rintro rfl; exact absurd ho (by decide)
        simpa [isCommandWrite] using hne
  · exact .inr (.inr hreg)

theorem isCommandWrite_iff {a : HostAccess} : isCommandWrite a = true ↔ ∃ w, a = .write32 (regAddr .cmd) w := by
  constructor
  · intro h
    cases a with
    | write32 o v => exact ⟨v, by rw [eq_of_beq h]; rfl⟩
    | read8 | read16 | read32 | write8 | write16 => cases h
  · rintro ⟨w, rfl⟩; rfl

theorem writeReg_busy (r : RegName) (v : Word) (s : State) :
    (writeReg r v s).busy = (s.busy || isCommandWrite (.write32 (regAddr r) v)) := by
  cases r with
  | cmd => exact (Bool.or_true _).symm
  | status | arg0 | arg1 | result | crcState | inLen | parsePos | chType | chLen | chData | chCrc | chCalc =>
    exact (Bool.or_false _).symm

/-- BUSY after an access is BUSY before it, or the access has issued a command (10_state.md R34). -/
theorem hostAccess_busy {a : HostAccess} {s t : State} (h : hostAccess a s = .next t) :
    t.busy = (s.busy || isCommandWrite a) := by
  rcases hostAccess_effect h with ⟨hc, d, k, rfl⟩ | ⟨hc, b, i, bs, -, rfl⟩ | ⟨r, v, rfl, rfl⟩
  · rw [hc, Bool.or_false]
  · rw [hc, Bool.or_false, setBuf_busy]
  · exact writeReg_busy r v s

theorem isStatusRead_iff {a : HostAccess} : isStatusRead a = true ↔ a = .read32 0 := by
  constructor
  · intro h
    cases a with
    | read32 o => rw [eq_of_beq h]
    | read8 | read16 | write8 | write16 | write32 => cases h
  · rintro rfl; rfl

/-- A read of STATUS answers in every state (70_reset_and_hazards.md R225). -/
theorem hostAccess_read_status (s : State) :
    hostAccess (.read32 (regAddr .status)) s = .next { s with hostRead := some (.word (statusWord s)) } := by
  rcases hostAccess_cases (.read32 (regAddr .status)) s with ⟨-, hno, -⟩ | ⟨-, e⟩
  · cases hno
  · exact e.trans (accessIdle_read_reg .status s)

theorem hostAccess_of_busy {a : HostAccess} {s : State} (hb : s.busy = true) (ha : a ≠ .read32 0) :
    hostAccess a s = .fault .accessWhileBusy := by
  rcases hostAccess_cases a s with ⟨-, -, e⟩ | ⟨hstatus, -⟩
  · exact e
  · exact absurd (isStatusRead_iff.1 (hstatus hb)) ha

/-! ### Steps -/

theorem step_host {s : State} {a : HostAccess} {rest : List Turn} (h : s.schedule = .host a :: rest) :
    step s = hostAccess a { s with schedule := rest } := step_cons h

theorem step_block {s : State} {rest : List Turn} (h : s.schedule = .block :: rest) :
    step s = blockTurn { s with schedule := rest } := step_cons h

theorem step_reset {s : State} {rest : List Turn} (h : s.schedule = .reset :: rest) :
    step s = .next (takeReset { s with schedule := rest }) := step_cons h

/-- At the block's turn, scheduled or not, the step runs the pending word. -/
theorem step_of_block_turn {s : State} (hb : s.busy = true) (h : s.schedule.head? = none ∨ s.schedule.head? = some .block) :
    step s = runWord s.cmd { s with schedule := s.schedule.tail } := by
  cases hs : s.schedule with
  | nil =>
    rw [step_nil hs, blockTurn_busy hb, List.tail_nil, ← hs]
  | cons turn rest =>
    rw [hs] at h
    obtain rfl : turn = .block := by simpa using h
    rw [step_block hs]
    exact blockTurn_busy (s := { s with schedule := rest }) hb

/-! ### WAIT (30_encoding.md R88) -/

/-- Any number of STATUS reads changes the schedule and the host's data only. -/
theorem run_status_reads (polls k : Nat) (rest : List Turn) (s : State)
    (h : s.schedule = List.replicate polls (.host (.read32 (regAddr .status))) ++ rest) :
    ∃ data, Host.Core.run Sys2Proof.core (polls + k) s = Host.Core.run Sys2Proof.core k (s.withHostSide rest data) := by
  induction polls generalizing s with
  | zero =>
    have hs : s.withHostSide rest s.hostRead = s := by
      have hrest : rest = s.schedule := h.symm
      rw [hrest]
    exact ⟨s.hostRead, by rw [hs, Nat.zero_add]⟩
  | succ n ih =>
    have hstep : step s = .next (s.withHostSide (List.replicate n (.host (.read32 (regAddr .status))) ++ rest)
        (some (.word (statusWord s)))) := (step_host h).trans (hostAccess_read_status _)
    obtain ⟨data, hrun⟩ := ih (s.withHostSide _ (some (.word (statusWord s)))) rfl
    exact ⟨data, by rw [Nat.add_right_comm, core_run_succ hstep, hrun]⟩

/-- A pending word takes effect whatever the schedule and the host's data are. -/
theorem runWord_hostSide (sched : List Turn) (data : Option ReadData) (w : Word) (s : State) :
    runWord w (s.withHostSide sched data) = mapNext (State.withHostSide sched data) (runWord w s) := by
  cases h : decode w with
  | ok i => rw [runWord_of_decode_ok h, runWord_of_decode_ok h, exec_hostSide]
  | error e => rw [runWord_of_decode_error h, runWord_of_decode_error h]; rfl

/-- After the polls of a WAIT, the block's turn gives the pending word's effect. -/
theorem run_wait {s : State} {polls : Nat} {rest : List Turn} (hb : s.busy = true) (hs : s.schedule = waitTurns polls ++ rest) :
    ∃ s' data, Host.Core.run Sys2Proof.core (polls + 2) s = Host.Core.run Sys2Proof.core 2 s' ∧
      step s' = mapNext (State.withHostSide (.host (.read32 (regAddr .status)) :: rest) data) (runWord s.cmd s) := by
  obtain ⟨data, hrun⟩ := run_status_reads polls 2 (.block :: .host (.read32 (regAddr .status)) :: rest) s
    (by rw [hs, waitTurns, List.append_assoc]; rfl)
  refine ⟨_, data, hrun, ?_⟩
  rw [← runWord_hostSide]
  exact step_of_block_turn (s := s.withHostSide (.block :: .host (.read32 (regAddr .status)) :: rest) data) hb (.inr rfl)

theorem core_run_fault {k : Nat} {s : State} {f : Fault} (h : step s = .fault f) :
    Host.Core.run Sys2Proof.core (k + 1) s = .fault f := by
  have h' : Host.Core.step Sys2Proof.core s = .fault f := h
  simp only [Host.Core.run, h']

theorem statusWord_busy_clear {s : State} (h : s.busy = false) : (statusWord s).extractLsb' 0 1 = 0 := by
  rw [statusWord_busy, statusBusy, h]; rfl

/-- The three commands that read a buffer are the ones with OPC 0x03, 0x11 and 0x23. -/
theorem runWord_completes_of_no_buffer_read {w : Word} (h : fieldOPC w ≠ 0x03 ∧ fieldOPC w ≠ 0x11 ∧ fieldOPC w ≠ 0x23)
    (s : State) : ∃ u, runWord w s = .next u := by
  rcases runWord_cases w s with ⟨i, hi, e⟩ | e
  · obtain ⟨⟨hopc, -⟩, -⟩ := decode_eq_ok_iff.1 hi
    rw [e]
    obtain ⟨h1, h2, h3⟩ := h
    rcases exec_completes_or_stops i s with hnext | ⟨-, -, rfl | rfl | ⟨_, _, rfl⟩⟩
    · exact hnext
    · exact absurd hopc h1
    · exact absurd hopc h2
    · exact absurd hopc h3
  · exact ⟨_, e⟩

theorem runWord_completes_of_readable {s : State}
    (h : ∀ b : BufId, readable s.params.unwritten (s.buf b) 0 (bufSize s.params b)) (w : Word) : ∃ u, runWord w s = .next u := by
  rcases runWord_cases w s with ⟨i, -, e⟩ | e <;> rw [e]
  · exact exec_completes_of_readable h i
  · exact ⟨_, rfl⟩

/-! ### The fields of STATUS -/

theorem statusBusy_eq_one_iff (s : State) : statusBusy s = 1 ↔ s.busy = true := by
  rw [statusBusy]; cases s.busy <;> decide

theorem statusErr_eq_one_iff (s : State) : statusErr s = 1 ↔ s.lastError ≠ none := by
  rw [statusErr]; cases s.lastError <;> simp

/-! ### The statements -/

/-- Settles O51: an access while BUSY other than the read of STATUS stops, and BUSY follows commands and accesses. -/
theorem busyRule : Obligations.BusyRule := by
  unfold Obligations.BusyRule
  refine ⟨fun a s hb ha => hostAccess_of_busy hb ha, hostAccess_read_status, fun s t => blockTurn_ends_idle, fun s t h hb ht => ?_⟩
  cases hs : s.schedule with
  | nil =>
    rw [step_nil hs] at h
    rw [blockTurn_ends_idle h] at ht
    cases ht
  | cons turn rest =>
    cases turn with
    | reset => rw [step_reset hs] at h; cases h; cases ht
    | block =>
      rw [step_block hs] at h
      rw [blockTurn_ends_idle h] at ht
      cases ht
    | host a =>
      rw [step_host hs] at h
      have hissue : isCommandWrite a = true := by
        rw [hostAccess_busy h, Bool.or_eq_true] at ht
        exact ht.resolve_left (by simp [hb])
      obtain ⟨w, rfl⟩ := isCommandWrite_iff.1 hissue
      exact ⟨w, rfl⟩

/-- Settles O52: of everything an access can do, a read only returns data and draws. -/
theorem hostReadsHaveNoSideEffect : Obligations.HostReadsHaveNoSideEffect := by
  unfold Obligations.HostReadsHaveNoSideEffect
  rintro a s t ⟨o, ha⟩ h
  rcases hostAccess_next_cases h with ⟨-, d, k, rfl⟩ | ⟨⟨o', ⟨v, rfl⟩ | ⟨v, rfl⟩⟩, -⟩ | ⟨r, v, rfl, -⟩
  · rfl
  all_goals simp at ha

/-- Settles O57: the polls change the host's side only, and the pending word's effect does not depend on it. -/
theorem waitEnds : Obligations.WaitEnds := by
  unfold Obligations.WaitEnds
  refine ⟨fun s u polls rest hb hs hu => ?completes, fun s f polls rest hb hs hf => ?stops, fun s w h => ?answers⟩
  case completes =>
    obtain ⟨s', data, hrun, hstep⟩ := run_wait hb hs
    rw [hu] at hstep
    have hlast := (step_host (s := u.withHostSide (.host (.read32 (regAddr .status)) :: rest) data) rfl).trans
      (hostAccess_read_status _)
    have hidle := runWord_busy hu
    refine ⟨?_, hidle, statusWord_busy_clear hidle⟩
    rw [hrun, core_run_succ hstep]
    exact core_run_succ (k := 0) hlast
  case stops =>
    obtain ⟨s', data, hrun, hstep⟩ := run_wait hb hs
    rw [hf] at hstep
    rw [hrun, core_run_fault hstep]
  case answers =>
    rcases h with hread | hopc
    · exact runWord_completes_of_readable hread w
    · exact runWord_completes_of_no_buffer_read hopc s

/-- Settles O6: each field of the word is the field of the state, by the code of its value. -/
theorem statusWordFields : Obligations.StatusWordFields := by
  unfold Obligations.StatusWordFields
  intro s
  rw [statusWord_busy, statusWord_err, statusWord_errCode, statusWord_pstate, statusWord_perr]
  refine ⟨statusBusy_eq_one_iff s, statusErr_eq_one_iff s, statusWord_reserved2 s, statusWord_reserved11 s,
    statusWord_reserved16 s, ?errCode, ?pstate, ?perr⟩
  case errCode =>
    unfold statusErrCode
    rcases s.lastError with _ | e
    · rfl
    · cases e <;> rfl
  case pstate =>
    unfold statusPState
    cases s.pstate <;> rfl
  case perr =>
    unfold statusPErr
    rcases s.pstate with _ | _ | _ | _ | e
    · rfl
    · rfl
    · rfl
    · rfl
    · cases e <;> rfl

/-- Settles O53: the reset turn gives the reset state but for the four fields of the model's own. -/
theorem resetRule : Obligations.ResetRule := by
  unfold Obligations.ResetRule
  intro s rest hs
  exact ⟨_, step_reset hs, statusWord_resetWith s.params, rfl, rfl, rfl, rfl, rfl, rfl, rfl, rfl, rfl, rfl, rfl, rfl, rfl, rfl,
    bufRead_resetWith s.params, rfl, rfl, rfl, rfl⟩

/-- Settles O55: the block's turn runs the pending word, and the word placed is pending. -/
theorem stepRunsDecodedCommand : Obligations.StepRunsDecodedCommand := by
  unfold Obligations.StepRunsDecodedCommand
  refine ⟨fun s i hb hs hi => ?pending, fun s w i hw hi => ?fetched⟩
  case pending => rw [step_of_block_turn hb hs, runWord_of_decode_ok hi]
  case fetched =>
    rw [step_of_block_turn rfl (.inr rfl), State.withFetchWord, Nat.mod_eq_of_lt hw]
    exact runWord_of_decode_ok hi _

/-- Settles O56: the head of the schedule says which turn the step is, and the idle block waits. -/
theorem stepTakesHostTurnsAndWaits : Obligations.StepTakesHostTurnsAndWaits := by
  unfold Obligations.StepTakesHostTurnsAndWaits
  exact ⟨fun s a rest hs => step_host hs, fun s hb hs => (step_nil hs).trans (blockTurn_idle hb),
    fun s rest hb hs => (step_block hs).trans (blockTurn_idle (s := { s with schedule := rest }) hb)⟩

end Sys2Proof.Machine
end

section
/-! The invariant of the block, kept by every step, and a host that obeys the rules meets no fault (60_exceptions.md R196). -/

namespace Sys2Proof.Machine

/-! ### The canonical form of the buffers -/

theorem memory_wf_iff {s : State} : Memory.wf s ↔ ∀ b, bufWf (bufSize s.params b) (s.buf b) :=
  ⟨fun ⟨hi, hc, hp⟩ b => by cases b with | ibuf => exact hi | cur => exact hc | prior => exact hp,
    fun h => ⟨h .ibuf, h .cur, h .prior⟩⟩

theorem memory_wf_setBuf {s : State} {b : BufId} {m : Buffer} (h : Memory.wf s) (hm : bufWf (bufSize s.params b) m) :
    Memory.wf (s.setBuf b m) := by
  rw [memory_wf_iff] at h ⊢
  intro b'
  by_cases hb : b' = b
  · subst hb; rw [buf_setBuf_self, setBuf_params]; exact hm
  · rw [buf_setBuf_other s m hb, setBuf_params]; exact h b'

theorem hostAccess_keeps_memory_wf {a : HostAccess} {s t : State} (h : hostAccess a s = .next t) (hw : Memory.wf s) :
    Memory.wf t := by
  rcases hostAccess_effect h with ⟨-, d, k, rfl⟩ | ⟨-, b, i, bs, hle, rfl⟩ | ⟨r, v, -, rfl⟩
  · exact hw
  · exact memory_wf_setBuf hw (bufWf_writeBytes bs (memory_wf_iff.1 hw b) hle)
  · obtain ⟨hi, hc, hp, -, hparams, -⟩ := writeReg_keeps r v s
    unfold Memory.wf
    rwa [hi, hc, hp, hparams]

theorem execRowUnfilt_keeps_memory_wf {t bpp : Byte} {s u : State} (h : execRowUnfilt t bpp s = .next u) (hw : Memory.wf s) :
    Memory.wf u := by
  obtain ⟨hi, hc, hp⟩ := hw
  rcases execRowUnfilt_next h with ⟨_, rfl⟩ | ⟨hle, f, cur, row, k, -, hrow, hl, -, rfl⟩
  · exact ⟨hi, hc, hp⟩
  · have hsize : 0 + s.arg0.toNat ≤ s.params.rowMax := (Nat.zero_add _).trans_le hle
    exact ⟨hi, reconRow_wf hrow hc hsize, bufWf_writeBytes row hp (hl ▸ hsize)⟩

theorem exec_keeps_memory_wf {i : Instr} {s t : State} (h : exec i s = .next t) (hw : Memory.wf s) : Memory.wf t := by
  by_cases hi : i.opcode ∈ [Opcode.rowClear, .rowUnfilt]
  · cases i with
    | rowClear =>
      cases h
      obtain ⟨hi, hc, hp⟩ := hw
      exact ⟨hi, hc, bufWf_fillZero hp le_rfl⟩
    | rowUnfilt t bpp => exact execRowUnfilt_keeps_memory_wf h hw
    | nop | crcInit | crcByte | crcBuf | crcFinal | parseReset | parseNext | paeth | unfilt => simp [Instr.opcode] at hi
  · rw [memory_wf_iff] at hw ⊢
    intro b
    rw [exec_keeps_buf h hi, (exec_keepsHost h).params]
    exact hw b

/-! ### The parser's position and the CH_ registers -/

/-- The parser's part of the invariant. -/
def ParserFits (s : State) : Prop := ParserOk s ∧ ChunkOk s

theorem ParserFits.of_keeps {s t : State} (h : ParserFits s) (hk : KeepsParser s t) (hp : t.params = s.params) : ParserFits t := by
  unfold ParserFits ParserOk ChunkOk at h ⊢
  rw [hk.pstate, hk.parsePos, hk.chType, hk.chLen, hk.chData, hk.chCrc, hp]
  exact h

/-- Past the signature, PARSE_POS is at least 8 in every PSTATE but IDLE and ERROR after MagicMismatch. -/
theorem parserOk_of_past {s : State} (hidle : s.pstate ≠ .idle) (hmagic : s.pstate ≠ .error .magicMismatch)
    (h8 : 8 ≤ s.parsePos.toNat) (hsize : s.parsePos.toNat ≤ s.params.ibufSize) : ParserOk s :=
  ⟨hsize, by rw [if_neg (not_or.2 ⟨hidle, hmagic⟩)]; exact h8⟩

/-- The returned chunk stays inside the consumed part of IBUF when PARSE_POS moves on. -/
theorem chunkOk_advance {s : State} (h : ChunkOk s) {ps : PState} {pos cc : Word} {k : Nat}
    (hpos : s.parsePos.toNat ≤ pos.toNat) : ChunkOk (parserMoved ps pos cc k s) :=
  h.imp_right fun ⟨hkind, hdata, hend⟩ => ⟨hkind, hdata, le_trans hend hpos⟩

/-- A scan that starts past the signature keeps the parser's part of the invariant (41_parser.md R134). -/
theorem ScanEffect.parserFits {s t : State} (h : ScanEffect s (.next t)) (hscan : s.pstate = .scan)
    (hlen : s.inLen.toNat ≤ s.params.ibufSize) (h8 : 8 ≤ s.parsePos.toNat) (hsize : s.parsePos.toNat ≤ s.params.ibufSize)
    (hchunk : ChunkOk s) : ParserFits t := by
  rcases h with ⟨h, -⟩ | ⟨k, pos, cc, e, h, hge, he, hle⟩ | ⟨k, pos, cc, h, hge, hle⟩ |
    ⟨k, pos, stored, kind, tag, len, data, h, hkind, hdata, hend, hle⟩ <;> cases h
  · refine ⟨parserOk_of_past nofun ?_ (le_trans h8 hge) (le_trans hle hlen),
      chunkOk_advance (ps := .error e) (cc := cc) (k := k) hchunk hge⟩
    rcases he with rfl | rfl <;> nofun
  · refine ⟨parserOk_of_past nofun nofun (le_trans h8 hge) ?_, chunkOk_advance (ps := .doneEob) (cc := cc) (k := k) hchunk hge⟩
    rcases hle with rfl | hle
    · exact hsize
    · exact le_trans hle hlen
  · have hps : (if kind = .iend then PState.doneIend else s.pstate) ≠ .idle ∧
        (if kind = .iend then PState.doneIend else s.pstate) ≠ .error .magicMismatch := by
      rw [hscan]; split_ifs <;> decide
    refine ⟨parserOk_of_past hps.1 hps.2 ?_ (le_trans hle hlen), .inr ⟨?_, ?_, le_of_eq hend⟩⟩
    · show 8 ≤ pos.toNat
      omega
    · show kindOf tag ≠ none
      rw [hkind]; nofun
    · show 16 ≤ data.toNat
      omega

/-- PARSE_NEXT keeps the parser's part of the invariant. -/
theorem execParseNext_parserFits {s t : State} (h : execParseNext s = .next t) (hfit : ParserFits s) : ParserFits t := by
  obtain ⟨⟨hsize, hpos⟩, hchunk⟩ := hfit
  rcases execParseNext_effect h with ⟨h, -⟩ | ⟨-, h⟩ | ⟨-, e, hp, h⟩ | ⟨-, -, h⟩ | ⟨-, hp, k, h⟩ |
    ⟨hlen, hp, h8, k, hscan⟩ | ⟨hlen, hp, hscan⟩
  · cases h
  · cases h; exact ⟨⟨hsize, hpos⟩, hchunk⟩
  · cases h; exact ⟨⟨hsize, hpos⟩, hchunk⟩
  · cases h; exact ⟨⟨hsize, hpos⟩, hchunk⟩
  · cases h
    rw [if_pos (.inl hp)] at hpos
    exact ⟨⟨hsize, hpos⟩, hchunk⟩
  · rw [if_pos (.inl hp)] at hpos
    have hmoved : ChunkOk { s with draws := k, parsePos := 8, pstate := .scan } :=
      chunkOk_advance (ps := .scan) (pos := 8) (cc := s.chCalc) (k := k) hchunk (by simp [hpos])
    exact hscan.parserFits rfl hlen le_rfl (le_trans h8 hlen) hmoved
  · have hpast : 8 ≤ s.parsePos.toNat := by
      rw [if_neg (by rw [hp]; decide)] at hpos
      exact hpos
    exact hscan.parserFits hp hlen hpast hsize hchunk

theorem exec_parserFits {i : Instr} {s t : State} (h : exec i s = .next t) (hfit : ParserFits s) : ParserFits t := by
  by_cases hi : i.opcode ∈ [Opcode.parseReset, .parseNext]
  · cases i with
    | parseReset => cases h; exact ⟨⟨Nat.zero_le _, rfl⟩, .inl ⟨rfl, rfl, rfl, rfl⟩⟩
    | parseNext => exact execParseNext_parserFits h hfit
    | nop | crcInit | crcByte | crcBuf | crcFinal | paeth | unfilt | rowClear | rowUnfilt => simp [Instr.opcode] at hi
  · exact hfit.of_keeps (exec_keepsParser h hi) (exec_keepsHost h).params

theorem writeReg_keepsParser (r : RegName) (v : Word) (s : State) : KeepsParser s (writeReg r v s) := by
  cases r <;> exact ⟨rfl, rfl, rfl, rfl, rfl, rfl, rfl⟩

theorem hostAccess_keepsParser {a : HostAccess} {s t : State} (h : hostAccess a s = .next t) : KeepsParser s t := by
  rcases hostAccess_next_cases h with ⟨-, d, k, rfl⟩ | ⟨-, b, m, rfl⟩ | ⟨r, v, -, rfl⟩
  · exact ⟨rfl, rfl, rfl, rfl, rfl, rfl, rfl⟩
  · cases b <;> exact ⟨rfl, rfl, rfl, rfl, rfl, rfl, rfl⟩
  · exact writeReg_keepsParser r v s

/-! ### The invariant -/

theorem exec_keeps_blockOk {i : Instr} {s t : State} (h : exec i s = .next t) (hok : BlockOk s) : BlockOk t := by
  obtain ⟨hlegal, hmem, hparser, hchunk⟩ := hok
  exact ⟨(exec_keepsHost h).params ▸ hlegal, exec_keeps_memory_wf h hmem, exec_parserFits h ⟨hparser, hchunk⟩⟩

theorem runWord_keeps_blockOk {w : Word} {s t : State} (h : runWord w s = .next t) (hok : BlockOk s) : BlockOk t := by
  rcases runWord_cases w s with ⟨i, -, e⟩ | e <;> rw [e] at h
  · exact exec_keeps_blockOk h hok
  · cases h; exact hok

theorem blockTurn_keeps_blockOk {s t : State} (h : blockTurn s = .next t) (hok : BlockOk s) : BlockOk t := by
  cases hb : s.busy with
  | true => rw [blockTurn_busy hb] at h; exact runWord_keeps_blockOk h hok
  | false => rw [blockTurn_idle hb] at h; cases h; exact hok

theorem hostAccess_params {a : HostAccess} {s t : State} (h : hostAccess a s = .next t) : t.params = s.params := by
  obtain ⟨-, -, -, -, -, -, hp⟩ := hostAccess_keeps h
  exact hp

theorem hostAccess_schedule {a : HostAccess} {s t : State} (h : hostAccess a s = .next t) : t.schedule = s.schedule := by
  obtain ⟨-, -, -, -, -, hs, -⟩ := hostAccess_keeps h
  exact hs

theorem hostAccess_keeps_blockOk {a : HostAccess} {s t : State} (h : hostAccess a s = .next t) (hok : BlockOk s) : BlockOk t := by
  obtain ⟨hlegal, hmem, hparser, hchunk⟩ := hok
  have hp := hostAccess_params h
  exact ⟨hp ▸ hlegal, hostAccess_keeps_memory_wf h hmem, ParserFits.of_keeps ⟨hparser, hchunk⟩ (hostAccess_keepsParser h) hp⟩

theorem blockOk_resetWith {p : Params} (h : p.legal) : BlockOk (State.resetWith p) :=
  ⟨h, memory_wf_resetWith p, ⟨Nat.zero_le _, rfl⟩, .inl ⟨rfl, rfl, rfl, rfl⟩⟩

theorem takeReset_blockOk {s : State} (h : s.params.legal) : BlockOk (takeReset s) := blockOk_resetWith h

theorem takeTurn_keeps_blockOk {turn : Turn} {s t : State} (h : takeTurn turn s = .next t) (hok : BlockOk s) :
    BlockOk t ∧ t.params = s.params := by
  cases turn with
  | host a => exact ⟨hostAccess_keeps_blockOk h hok, hostAccess_params h⟩
  | block => exact ⟨blockTurn_keeps_blockOk h hok, (blockTurn_keepsHost h).params⟩
  | reset => cases h; exact ⟨takeReset_blockOk hok.1, rfl⟩

/-! ### A host that obeys the rules -/

/-- What an access with BUSY = 0 can be: it answers, it is a bus error, or it reads an unwritten byte under `fault`. -/
theorem accessIdle_answers_or_stops (a : HostAccess) (s : State) :
    (∃ t, accessIdle a s = .next t) ∨ accessIdle a s = .fault .busError ∨ s.params.unwritten = .fault := by
  have answer : ∀ r, (r = none → s.params.unwritten = .fault) →
      (∃ t, answerRead r s = .next t) ∨ answerRead r s = .fault .busError ∨ s.params.unwritten = .fault := by
    intro r hr
    rcases answerRead_cases r s with ⟨hnone, -⟩ | ⟨_, _, -, e⟩
    · exact .inr (.inr (hr hnone))
    · exact .inl ⟨_, e⟩
  cases a with
  | read16 o => exact .inr (.inl rfl)
  | write16 o v => exact .inr (.inl rfl)
  | read8 o =>
    cases hb : byteAt s.params o.toNat with
    | none => exact .inr (.inl ((hostRead8_busError_iff o s).2 hb))
    | some bi =>
      simp only [accessIdle, hostRead8, hb]
      exact answer _ fun hnone => (readByte_eq_none.1 (Option.map_eq_none_iff.1 hnone)).1
  | read32 o =>
    rcases ht : target32 s.params o.toNat with _ | ⟨r⟩ | ⟨b, i⟩
    · exact .inr (.inl ((hostRead32_busError_iff o s).2 ht))
    · exact .inl ⟨_, by simp only [accessIdle, hostRead32, ht]; rfl⟩
    · simp only [accessIdle, hostRead32, ht]
      exact answer _ fun hnone => (readWordLE_eq_none.1 (Option.map_eq_none_iff.1 hnone)).1
  | write8 o v =>
    cases hb : byteAt s.params o.toNat with
    | none => exact .inr (.inl ((hostWrite8_busError_iff o v s).2 hb))
    | some bi => exact .inl ⟨_, by simp only [accessIdle, hostWrite8, hb]; rfl⟩
  | write32 o v =>
    rcases ht : target32 s.params o.toNat with _ | ⟨r⟩ | ⟨b, i⟩
    · exact .inr (.inl ((hostWrite32_busError_iff o v s).2 ht))
    · exact .inl ⟨_, by simp only [accessIdle, hostWrite32, ht]; rfl⟩
    · exact .inl ⟨_, by simp only [accessIdle, hostWrite32, ht]; rfl⟩

/-- An access that is no bus error and obeys the rule while BUSY answers, where unwritten bytes read as any value. -/
theorem hostAccess_answers {a : HostAccess} {s : State} (hlegal : s.params.legal) (hany : s.params.unwritten = .anyValue)
    (hbus : ¬ BusError s.params a) (hbusy : s.busy = true → isStatusRead a = true) : ∃ t, hostAccess a s = .next t := by
  rcases hostAccess_cases a s with ⟨hb, hno, -⟩ | ⟨-, e⟩
  · rw [hbusy hb] at hno; cases hno
  rcases accessIdle_answers_or_stops a s with hnext | hstop | hfault
  · exact e ▸ hnext
  · exact absurd ((accessIdle_busError_iff a hlegal).1 hstop) hbus
  · rw [hany] at hfault; cases hfault

theorem blockTurn_completes_of_anyValue {s : State} (h : s.params.unwritten = .anyValue) : ∃ t, blockTurn s = .next t := by
  cases hb : s.busy with
  | true => rw [blockTurn_busy hb]; exact runWord_completes_of_readable (fun _ => .inl h) s.cmd
  | false => exact ⟨s, blockTurn_idle hb⟩

/-- The block's turn completes in a safe state when the host obeys the rules from there on. -/
theorem blockTurn_safe {s : State} (hlegal : s.params.legal) (hany : s.params.unwritten = .anyValue)
    (hobey : hostObeys s.params false s.schedule) : ∃ t, blockTurn s = .next t ∧ Safe t := by
  obtain ⟨t, ht⟩ := blockTurn_completes_of_anyValue hany
  have hkeep := blockTurn_keepsHost ht
  refine ⟨t, ht, hkeep.params ▸ hlegal, hkeep.params ▸ hany, ?_⟩
  rw [hkeep.params, hkeep.schedule, blockTurn_ends_idle ht]
  exact hobey

/-- An obedient access answers, and leaves a safe state. -/
theorem hostAccess_safe {a : HostAccess} {s : State} (hlegal : s.params.legal) (hany : s.params.unwritten = .anyValue)
    (hobey : hostObeys s.params s.busy (.host a :: s.schedule)) : ∃ t, hostAccess a s = .next t ∧ Safe t := by
  obtain ⟨hbus, hbusy, hrest⟩ := hobey
  obtain ⟨t, ht⟩ := hostAccess_answers hlegal hany hbus hbusy
  have hp := hostAccess_params ht
  refine ⟨t, ht, hp ▸ hlegal, hp ▸ hany, ?_⟩
  rw [hp, hostAccess_schedule ht, hostAccess_busy ht]
  exact hrest

/-! ### The statements -/

/-- Settles O59: the buffers, the parser's position and the CH_ registers are followed through every turn. -/
theorem stepKeepsInvariant : Obligations.StepKeepsInvariant := by
  unfold Obligations.StepKeepsInvariant
  intro s t hok h
  cases hs : s.schedule with
  | nil => exact takeTurn_keeps_blockOk (turn := .block) ((step_nil hs).symm.trans h) hok
  | cons turn rest => exact takeTurn_keeps_blockOk (s := { s with schedule := rest }) ((step_cons hs).symm.trans h) hok

/-- Settles O60: at each turn, what the schedule says of the host excludes every fault, and what it says of the rest makes the
next state safe. -/
theorem obedientHostMeetsNoFault : Obligations.ObedientHostMeetsNoFault := by
  unfold Obligations.ObedientHostMeetsNoFault
  intro s ⟨hlegal, hany, hobey⟩
  cases hs : s.schedule with
  | nil => rw [step_nil hs]; exact blockTurn_safe hlegal hany (hs ▸ trivial)
  | cons turn rest =>
    rw [step_cons hs]
    rw [hs] at hobey
    cases turn with
    | host a => exact hostAccess_safe (s := { s with schedule := rest }) hlegal hany hobey
    | block => exact blockTurn_safe (s := { s with schedule := rest }) hlegal hany hobey
    | reset => exact ⟨_, rfl, hlegal, hany, hobey⟩

/-- Settles O58: nothing is written, and every register the invariant names is 0. -/
theorem resetMeetsInvariant : Obligations.ResetMeetsInvariant :=
  ⟨fun _ => blockOk_resetWith, blockOk_resetWith (by decide)⟩

end Sys2Proof.Machine
end

section
/-! The checksum (40_crc.md): the table form, the checksum of a fed sequence, and that one changed byte shows. -/

namespace Sys2Proof.Machine

/-! ### The table (R101, R108) -/

/-- The listed table is the eight rounds of each index. -/
theorem crcTable_eq : crcTable = (List.range 256).map fun n => crcRounds 8 (BitVec.ofNat 32 n) := by decide +kernel

theorem crcTableAt_eq (n : Byte) : crcTableAt n = crcRounds 8 (n.setWidth 32) := by
  have hn : n.toNat < 256 := n.isLt
  have hword : BitVec.ofNat 32 n.toNat = n.setWidth 32 := BitVec.eq_of_toNat_eq (by simp)
  rw [crcTableAt, crcTable_eq, List.getD_eq_getElem?_getD, List.getElem?_map, List.getElem?_range hn, Option.map_some,
    Option.getD_some, hword]

/-- A word is its low byte XOR the rest. -/
theorem word_eq_low_xor_high (x : Word) : x = (x.extractLsb' 0 8).setWidth 32 ^^^ (x >>> 8 <<< 8) := by
  apply BitVec.eq_of_getLsbD_eq
  intro i hi
  by_cases h8 : i < 8
  · simp [h8, hi]
  · simp [h8, hi, Nat.not_lt.1 h8]

/-- Eight rounds look up the low byte and shift the rest. -/
theorem crcRounds_eight (x : Word) : crcRounds 8 x = crcTableAt (x.extractLsb' 0 8) ^^^ (x >>> 8) := by
  have hhigh : crcRounds 8 (x >>> 8 <<< 8) = x >>> 8 <<< 8 >>> 8 :=
    crcRounds_of_low_zero 8 _ fun i hi => by simp [hi]
  have hshift : x >>> 8 <<< 8 >>> 8 = x >>> 8 := by
    apply BitVec.eq_of_getLsbD_eq
    intro i hi
    by_cases h24 : 8 + i < 32
    · simp [h24]
    · simp [h24, BitVec.getLsbD_of_ge x (8 + i) (Nat.not_lt.1 h24)]
  conv_lhs => rw [word_eq_low_xor_high x, crcRounds_xor, hhigh, hshift, ← crcTableAt_eq]

/-- A byte XORed in does not reach the bits above it. -/
theorem xor_zext32_shift (r : Word) (d : Byte) : (r ^^^ zext32 d) >>> 8 = r >>> 8 := by
  apply BitVec.eq_of_getLsbD_eq
  intro i hi
  simp [zext32]

theorem crcStepByTable_eq (r : Word) (d : Byte) : crcStepByTable r d = crcStep r d := by
  rw [crcStep, crcRounds_eight, xor_zext32_shift, crcStepByTable]

/-! ### The checksum of a fed sequence (R102) -/

theorem FeedsCrc.crcState {s t : State} {bs : List Byte} (h : FeedsCrc s bs t) : t.crcState = crcUpdate s.crcState bs := by
  induction h with
  | none s => rfl
  | byte d h rest ih => cases h; exact ih
  | range chunk hl hh hs hr h rest ih =>
    cases (execCrcBuf_of_holds hs hr hl hh).symm.trans h
    rw [ih, crcUpdate_append]
    rfl
  | host a h rest ih =>
    obtain ⟨-, hcrc, -⟩ := hostAccess_keeps h
    rw [ih, hcrc]

/-! ### One changed byte (R100, R102) -/

theorem zext32_injective : Function.Injective zext32 := fun x y h =>
  BitVec.eq_of_toNat_eq (by rw [← zext32_toNat x, h, zext32_toNat])

/-- The byte step tells registers apart, and bytes. -/
theorem crcStep_injective_register (d : Byte) : Function.Injective fun r => crcStep r d := fun _ _ h =>
  (BitVec.xor_left_inj _).1 (crcRounds_injective h)

theorem crcStep_injective_byte (r : Word) : Function.Injective (crcStep r) := fun _ _ h =>
  zext32_injective ((BitVec.xor_right_inj _).1 (crcRounds_injective h))

theorem crcUpdate_injective_register (bs : List Byte) : Function.Injective fun r => crcUpdate r bs := by
  induction bs with
  | nil => exact fun _ _ h => h
  | cons d bs ih => exact fun _ _ h => crcStep_injective_register d (ih h)

theorem crc32_ne_of_changed_byte (before after : List Byte) {x y : Byte} (hne : x ≠ y) :
    crc32 (before ++ x :: after) ≠ crc32 (before ++ y :: after) := by
  intro h
  have hfold := (BitVec.xor_left_inj crcXorOut).1 h
  rw [crcUpdate_append, crcUpdate_append, crcUpdate_cons, crcUpdate_cons] at hfold
  exact hne (crcStep_injective_byte _ (crcUpdate_injective_register after hfold))

/-! ### The statements -/

/-- Settles O10: the table is evaluated once, and eight rounds are linear over the low byte and the rest. -/
theorem crcTableFormEqualsBitwise : Obligations.CrcTableFormEqualsBitwise :=
  ⟨by rw [crcTable_eq, List.length_map, List.length_range], crcTableAt_eq, crcStepByTable_eq⟩

/-- Settles O15: each command feeds its bytes to CRC_STATE, and a host access leaves it. -/
theorem checksumOfFedSequence : Obligations.ChecksumOfFedSequence := by
  unfold Obligations.ChecksumOfFedSequence
  intro s s1 t bs hinit hfeed
  cases hinit
  have hsum : t.crcState ^^^ crcXorOut = crc32 bs := by rw [hfeed.crcState]; rfl
  exact ⟨_, rfl, hsum, hsum⟩

/-- Settles O16: the byte step is injective in the byte and, for the bytes after it, in the register. -/
theorem oneChangedByteChangesChecksum : Obligations.OneChangedByteChangesChecksum :=
  fun before after _ _ => crc32_ne_of_changed_byte before after

end Sys2Proof.Machine
end

section
/-! The chunk parser (41_parser.md): a pass over a chunk that stands at PARSE_POS, how far PARSE_NEXT moves, and what it depends
on. -/

namespace Sys2Proof.Machine

/-! ### One pass as the scan's step -/

theorem parseScan_of_done {s : State} {o} (h : parsePass s = .done o) : parseScan s = o := by rw [parseScan_eq, h]

theorem parseScan_of_again {s s' : State} (h : parsePass s = .again s') : parseScan s = parseScan s' := by rw [parseScan_eq, h]

/-! ### A chunk at PARSE_POS (R123, R126) -/

theorem wordBE_bytes (w : Word) : wordBE (byteOf w 3) (byteOf w 2) (byteOf w 1) (byteOf w 0) = w := wordLE_lanes w

/-- A header whose chunk passes the end of IN_LEN ends the pass (R127). -/
theorem parsePass_of_truncated {s : State} {l0 l1 l2 l3 t0 t1 t2 t3 : Byte} (h8 : s.parsePos.toNat + 8 ≤ s.inLen.toNat)
    (hh : holdsBytes s.ibuf s.parsePos.toNat [l0, l1, l2, l3, t0, t1, t2, t3] = true)
    (hlong : s.inLen.toNat < s.parsePos.toNat + 12 + (wordBE l0 l1 l2 l3).toNat) :
    parsePass s = .done (.next (failParse .truncatedChunk s)) := by
  unfold parsePass
  simp only [if_neg (Nat.not_lt.2 h8), readHeader_of_holds hh, if_pos hlong]

section AtChunk

variable {s : State} {len tag stored : Word} {payload : List Byte} (h : ChunkAtPos s len tag payload stored)
include h

theorem ChunkAtPos.header (u : UnwrittenRead) (k : Nat) : readHeader u s.ibuf s.parsePos.toNat k = some (len, tag, k) := by
  obtain ⟨-, -, -, hh⟩ := h
  rw [List.append_assoc, holdsBytes_append, Bool.and_eq_true] at hh
  rw [readHeader_of_holds hh.1, wordBE_bytes, wordBE_bytes]

theorem ChunkAtPos.checksums (u : UnwrittenRead) (k : Nat) :
    readChecksums u s.ibuf s.parsePos.toNat len.toNat k = some (chunkCrc tag payload, stored, k) := by
  obtain ⟨-, -, hl, hh⟩ := h
  have hsplit : holdsBytes s.ibuf s.parsePos.toNat ([byteOf len 3, byteOf len 2, byteOf len 1, byteOf len 0] ++
      (([byteOf tag 3, byteOf tag 2, byteOf tag 1, byteOf tag 0] ++ payload) ++
        [byteOf stored 3, byteOf stored 2, byteOf stored 1, byteOf stored 0])) = true := hh
  rw [holdsBytes_append, Bool.and_eq_true] at hsplit
  have hcovered : ([byteOf tag 3, byteOf tag 2, byteOf tag 1, byteOf tag 0] ++ payload).length = 4 + len.toNat :=
    hl ▸ List.length_append
  rw [readChecksums_of_holds hsplit.2 hcovered, wordBE_bytes]
  rfl

/-- A pass over a whole chunk is the judgement of it. -/
theorem ChunkAtPos.pass : parsePass s = judgeChunk len tag (chunkCrc tag payload) stored s := by
  obtain ⟨-, hfits, -⟩ := id h
  unfold parsePass
  simp only [if_neg (show ¬ s.inLen.toNat < s.parsePos.toNat + 8 by omega), h.header, if_neg (Nat.not_lt.2 hfits), h.checksums]

/-- At a whole chunk IN_LEN is inside IBUF, so PARSE_NEXT in SCAN scans. -/
theorem ChunkAtPos.exec_eq_scan (hp : s.pstate = .scan) : execParseNext s = parseScan s := by
  obtain ⟨hlen, -⟩ := h
  exact execParseNext_of_scan hlen hp

theorem ChunkAtPos.scan_of_mismatch (hne : chunkCrc tag payload ≠ stored) :
    parseScan s = .next (failParse .crcMismatch { s with chCalc := chunkCrc tag payload }) :=
  parseScan_of_done (h.pass.trans (if_pos hne))

theorem ChunkAtPos.scan_of_recognized {k : ChunkKind} (heq : chunkCrc tag payload = stored) (hk : kindOf tag = some k) :
    parseScan s = .next (returnChunk k tag len (s.parsePos + 8) stored (skipTo s.draws stored (s.parsePos + 12 + len) s)) := by
  refine parseScan_of_done (h.pass.trans ?_)
  rcases judgeChunk_cases len tag (chunkCrc tag payload) stored s with ⟨hne, -⟩ | ⟨-, hnone, -⟩ | ⟨-, k', hk', e⟩
  · exact absurd heq hne
  · simp [hk] at hnone
  · obtain rfl := Option.some.inj (hk.symm.trans hk')
    rw [e, heq]

theorem ChunkAtPos.scan_of_unrecognized (heq : chunkCrc tag payload = stored) (hk : kindOf tag = none) :
    parseScan s = parseScan (skipTo s.draws stored (s.parsePos + 12 + len) s) := by
  refine parseScan_of_again (h.pass.trans ?_)
  rcases judgeChunk_cases len tag (chunkCrc tag payload) stored s with ⟨hne, -⟩ | ⟨-, -, e⟩ | ⟨-, k', hk', -⟩
  · exact absurd heq hne
  · rw [e, heq]
  · simp [hk] at hk'

end AtChunk

theorem parsePos_past_eq (pos len : Word) : pos + 12 + len = BitVec.ofNat 32 (pos.toNat + 12 + len.toNat) := by
  simp [BitVec.ofNat_add]

theorem parsePos_data_eq (pos : Word) : pos + 8 = BitVec.ofNat 32 (pos.toNat + 8) := by simp [BitVec.ofNat_add]

/-! ### One changed byte of a chunk -/

/-- The four bytes of a word, big-endian. -/
def bytesBE (w : Word) : List Byte := [byteOf w 3, byteOf w 2, byteOf w 1, byteOf w 0]

theorem bytesBE_injective : Function.Injective bytesBE := by
  intro w w' h
  simp only [bytesBE, List.cons.injEq, and_true] at h
  obtain ⟨h3, h2, h1, h0⟩ := h
  rw [← wordBE_bytes w, h3, h2, h1, h0, wordBE_bytes]

/-- Of two sequences that differ in one byte, not both end in their checksum: the byte lies in the covered part, whose checksum
changes, or in the stored checksum. -/
theorem stored_ne_of_changed_byte {covered covered' before after : List Byte} {stored stored' : Word} {x y : Byte}
    (hlen : covered.length = covered'.length) (hgood : crc32 covered = stored) (hne : x ≠ y)
    (h : covered ++ bytesBE stored = before ++ x :: after) (h' : covered' ++ bytesBE stored' = before ++ y :: after) :
    crc32 covered' ≠ stored' := by
  have inStored : ∀ pre, bytesBE stored = pre ++ x :: after → before = covered ++ pre → crc32 covered' ≠ stored' := by
    rintro pre hst rfl hbad
    rw [List.append_assoc] at h'
    obtain ⟨rfl, hst'⟩ := List.append_inj h' hlen.symm
    rw [← hbad, hgood, hst] at hst'
    exact hne (List.cons.inj (List.append_cancel_left hst')).1
  rcases List.append_eq_append_iff.1 h with ⟨pre, hbefore, hst⟩ | ⟨suf, rfl, hafter⟩
  · exact inStored pre hst hbefore
  · cases suf with
    | nil => exact inStored [] hafter.symm (by simp)
    | cons b suf =>
      obtain ⟨rfl, htail⟩ := List.cons.inj hafter
      have hsplit : covered' ++ bytesBE stored' = (before ++ y :: suf) ++ bytesBE stored := h'.trans (by simp [htail])
      obtain ⟨rfl, hst⟩ := List.append_inj hsplit (by simpa using hlen.symm)
      rw [bytesBE_injective hst, ← hgood]
      exact crc32_ne_of_changed_byte before suf (Ne.symm hne)

/-! ### What PARSE_NEXT changes -/

/-- `s` with the parser's registers, RESULT, STATUS and the draw count of `t`. -/
def parserUpdate (t s : State) : State :=
  { s with
    pstate := t.pstate, parsePos := t.parsePos, chType := t.chType, chLen := t.chLen, chData := t.chData
    chCrc := t.chCrc, chCalc := t.chCalc, result := t.result, lastError := t.lastError, busy := false, draws := t.draws }

theorem execParseNext_eq_update {s t : State} (h : execParseNext s = .next t) : t = parserUpdate t s := by
  obtain ⟨_, _, _, _, ⟨_, rfl⟩ | rfl | ⟨_, _, _, _, _, -, rfl⟩⟩ := execParseNext_answer h
  all_goals rfl

/-- A scan moves PARSE_POS forward, and a chunk it returns lies between the two positions (R130, R134). -/
theorem ScanEffect.advances {s t : State} (h : ScanEffect s (.next t)) :
    s.parsePos.toNat ≤ t.parsePos.toNat ∧
    (t.lastError = none → t.result ≠ 0 →
      s.parsePos.toNat + 8 ≤ t.chData.toNat ∧ t.chData.toNat + t.chLen.toNat + 4 = t.parsePos.toNat ∧
      t.parsePos.toNat ≤ s.inLen.toNat ∧ t.chCrc = t.chCalc ∧ ∃ k, kindOf t.chType = some k ∧ t.result = kindCode k) := by
  rcases h with ⟨h, -⟩ | ⟨_, _, _, _, h, hge, -⟩ | ⟨_, _, _, h, hge, -⟩ |
    ⟨_, _, _, kind, _, _, _, h, hkind, hdata, hend, hle⟩ <;> cases h
  · exact ⟨hge, nofun⟩
  · exact ⟨hge, fun _ hr => absurd rfl hr⟩
  · refine ⟨?_, fun _ _ => ⟨hdata, hend, hle, rfl, kind, hkind, rfl⟩⟩
    simp only [returnChunk_parsePos]
    omega

/-! ### What PARSE_NEXT depends on -/

/-- Two states alike to the parser: its registers, IN_LEN, the parameters and the draw count, and IBUF from PARSE_POS on. -/
structure ParserAlike (s s' : State) : Prop where
  regs : KeepsParser s s'
  inLen : s'.inLen = s.inLen
  params : s'.params = s.params
  draws : s'.draws = s.draws
  ibuf : ∀ j, s.parsePos.toNat ≤ j → bufRead s'.ibuf j = bufRead s.ibuf j

/-- Two answers alike: the parser's registers, the draw count, the error, and RESULT where there is no error. -/
structure AnswerAlike (t t' : State) : Prop where
  regs : KeepsParser t t'
  draws : t'.draws = t.draws
  lastError : t'.lastError = t.lastError
  result : t.lastError = none → t'.result = t.result

/-- Outcomes alike: answers alike, or the same stop. -/
inductive OutcomeAlike : Host.Outcome State Fault Refusal → Host.Outcome State Fault Refusal → Prop where
  | next {t t' : State} (h : AnswerAlike t t') : OutcomeAlike (.next t) (.next t')
  | fault (f : Fault) : OutcomeAlike (.fault f) (.fault f)

/-- Passes alike: outcomes alike, or states alike to go on from. -/
inductive PassAlike : Pass → Pass → Prop where
  | done {o o'} (h : OutcomeAlike o o') : PassAlike (.done o) (.done o')
  | again {s s' : State} (h : ParserAlike s s') : PassAlike (.again s) (.again s')

theorem raiseError_alike {s s' : State} (h : ParserAlike s s') (e : ErrorCode) :
    OutcomeAlike (.next (raiseError e s)) (.next (raiseError e s')) :=
  .next ⟨⟨h.regs.pstate, h.regs.parsePos, h.regs.chType, h.regs.chLen, h.regs.chData, h.regs.chCrc, h.regs.chCalc⟩, h.draws, rfl,
    nofun⟩

theorem endOfWalk_alike {s s' : State} (h : ParserAlike s s') : OutcomeAlike (.next (endOfWalk s)) (.next (endOfWalk s')) :=
  .next ⟨⟨h.regs.pstate, h.regs.parsePos, h.regs.chType, h.regs.chLen, h.regs.chData, h.regs.chCrc, h.regs.chCalc⟩, h.draws, rfl,
    fun _ => rfl⟩

theorem failParse_alike {s s' : State} (h : ParserAlike s s') (e : ParseError) :
    OutcomeAlike (.next (failParse e s)) (.next (failParse e s')) :=
  .next ⟨⟨rfl, h.regs.parsePos, h.regs.chType, h.regs.chLen, h.regs.chData, h.regs.chCrc, h.regs.chCalc⟩, h.draws, rfl, nofun⟩

theorem endOfBuffer_alike {s s' : State} (h : ParserAlike s s') : OutcomeAlike (.next (endOfBuffer s)) (.next (endOfBuffer s')) :=
  .next ⟨⟨rfl, h.regs.parsePos, h.regs.chType, h.regs.chLen, h.regs.chData, h.regs.chCrc, h.regs.chCalc⟩, h.draws, rfl,
    fun _ => rfl⟩

theorem ParserAlike.drawn {s s' : State} (h : ParserAlike s s') (k : Nat) :
    ParserAlike { s with draws := k } { s' with draws := k } :=
  ⟨⟨h.regs.pstate, h.regs.parsePos, h.regs.chType, h.regs.chLen, h.regs.chData, h.regs.chCrc, h.regs.chCalc⟩, h.inLen, h.params,
    rfl, h.ibuf⟩

theorem ParserAlike.calculated {s s' : State} (h : ParserAlike s s') (cc : Word) :
    ParserAlike { s with chCalc := cc } { s' with chCalc := cc } :=
  ⟨⟨h.regs.pstate, h.regs.parsePos, h.regs.chType, h.regs.chLen, h.regs.chData, h.regs.chCrc, rfl⟩, h.inLen, h.params,
    h.draws, h.ibuf⟩

theorem judgeChunk_alike {s s' : State} (h : ParserAlike s s') {len : Word} (tag computed stored : Word)
    (hfits : s.parsePos.toNat + 12 + len.toNat ≤ s.inLen.toNat) :
    PassAlike (judgeChunk len tag computed stored s) (judgeChunk len tag computed stored s') := by
  have hpos := h.regs.parsePos
  have hpast := parsePos_advance_toNat hfits
  unfold judgeChunk
  by_cases hne : computed ≠ stored
  · rw [if_pos hne, if_pos hne]
    exact .done (failParse_alike (h.calculated computed) .crcMismatch)
  rw [if_neg hne, if_neg hne]
  cases kindOf tag with
  | none =>
    refine .again ⟨⟨h.regs.pstate, ?_, h.regs.chType, h.regs.chLen, h.regs.chData, h.regs.chCrc, rfl⟩, h.inLen, h.params,
      h.draws, fun j hj => h.ibuf j ?_⟩
    · simp only [hpos]
    · exact le_trans (by omega) (hpast.symm.trans_le hj)
  | some k =>
    refine .done (.next ⟨⟨?_, ?_, rfl, rfl, ?_, rfl, rfl⟩, h.draws, rfl, fun _ => rfl⟩)
    · simp only [returnChunk_pstate, h.regs.pstate]
    · simp only [returnChunk_parsePos, hpos]
    · simp only [returnChunk_chData, hpos]

theorem parsePass_alike {s s' : State} (h : ParserAlike s s') : PassAlike (parsePass s) (parsePass s') := by
  have hpos : s'.parsePos.toNat = s.parsePos.toNat := congrArg BitVec.toNat h.regs.parsePos
  have hlen : s'.inLen.toNat = s.inLen.toNat := congrArg BitVec.toNat h.inLen
  have hheader : readHeader s'.params.unwritten s'.ibuf s.parsePos.toNat s'.draws =
      readHeader s.params.unwritten s.ibuf s.parsePos.toNat s.draws := by
    rw [h.params, h.draws]
    exact readHeader_congr fun j hj _ => h.ibuf j hj
  have hchecks : ∀ len k, readChecksums s'.params.unwritten s'.ibuf s.parsePos.toNat len k =
      readChecksums s.params.unwritten s.ibuf s.parsePos.toNat len k := by
    intro len k
    rw [h.params]
    exact readChecksums_congr fun j hj _ => h.ibuf j hj
  unfold parsePass
  simp only [hpos, hlen, hheader, hchecks]
  split
  · exact .done (endOfBuffer_alike h)
  cases readHeader s.params.unwritten s.ibuf s.parsePos.toNat s.draws with
  | none => exact .done (.fault _)
  | some header =>
    obtain ⟨len, tag, k1⟩ := header
    by_cases hfits : s.inLen.toNat < s.parsePos.toNat + 12 + len.toNat
    · simp only [if_pos hfits]
      exact .done (failParse_alike (h.drawn k1) .truncatedChunk)
    simp only [if_neg hfits]
    cases readChecksums s.params.unwritten s.ibuf s.parsePos.toNat len.toNat k1 with
    | none => exact .done (.fault _)
    | some sums =>
      obtain ⟨computed, stored, k2⟩ := sums
      simp only
      exact judgeChunk_alike (h.drawn k2) tag computed stored (Nat.not_lt.1 hfits)

theorem parseScan_alike {s s' : State} (h : ParserAlike s s') : OutcomeAlike (parseScan s) (parseScan s') := by
  refine parseScan_induction (P := fun s o => ∀ s', ParserAlike s s' → OutcomeAlike o (parseScan s')) ?done ?again s s' h
  case done =>
    intro s o hpass s' h
    have hp := parsePass_alike h
    rw [hpass] at hp
    generalize hpass' : parsePass s' = p at hp
    cases hp with
    | done ho => rw [parseScan_of_done hpass']; exact ho
  case again =>
    intro s s₁ hpass ih s' h
    have hp := parsePass_alike h
    rw [hpass] at hp
    generalize hpass' : parsePass s' = p at hp
    cases hp with
    | again h₁ => rw [parseScan_of_again hpass, parseScan_of_again hpass']; exact ih _ h₁

theorem parseIdle_alike {s s' : State} (h : ParserAlike s s') (hibuf : ∀ j, bufRead s'.ibuf j = bufRead s.ibuf j) :
    OutcomeAlike (parseIdle s) (parseIdle s') := by
  have hlen : s'.inLen.toNat = s.inLen.toNat := congrArg BitVec.toNat h.inLen
  have hread : readBytes s'.params.unwritten s'.ibuf 0 8 s'.draws = readBytes s.params.unwritten s.ibuf 0 8 s.draws := by
    rw [h.params, h.draws]
    exact readBytes_congr fun j _ _ => hibuf j
  unfold parseIdle
  simp only [hread, hlen]
  split
  · exact failParse_alike h .magicMismatch
  cases readBytes s.params.unwritten s.ibuf 0 8 s.draws with
  | none => exact .fault _
  | some signature =>
    obtain ⟨bs, k⟩ := signature
    by_cases hm : bs ≠ magic
    · simp only [if_pos hm]
      exact failParse_alike (h.drawn k) .magicMismatch
    · simp only [if_neg hm]
      exact parseScan_alike ⟨⟨rfl, rfl, h.regs.chType, h.regs.chLen, h.regs.chData, h.regs.chCrc, h.regs.chCalc⟩, h.inLen,
        h.params, rfl, fun j _ => hibuf j⟩

/-- PARSE_NEXT does alike in states alike; only the signature check reads IBUF before PARSE_POS. -/
theorem execParseNext_alike {s s' : State} (h : ParserAlike s s')
    (hidle : s.pstate = .idle → ∀ j, bufRead s'.ibuf j = bufRead s.ibuf j) :
    OutcomeAlike (execParseNext s) (execParseNext s') := by
  unfold execParseNext
  simp only [h.inLen, h.params, h.regs.pstate]
  split
  · exact raiseError_alike h _
  cases hp : s.pstate with
  | idle => exact parseIdle_alike h (hidle hp)
  | scan => exact parseScan_alike h
  | doneIend => exact endOfWalk_alike h
  | doneEob => exact endOfWalk_alike h
  | error e => exact raiseError_alike h _

/-- RESULT after alike answers is alike where it was alike before. -/
theorem AnswerAlike.result_eq {s s' t t' : State} (h : AnswerAlike t t') (ht : execParseNext s = .next t)
    (ht' : execParseNext s' = .next t') (hr : s'.result = s.result) : t'.result = t.result := by
  cases herr : t.lastError with
  | none => exact h.result herr
  | some e =>
    have hkept := exec_error_keeps_result (i := .parseNext) ht (by simp [herr])
    have hkept' := exec_error_keeps_result (i := .parseNext) ht' (by simp [h.lastError, herr])
    rw [hkept, hkept', hr]

theorem parserUpdate_congr {t t' : State} (h : AnswerAlike t t') (hr : t'.result = t.result) (s : State) :
    parserUpdate t' s = parserUpdate t s := by
  unfold parserUpdate
  rw [h.regs.pstate, h.regs.parsePos, h.regs.chType, h.regs.chLen, h.regs.chData, h.regs.chCrc, h.regs.chCalc, h.lastError,
    h.draws, hr]

/-! ### The statements -/

/-- Settles O18: the four rows of the table, and past them the search ends. -/
theorem recognizedTagsRule : Obligations.RecognizedTags := by
  unfold Obligations.RecognizedTags
  refine ⟨fun tag => ?_, rfl, rfl, rfl, rfl⟩
  split_ifs with h1 h2 h3 h4
  · rw [h1]; rfl
  · rw [h2]; rfl
  · rw [h3]; rfl
  · rw [h4]; rfl
  · rw [kindOf, Option.map_eq_none_iff, List.find?_eq_none]
    simp only [recognizedTags, List.forall_mem_cons, List.not_mem_nil, false_imp_iff, implies_true, and_true, beq_iff_eq]
    exact ⟨Ne.symm h1, Ne.symm h2, Ne.symm h3, Ne.symm h4⟩

/-- Settles O21: the pass at the header ends the scan. -/
theorem truncatedChunkNeverWraps : Obligations.TruncatedChunkNeverWraps := by
  unfold Obligations.TruncatedChunkNeverWraps
  intro s l0 l1 l2 l3 t0 t1 t2 t3 hp hlen h8 hh hlong
  rw [← wordBE_toNat] at hlong
  exact (execParseNext_of_scan hlen hp).trans (parseScan_of_done (parsePass_of_truncated h8 hh hlong))

/-- Settles O22: the pass at the chunk judges it. -/
theorem badChecksumRaisesCrcMismatch : Obligations.BadChecksumRaisesCrcMismatch := by
  unfold Obligations.BadChecksumRaisesCrcMismatch
  intro s len tag payload stored hp h hne
  exact (h.exec_eq_scan hp).trans (h.scan_of_mismatch hne)

/-- Settles O23: the pass at the chunk returns it, and the positions do not wrap. -/
theorem recognizedChunkIsReturned : Obligations.RecognizedChunkIsReturned := by
  unfold Obligations.RecognizedChunkIsReturned
  intro s len tag payload stored k hp h heq hk
  refine ((h.exec_eq_scan hp).trans (h.scan_of_recognized heq hk)).trans ?_
  rw [parsePos_past_eq, parsePos_data_eq, ← hp]
  rfl

/-- Settles O24: the scan goes on from the state past the chunk, which is what PARSE_NEXT does there. -/
theorem unrecognizedChunkIsSkipped : Obligations.UnrecognizedChunkIsSkipped := by
  unfold Obligations.UnrecognizedChunkIsSkipped
  intro s len tag payload stored hp h heq hk
  refine ((h.exec_eq_scan hp).trans (h.scan_of_unrecognized heq hk)).trans ?_
  rw [parsePos_past_eq]
  obtain ⟨hlen, -⟩ := h
  exact (execParseNext_of_scan (s := { s with chCalc := stored, parsePos := _ }) hlen hp).symm

/-- Settles O25: the changed chunk does not end in its checksum. -/
theorem oneChangedByteIsCaught : Obligations.OneChangedByteIsCaught := by
  unfold Obligations.OneChangedByteIsCaught
  intro s len tag tag' payload payload' stored stored' before after x y hp h hlen hgood hne hold hnew
  have hbad : chunkCrc tag' payload' ≠ stored' := stored_ne_of_changed_byte (by simp [hlen]) hgood hne hold hnew
  exact ⟨_, (h.exec_eq_scan hp).trans (h.scan_of_mismatch hbad), rfl, rfl, rfl, rfl⟩

/-- Settles O28: every answer of PARSE_NEXT is an update of the parser's part, and it stores to no buffer. -/
theorem parseNextFrame : Obligations.ParseNextFrame := by
  unfold Obligations.ParseNextFrame
  intro s t h
  exact ⟨execParseNext_eq_update h, fun b a => by rw [exec_keeps_buf h (by decide)]⟩

/-- Settles O29: from SCAN, PARSE_NEXT raises RangeError where it stands, or scans. -/
theorem parsePosAdvances : Obligations.ParsePosAdvances := by
  unfold Obligations.ParsePosAdvances
  intro s t hp h
  rcases execParseNext_cases s with ⟨-, e⟩ | ⟨hlen, -⟩
  · cases e.symm.trans h
    exact ⟨le_rfl, nofun⟩
  · have hscan := parseScan_effect s
    rw [← execParseNext_of_scan hlen hp, show execParseNext s = .next t from h] at hscan
    exact hscan.advances

/-- Settles O31: with another IBUF that agrees from PARSE_POS on, the state is alike to the parser in SCAN. -/
theorem consumedBytesHaveNoEffect : Obligations.ConsumedBytesHaveNoEffect := by
  unfold Obligations.ConsumedBytesHaveNoEffect
  intro s m hp hm
  have halike : ParserAlike s { s with ibuf := m } := ⟨⟨rfl, rfl, rfl, rfl, rfl, rfl, rfl⟩, rfl, rfl, rfl, hm⟩
  have ho : OutcomeAlike (exec .parseNext s) (exec .parseNext { s with ibuf := m }) :=
    execParseNext_alike halike fun hidle => by rw [hp] at hidle; cases hidle
  generalize ht : exec .parseNext s = o at ho
  generalize ht' : exec .parseNext { s with ibuf := m } = o' at ho
  cases ho with
  | fault f => rfl
  | @next t t' ha =>
    have hr := ha.result_eq ht ht' rfl
    have hmoved : t' = { t with ibuf := m } :=
      calc t' = parserUpdate t' { s with ibuf := m } := execParseNext_eq_update ht'
        _ = { parserUpdate t s with ibuf := m } := parserUpdate_congr ha hr _
        _ = { t with ibuf := m } := by rw [← execParseNext_eq_update ht]
    exact congrArg some hmoved

end Sys2Proof.Machine
end

section
/-! The defilter (42_defilter.md): the predictor on exact integers, and the row engine byte by byte. -/

namespace Sys2Proof.Machine

/-! ### The predictor (R151) -/

/-- The predictor's choice, with its distances as absolute values of integers. -/
theorem paeth_choice (a b c : Byte) :
    let pa : Int := |(b.toNat : Int) - c.toNat|
    let pb : Int := |(a.toNat : Int) - c.toNat|
    let pc : Int := |(a.toNat : Int) + b.toNat - 2 * c.toNat|
    paeth a b c = if pa ≤ pb ∧ pa ≤ pc then a else if pb ≤ pc then b else c := by
  have ha : (a.toNat : Int) + b.toNat - c.toNat - a.toNat = b.toNat - c.toNat := by ring
  have hb : (a.toNat : Int) + b.toNat - c.toNat - b.toNat = a.toNat - c.toNat := by ring
  have hc : (a.toNat : Int) + b.toNat - c.toNat - c.toNat = a.toNat + b.toNat - 2 * c.toNat := by ring
  simp only [paeth, ha, hb, hc, Int.abs_eq_natAbs, Nat.cast_le]

/-- The choice is at the least of the three distances. -/
theorem paeth_distance_le (a b c : Byte) :
    let p : Int := (a.toNat : Int) + b.toNat - c.toNat
    |p - (paeth a b c).toNat| ≤ |(b.toNat : Int) - c.toNat| ∧ |p - (paeth a b c).toNat| ≤ |(a.toNat : Int) - c.toNat| ∧
    |p - (paeth a b c).toNat| ≤ |(a.toNat : Int) + b.toNat - 2 * c.toNat| := by
  intro p
  have hchoice := paeth_choice a b c
  simp only [Int.abs_eq_natAbs] at hchoice ⊢
  split_ifs at hchoice with h1 h2 <;> rw [hchoice] <;> omega

/-! ### The checks of ROW_UNFILT (60_exceptions.md R194) -/

theorem execRowUnfilt_of_bpp_zero (t : Byte) (s : State) : execRowUnfilt t 0 s = .next (raiseError .illegalCommand s) := rfl

theorem toNat_ne_zero_of_ne {b : Byte} (h : b ≠ 0) : b.toNat ≠ 0 := fun h0 => h (BitVec.eq_of_toNat_eq h0)

theorem execRowUnfilt_of_tag_gt {t bpp : Byte} (hbpp : bpp ≠ 0) (ht : 4 < t.toNat) (s : State) :
    execRowUnfilt t bpp s = .next (raiseError .invalidFilterType s) := by
  rw [execRowUnfilt, if_neg (toNat_ne_zero_of_ne hbpp), filterOfTag_eq_none.2 ht]

theorem execRowUnfilt_of_long {t bpp : Byte} {f : FilterType} {s : State} (hbpp : bpp ≠ 0) (hf : filterOfTag t = some f)
    (hlong : s.params.rowMax < s.arg0.toNat) : execRowUnfilt t bpp s = .next (raiseError .rangeError s) := by
  rw [execRowUnfilt, if_neg (toNat_ne_zero_of_ne hbpp), hf]
  exact if_pos hlong

theorem execRowUnfilt_of_legal {t bpp : Byte} {f : FilterType} {s : State} (hbpp : bpp ≠ 0) (hf : filterOfTag t = some f)
    (hle : s.arg0.toNat ≤ s.params.rowMax) : execRowUnfilt t bpp s = unfiltRow f bpp.toNat s.arg0.toNat s := by
  rw [execRowUnfilt, if_neg (toNat_ne_zero_of_ne hbpp), hf]
  exact if_neg (Nat.not_lt.2 hle)

/-! ### Written rows -/

theorem bufRead_of_written {m : Buffer} {n x : Nat} (h : written m 0 n) (hx : x < n) : ∃ v, bufRead m x = some v := by
  have hsome := h x hx
  rw [Nat.zero_add] at hsome
  exact Option.isSome_iff_exists.1 hsome

theorem neighbour_of_written {m : Buffer} {n x : Nat} (h : written m 0 n) (hx : x < n) (bpp : Nat) :
    ∃ v, neighbour m bpp x = some v := by
  unfold neighbour
  split
  · exact bufRead_of_written h (by omega)
  · exact ⟨0, rfl⟩

/-- A row copied to another buffer reads there as it stands. -/
theorem bufRead_writeBytes_of_holds {m m' : Buffer} {row : List Byte} {x : Nat} (h : holdsBytes m 0 row = true)
    (hx : x < row.length) : bufRead (writeBytes m' 0 row) x = bufRead m x := by
  have hcopied := holdsBytes_iff.1 (holdsBytes_writeBytes m' 0 row) x row[x] (List.getElem?_eq_getElem hx)
  have hheld := holdsBytes_iff.1 h x row[x] (List.getElem?_eq_getElem hx)
  rw [Nat.zero_add] at hcopied hheld
  rw [hcopied, hheld]

theorem usesB_of_usesC {f : FilterType} (h : usesC f = true) : usesB f = true := by
  cases f with
  | paeth => rfl
  | none | sub | up | average => cases h

/-! ### The row loop under `fault` (R12) -/

/-- A reconstruction that answers under `fault` has found its byte, and the byte above where the filter uses it, written. -/
theorem reconAt_fault_written {t : FilterType} {bpp : Nat} {cur prior : Buffer} {x k : Nat} {r : Byte × Nat}
    (h : reconAt .fault t bpp cur prior x k = some r) :
    bufRead cur x ≠ none ∧ (usesB t = true → bufRead prior x ≠ none) := by
  unfold reconAt at h
  split at h
  · cases h
  split at h
  · cases h
  rename_i hb
  split at h
  · cases h
  split at h
  · cases h
  rename_i hf
  refine ⟨fun hnone => ?_, fun hu hnone => ?_⟩
  · rw [readByte_eq_none.2 ⟨rfl, hnone⟩] at hf; cases hf
  · rw [readNeighbour, if_pos hu, readByte_eq_none.2 ⟨rfl, hnone⟩] at hb; cases hb

/-- A row loop that answers under `fault` has found every byte of the row written, and of the row above where the filter uses
it. -/
theorem reconRow_fault_written {t : FilterType} {bpp : Nat} {prior : Buffer} {n x : Nat} {cur : Buffer} {k : Nat}
    {r : Buffer × Nat} (h : reconRow .fault t bpp prior n x cur k = some r) {j : Nat} (hx : x ≤ j) (hj : j < x + n) :
    bufRead cur j ≠ none ∧ (usesB t = true → bufRead prior j ≠ none) := by
  induction n generalizing x cur k with
  | zero => omega
  | succ n ih =>
    simp only [reconRow] at h
    split at h
    · cases h
    rename_i hat
    by_cases hjx : j = x
    · subst hjx; exact reconAt_fault_written hat
    · have hrest := ih h (by omega) (by omega)
      rwa [bufRead_bufWrite_other _ _ (fun e => hjx e.symm)] at hrest

/-- The row engine stops under `fault` exactly on an unwritten byte of the row, or of the row above that the filter uses as
`b`. -/
theorem unfiltRow_fault_iff {f : FilterType} {bpp n : Nat} {s : State} (hu : s.params.unwritten = .fault) (hbpp : bpp ≠ 0) :
    unfiltRow f bpp n s = .fault .unwrittenRead ↔ ¬ written s.cur 0 n ∨ (usesB f = true ∧ ¬ written s.prior 0 n) := by
  have hunwritten : ∀ (m : Buffer) (j : Nat), j < n → bufRead m j = none → ¬ written m 0 n := by
    intro m j hj hnone hw
    obtain ⟨v, hv⟩ := bufRead_of_written hw hj
    rw [hnone] at hv; cases hv
  constructor
  · intro h
    rcases unfiltRow_cases f bpp n s with ⟨hrow, -⟩ | ⟨_, _, _, -, -, -, e⟩
    · obtain ⟨-, j, hj, ⟨-, hnone⟩ | ⟨huses, hnone⟩⟩ := reconRow_eq_none hrow hbpp (by intro j hj; omega)
      · exact .inl (hunwritten _ j (by omega) hnone)
      · exact .inr ⟨huses.elim id usesB_of_usesC, hunwritten _ j (by omega) hnone⟩
    · rw [e] at h; cases h
  · intro h
    rcases unfiltRow_cases f bpp n s with ⟨-, e⟩ | ⟨_, _, _, hrow, -⟩
    · exact e
    · rw [hu] at hrow
      have hheld : ∀ j, j < n → bufRead s.cur j ≠ none ∧ (usesB f = true → bufRead s.prior j ≠ none) :=
        fun j hj => reconRow_fault_written hrow (Nat.zero_le j) (by omega)
      have hwritten : ∀ m : Buffer, (∀ j, j < n → bufRead m j ≠ none) → written m 0 n :=
        fun m hm j hj => by rw [Nat.zero_add]; exact Option.isSome_iff_ne_none.2 (hm j hj)
      rcases h with hcur | ⟨huses, hprior⟩
      · exact absurd (hwritten _ fun j hj => (hheld j hj).1) hcur
      · exact absurd (hwritten _ fun j hj => (hheld j hj).2 huses) hprior

/-- Under `any_value` the row engine completes. -/
theorem unfiltRow_of_anyValue {f : FilterType} {bpp n : Nat} {s : State} (hu : s.params.unwritten = .anyValue) (hbpp : bpp ≠ 0) :
    ∃ u, unfiltRow f bpp n s = .next u ∧ u.lastError = none := by
  rcases unfiltRow_cases f bpp n s with ⟨hrow, -⟩ | ⟨_, _, _, -, -, -, e⟩
  · obtain ⟨hfault, -⟩ := reconRow_eq_none hrow hbpp (by intro j hj; omega)
    rw [hu] at hfault; cases hfault
  · exact ⟨_, e, rfl⟩

/-! ### A row whose used bytes are written (R156) -/

/-- The row engine completes without a draw, and both line buffers read as the new row. -/
theorem unfiltRow_of_written {f : FilterType} {bpp n : Nat} {s : State} (hbpp : bpp ≠ 0) (hcur : written s.cur 0 n)
    (hprior : usesB f = true ∨ usesC f = true → written s.prior 0 n) :
    ∃ cur prior, unfiltRow f bpp n s = .next (succeed { s with cur := cur, prior := prior }) ∧
      reconRow s.params.unwritten f bpp s.prior n 0 s.cur s.draws = some (cur, s.draws) ∧
      (∀ x, x < n → bufRead prior x = bufRead cur x) ∧ (∀ x, n ≤ x → bufRead prior x = bufRead s.prior x) := by
  rcases unfiltRow_cases f bpp n s with ⟨hrow, -⟩ | ⟨cur, row, k, hrow, hl, hh, e⟩
  · obtain ⟨-, j, hj, ⟨-, hnone⟩ | ⟨huses, hnone⟩⟩ := reconRow_eq_none hrow hbpp (by intro j hj; omega)
    · obtain ⟨v, hv⟩ := bufRead_of_written hcur (x := j) (by omega)
      rw [hnone] at hv; cases hv
    · obtain ⟨v, hv⟩ := bufRead_of_written (hprior huses) (x := j) (by omega)
      rw [hnone] at hv; cases hv
  · rw [← Nat.zero_add n] at hcur hprior
    obtain rfl := reconRow_draws hrow hcur hprior
    exact ⟨cur, _, e, hrow, fun x hx => bufRead_writeBytes_of_holds hh (by omega),
      fun x hx => bufRead_writeBytes_outside (by omega)⟩

/-- The byte the row loop leaves at `x`, with the neighbours of R150 it is made from. -/
theorem reconRow_reconstructs {u : UnwrittenRead} {f : FilterType} {bpp n : Nat} {cur prior cur' : Buffer} {k k' : Nat}
    (hbpp : bpp ≠ 0) (hcur : written cur 0 n) (hprior : usesB f = true ∨ usesC f = true → written prior 0 n)
    (h : reconRow u f bpp prior n 0 cur k = some (cur', k')) {x : Nat} (hx : x < n) :
    ∃ filt a b c : Byte, bufRead cur x = some filt ∧ (usesA f = true → neighbour cur' bpp x = some a) ∧
      (usesB f = true → bufRead prior x = some b) ∧ (usesC f = true → neighbour prior bpp x = some c) ∧
      bufRead cur' x = some (recon f filt a b c) := by
  obtain ⟨filt, hf⟩ := bufRead_of_written hcur hx
  obtain ⟨a, ha⟩ := neighbour_of_written (reconRow_written h) hx bpp
  have hb : ∃ b, usesB f = true → bufRead prior x = some b := by
    by_cases hu : usesB f = true
    · obtain ⟨b, hb⟩ := bufRead_of_written (hprior (.inl hu)) hx
      exact ⟨b, fun _ => hb⟩
    · exact ⟨0, fun hu' => absurd hu' hu⟩
  have hc : ∃ c, usesC f = true → neighbour prior bpp x = some c := by
    by_cases hu : usesC f = true
    · obtain ⟨c, hc⟩ := neighbour_of_written (hprior (.inr hu)) hx bpp
      exact ⟨c, fun _ => hc⟩
    · exact ⟨0, fun hu' => absurd hu' hu⟩
  obtain ⟨b, hb⟩ := hb
  obtain ⟨c, hc⟩ := hc
  exact ⟨filt, a, b, c, hf, fun _ => ha, hb, hc, reconRow_at hbpp h (Nat.zero_le x) (by omega) hf (fun _ => ha) hb hc⟩

/-! ### A row above that is all zero (R159) -/

theorem paeth_zero_zero (a : Byte) : paeth a 0 0 = a := by
  have h0 : |((0 : Byte).toNat : Int) - (0 : Byte).toNat| = 0 := rfl
  rw [paeth_choice, if_pos]
  exact ⟨h0 ▸ abs_nonneg _, h0 ▸ abs_nonneg _⟩

theorem readNeighbour_of_zero {u : UnwrittenRead} {m : Buffer} {used : Bool} {i k : Nat}
    (h : used = true → bufRead m i = some 0) : readNeighbour u m used i k = some (0, k) := by
  unfold readNeighbour
  split
  · rename_i hu; exact readByte_of_held (h hu)
  · rfl

/-- With 0 above and above-left, two filters that use the same `a` and agree on it reconstruct the same. -/
theorem reconAt_of_zero_above {u : UnwrittenRead} {t t' : FilterType} {bpp : Nat} {cur prior : Buffer} {x k : Nat}
    (ha : usesA t = usesA t') (hfilter : ∀ filt a, recon t filt a 0 0 = recon t' filt a 0 0) (hx : bufRead prior x = some 0)
    (hleft : bpp ≤ x → bufRead prior (x - bpp) = some 0) :
    reconAt u t bpp cur prior x k = reconAt u t' bpp cur prior x k := by
  have hb : ∀ used k1, readNeighbour u prior used x k1 = some (0, k1) := fun _ _ => readNeighbour_of_zero fun _ => hx
  have hc : ∀ used k1, readNeighbour u prior (used && decide (bpp ≤ x)) (x - bpp) k1 = some (0, k1) :=
    fun _ _ => readNeighbour_of_zero fun h => hleft (of_decide_eq_true (Bool.and_elim_right h))
  simp only [reconAt, hb, hc, ha, hfilter]

theorem reconRow_of_zero_above {u : UnwrittenRead} {t t' : FilterType} {bpp : Nat} {prior : Buffer} {n x : Nat} {cur : Buffer}
    {k : Nat} (ha : usesA t = usesA t') (hfilter : ∀ filt a, recon t filt a 0 0 = recon t' filt a 0 0)
    (hzero : ∀ j, j < x + n → bufRead prior j = some 0) :
    reconRow u t bpp prior n x cur k = reconRow u t' bpp prior n x cur k := by
  induction n generalizing x cur k with
  | zero => rfl
  | succ n ih =>
    have hat := reconAt_of_zero_above (u := u) (bpp := bpp) (cur := cur) (k := k) ha hfilter (hzero x (by omega))
      fun _ => hzero (x - bpp) (by omega)
    simp only [reconRow, hat]
    split
    · rfl
    · exact ih fun j hj => hzero j (by omega)

/-- With PRIOR all zero over the row, ROW_UNFILT does the same for two such tags, checks included. -/
theorem execRowUnfilt_of_zero_above {t t' bpp : Byte} {f f' : FilterType} {s : State} (hf : filterOfTag t = some f)
    (hf' : filterOfTag t' = some f') (ha : usesA f = usesA f') (hfilter : ∀ filt a, recon f filt a 0 0 = recon f' filt a 0 0)
    (hzero : ∀ j, j < s.arg0.toNat → bufRead s.prior j = some 0) : execRowUnfilt t bpp s = execRowUnfilt t' bpp s := by
  have hrow := reconRow_of_zero_above (u := s.params.unwritten) (bpp := bpp.toNat) (cur := s.cur) (k := s.draws) (x := 0) ha hfilter
    (n := rowLength s) fun j hj => hzero j (by rwa [Nat.zero_add] at hj)
  simp only [execRowUnfilt, hf, hf', unfiltRow, hrow]

/-! ### The statements -/

/-- Settles O32: the choice is by the three distances, and in each branch it is at the least of them. -/
theorem paethPicksNearest : Obligations.PaethPicksNearest := by
  unfold Obligations.PaethPicksNearest
  intro a b c p pa pb pc
  have hchoice := paeth_choice a b c
  obtain ⟨hda, hdb, hdc⟩ := paeth_distance_le a b c
  refine ⟨?_, ?_, ?_, ?_, ?_, ?_, ?_, ?_, fun h1 h2 => hchoice.trans (if_pos ⟨h1, h2⟩),
    fun h1 h2 => hchoice.trans ((if_neg h1).trans (if_pos h2)), fun h1 h2 => hchoice.trans ((if_neg h1).trans (if_neg h2)),
    hda, hdb, hdc⟩
  all_goals
    have hA := a.isLt; have hB := b.isLt; have hC := c.isLt
    simp only [p, pa, pb, pc, Int.abs_eq_natAbs]
    omega

/-- Settles O37: the row loop byte by byte, and the copy. -/
theorem rowIsReconstructed : Obligations.RowIsReconstructed := by
  unfold Obligations.RowIsReconstructed
  intro t bpp f s hbpp hf hle hcur hprior
  have hbpp' := toNat_ne_zero_of_ne hbpp
  obtain ⟨cur, prior, e, hrow, hinside, houtside⟩ := unfiltRow_of_written hbpp' hcur hprior
  refine ⟨_, (execRowUnfilt_of_legal hbpp hf hle).trans e, rfl, fun x hx => ?row, fun x hx => ⟨?left, houtside x hx⟩,
    fun _ => rfl⟩
  case row =>
    obtain ⟨filt, a, b, c, hfilt, ha, hb, hc, hnew⟩ := reconRow_reconstructs hbpp' hcur hprior hrow hx
    exact ⟨filt, a, b, c, hfilt, ha, hb, hc, hnew, (hinside x hx).trans hnew⟩
  case left => exact reconRow_outside hrow (by omega)

/-- Settles O38: past its checks ROW_UNFILT is the row engine. -/
theorem rowStopsOnlyOnUsedUnwrittenBytes : Obligations.RowStopsOnlyOnUsedUnwrittenBytes := by
  unfold Obligations.RowStopsOnlyOnUsedUnwrittenBytes
  intro t bpp f s hbpp hf hle
  have hbpp' := toNat_ne_zero_of_ne hbpp
  rw [show exec (.rowUnfilt t bpp) s = unfiltRow f bpp.toNat s.arg0.toNat s from execRowUnfilt_of_legal hbpp hf hle]
  exact ⟨fun hu => unfiltRow_fault_iff hu hbpp', fun hu => unfiltRow_of_anyValue hu hbpp'⟩

/-- Settles O39: with 0 above and above-left, the predictor is `a`, and the sum with `b` is the byte itself. -/
theorem firstRowFilters : Obligations.FirstRowFilters := by
  unfold Obligations.FirstRowFilters
  intro bpp s hzero
  have hpaeth : ∀ filt a, recon .paeth filt a 0 0 = recon .sub filt a 0 0 := fun filt a => by simp only [recon, paeth_zero_zero]
  have hup : ∀ filt a, recon .up filt a 0 0 = recon .none filt a 0 0 := fun filt a => by simp [recon]
  exact ⟨execRowUnfilt_of_zero_above (t := 4) (t' := 1) rfl rfl rfl hpaeth hzero,
    execRowUnfilt_of_zero_above (t := 2) (t' := 0) rfl rfl rfl hup hzero⟩

end Sys2Proof.Machine
end

section
/-! The order of the checks (60_exceptions.md R194), and what each unit's results depend on (70_reset_and_hazards.md R229, R230). -/

namespace Sys2Proof.Machine

/-! ### The statement on the checks -/

theorem execParseNext_of_inLen_gt {s : State} (h : s.params.ibufSize < s.inLen.toNat) :
    execParseNext s = .next (raiseError .rangeError s) := if_pos h

/-- Settles O41: each clause is the check that decides, with the earlier ones passed. -/
theorem checkPriority : Obligations.CheckPriority := by
  unfold Obligations.CheckPriority
  refine ⟨fun w e s h => runWord_of_decode_error h s, execRowUnfilt_of_bpp_zero, fun t bpp s => (execRowUnfilt_of_tag_gt · · s),
    fun t bpp s hbpp ht hlong => ?rowLength, fun t s ht => execUnfilt_of_tag_gt ht s,
    fun s h => ⟨execCrcBuf_of_out_of_range (.inl h), execParseNext_of_inLen_gt h⟩,
    fun s _ h => execCrcBuf_of_out_of_range (.inr h), fun s e hlen hp => execParseNext_of_error hlen hp,
    fun s t hno h herr => ?magic, fun s l0 l1 l2 l3 t0 t1 t2 t3 hp hlen h8 hh hlong => ?truncated,
    fun s len tag payload stored hp h hne => ?mismatch⟩
  case rowLength =>
    obtain ⟨f, hf⟩ := Option.isSome_iff_exists.1 (filterOfTag_isSome.2 ht)
    exact execRowUnfilt_of_long hbpp hf hlong
  case magic =>
    obtain ⟨-, hfrom⟩ := execParseNext_of_reported (e := .magicMismatch) h herr
    exact (hfrom rfl).1.resolve_right (hno _)
  case truncated =>
    exact ⟨_, (execParseNext_of_scan hlen hp).trans (parseScan_of_done (parsePass_of_truncated h8 hh hlong)), rfl⟩
  case mismatch => exact ⟨_, (h.exec_eq_scan hp).trans (h.scan_of_mismatch hne), rfl⟩

/-! ### The CRC unit -/

/-- CRC_BUF folds the same bytes, or fails the same check, in states that agree on its operands and IBUF. -/
theorem execCrcBuf_depends {s s' t t' : State} (hcrc : s.crcState = s'.crcState) (h0 : s.arg0 = s'.arg0) (h1 : s.arg1 = s'.arg1)
    (hlen : s.inLen = s'.inLen) (hibuf : s.ibuf = s'.ibuf) (hparams : s.params = s'.params) (hdraws : s.draws = s'.draws)
    (h : execCrcBuf s = .next t) (h' : execCrcBuf s' = .next t') : t.crcState = t'.crcState ∧ t.lastError = t'.lastError := by
  rcases execCrcBuf_cases s with ⟨hbad, e⟩ | ⟨-, hbad, e⟩ | ⟨-, -, -, e⟩ | ⟨hsize, hrange, bs, k, hread, e⟩ <;>
    cases e.symm.trans h
  · rw [hparams, hlen] at hbad
    cases (execCrcBuf_of_out_of_range (.inl hbad)).symm.trans h'
    exact ⟨hcrc, rfl⟩
  · rw [hlen, h0, h1] at hbad
    cases (execCrcBuf_of_out_of_range (.inr hbad)).symm.trans h'
    exact ⟨hcrc, rfl⟩
  · rw [hlen, hparams] at hsize
    rw [h0, h1, hlen] at hrange
    rw [hparams, hibuf, h0, h1, hdraws] at hread
    cases (execCrcBuf_of_read_some hsize hrange hread).symm.trans h'
    exact ⟨congrArg (crcUpdate · bs) hcrc, rfl⟩

/-! ### The defilter -/

/-- States that agree on what the row commands use: ARG0, the line buffers, the parameters and the draw count. -/
structure RowsAlike (s s' : State) : Prop where
  arg0 : s.arg0 = s'.arg0
  cur : s.cur = s'.cur
  prior : s.prior = s'.prior
  params : s.params = s'.params
  draws : s.draws = s'.draws

theorem unfiltRow_depends {f : FilterType} {bpp n : Nat} {s s' t t' : State} (ha : RowsAlike s s')
    (h : unfiltRow f bpp n s = .next t) (h' : unfiltRow f bpp n s' = .next t') :
    t.cur = t'.cur ∧ t.prior = t'.prior ∧ t.lastError = t'.lastError := by
  unfold unfiltRow at h h'
  rw [ha.params, ha.prior, ha.cur, ha.draws] at h
  split at h
  · cases h
  rename_i hrow
  simp only [hrow] at h'
  split at h
  · cases h
  rename_i hread
  simp only [hread] at h'
  cases h
  cases h'
  exact ⟨rfl, rfl, rfl⟩

/-- ROW_UNFILT reconstructs the same row, or fails the same check. -/
theorem execRowUnfilt_depends {tag bpp : Byte} {s s' t t' : State} (ha : RowsAlike s s')
    (h : execRowUnfilt tag bpp s = .next t) (h' : execRowUnfilt tag bpp s' = .next t') :
    t.cur = t'.cur ∧ t.prior = t'.prior ∧ t.lastError = t'.lastError := by
  have hlength : rowLength s = rowLength s' := congrArg BitVec.toNat ha.arg0
  unfold execRowUnfilt at h h'
  rw [hlength, ha.params] at h
  split at h
  · rename_i h0
    rw [if_pos h0] at h'
    cases h; cases h'
    exact ⟨ha.cur, ha.prior, rfl⟩
  rename_i h0
  rw [if_neg h0] at h'
  cases hf : filterOfTag tag with
  | none =>
    simp only [hf] at h h'
    cases h; cases h'
    exact ⟨ha.cur, ha.prior, rfl⟩
  | some f =>
    simp only [hf] at h h'
    split at h
    · rename_i hlong
      rw [if_pos hlong] at h'
      cases h; cases h'
      exact ⟨ha.cur, ha.prior, rfl⟩
    · rename_i hlong
      rw [if_neg hlong] at h'
      exact unfiltRow_depends ha h h'

/-- UNFILT's result is a function of its tag and ARG0. -/
theorem execUnfilt_depends {tag : Byte} {s s' t t' : State} (h0 : s.arg0 = s'.arg0) (h : execUnfilt tag s = .next t)
    (h' : execUnfilt tag s' = .next t') : t.lastError = t'.lastError ∧ (t.lastError = none → t.result = t'.result) := by
  cases hf : filterOfTag tag with
  | none =>
    have htag := filterOfTag_eq_none.1 hf
    cases (execUnfilt_of_tag_gt htag s).symm.trans h
    cases (execUnfilt_of_tag_gt htag s').symm.trans h'
    exact ⟨rfl, nofun⟩
  | some f =>
    cases (execUnfilt_of_filter hf s).symm.trans h
    cases (execUnfilt_of_filter hf s').symm.trans h'
    refine ⟨rfl, fun _ => ?_⟩
    simp only [succeed_result, unfiltFilt, unfiltA, unfiltB, unfiltC, h0]

/-! ### The statement on the units -/

/-- Settles O46: CRC_BUF, PARSE_NEXT and ROW_UNFILT each by what it depends on; the other commands by their definition. -/
theorem unitResultsDependOnOwnState : Obligations.UnitResultsDependOnOwnState := by
  unfold Obligations.UnitResultsDependOnOwnState
  refine ⟨?crc, ?parser, ?defilter⟩
  case crc =>
    intro i s s' t t' hi hcrc h0 h1 hlen hibuf hparams hdraws h h'
    cases i with
    | crcInit => cases h; cases h'; exact ⟨rfl, rfl, nofun⟩
    | crcByte d => cases h; cases h'; exact ⟨congrArg (crcStep · d) hcrc, rfl, nofun⟩
    | crcBuf =>
      obtain ⟨hc, he⟩ := execCrcBuf_depends hcrc h0 h1 hlen hibuf hparams hdraws h h'
      exact ⟨hc, he, nofun⟩
    | crcFinal => cases h; cases h'; exact ⟨hcrc, rfl, fun _ => congrArg (· ^^^ crcXorOut) hcrc⟩
    | nop | parseReset | parseNext | paeth | unfilt | rowClear | rowUnfilt => simp [Instr.opcode] at hi
  case parser =>
    intro i s s' t t' hi hp hpos hlen hibuf hparams hdraws hty hln hda hcr hca h h'
    cases i with
    | parseReset => cases h; cases h'; exact ⟨rfl, rfl, rfl, rfl, rfl, rfl, rfl, rfl, nofun⟩
    | parseNext =>
      have halike : ParserAlike s s' :=
        ⟨⟨hp.symm, hpos.symm, hty.symm, hln.symm, hda.symm, hcr.symm, hca.symm⟩, hlen.symm, hparams.symm, hdraws.symm,
          fun j _ => by rw [hibuf]⟩
      have ho := execParseNext_alike halike fun _ j => by rw [hibuf]
      rw [show execParseNext s = .next t from h, show execParseNext s' = .next t' from h'] at ho
      cases ho with
      | next ha =>
        exact ⟨ha.regs.pstate.symm, ha.regs.parsePos.symm, ha.regs.chType.symm, ha.regs.chLen.symm, ha.regs.chData.symm,
          ha.regs.chCrc.symm, ha.regs.chCalc.symm, ha.lastError.symm, fun _ hok => (ha.result hok).symm⟩
    | nop | crcInit | crcByte | crcBuf | crcFinal | paeth | unfilt | rowClear | rowUnfilt => simp [Instr.opcode] at hi
  case defilter =>
    intro i s s' t t' hi h0 hcur hprior hparams hdraws h h'
    cases i with
    | paeth a b c => cases h; cases h'; exact ⟨hcur, hprior, rfl, fun _ _ => rfl⟩
    | unfilt tag =>
      obtain ⟨he, hr⟩ := execUnfilt_depends h0 h h'
      obtain ⟨hc, hpr⟩ := exec_keepsRows h (by simp [Instr.opcode])
      obtain ⟨hc', hpr'⟩ := exec_keepsRows h' (by simp [Instr.opcode])
      exact ⟨hc.trans (hcur.trans hc'.symm), hpr.trans (hprior.trans hpr'.symm), he, fun _ => hr⟩
    | rowClear =>
      cases h; cases h'
      refine ⟨hcur, ?_, rfl, fun hr => by simp [Instr.opcode] at hr⟩
      rw [succeed_prior, succeed_prior, hparams, hprior]
    | rowUnfilt tag bpp =>
      obtain ⟨hc, hpr, he⟩ := execRowUnfilt_depends ⟨h0, hcur, hprior, hparams, hdraws⟩ h h'
      exact ⟨hc, hpr, he, fun hr => by simp [Instr.opcode] at hr⟩
    | nop | crcInit | crcByte | crcBuf | crcFinal | parseReset | parseNext => simp [Instr.opcode] at hi

end Sys2Proof.Machine
end

section
/-! Host accesses to a buffer (20_memory.md R62, R63): what they store and answer, on little-endian lanes. -/

namespace Sys2Proof.Machine

section BufferAccess

variable {s : State} {b : BufId} {i : Nat} (hlegal : s.params.legal) (hidle : s.busy = false)

/-! ### 8-bit accesses -/

section Byte

variable (hi : i < bufSize s.params b)
include hlegal hidle hi

theorem hostAccess_write8_buf (v : Byte) :
    hostAccess (.write8 (bufAddr b i) v) s = .next (s.setBuf b (bufWrite (s.buf b) i v)) := by
  rw [hostAccess_idle hidle]
  simp only [accessIdle, hostWrite8, byteAt_bufAddr hlegal hi]

theorem hostAccess_read8_buf :
    hostAccess (.read8 (bufAddr b i)) s =
      answerRead ((readByte s.params.unwritten (s.buf b) i s.draws).map fun r => (.byte r.1, r.2)) s := by
  rw [hostAccess_idle hidle]
  simp only [accessIdle, hostRead8, byteAt_bufAddr hlegal hi]

theorem hostAccess_read8_of_held {v : Byte} (hv : bufRead (s.buf b) i = some v) :
    hostAccess (.read8 (bufAddr b i)) s = .next { s with hostRead := some (.byte v) } := by
  rw [hostAccess_read8_buf hlegal hidle hi, readByte_of_held hv]
  rfl

theorem hostAccess_read8_of_unwritten (hnone : bufRead (s.buf b) i = none) (hu : s.params.unwritten = .fault) :
    hostAccess (.read8 (bufAddr b i)) s = .fault .unwrittenRead := by
  rw [hostAccess_read8_buf hlegal hidle hi, readByte_eq_none.2 ⟨hu, hnone⟩]
  rfl

theorem hostAccess_read8_of_anyValue (hnone : bufRead (s.buf b) i = none) (hu : s.params.unwritten = .anyValue) :
    hostAccess (.read8 (bufAddr b i)) s =
      .next { s with hostRead := some (.byte (Config.freeByte s.draws)), draws := s.draws + 1 } := by
  have hdraw : readByte s.params.unwritten (s.buf b) i s.draws = some (Config.freeByte s.draws, s.draws + 1) := by
    simp only [readByte, hnone, hu]
  rw [hostAccess_read8_buf hlegal hidle hi, hdraw]
  rfl

end Byte

/-! ### 32-bit accesses -/

section Word

variable (ha : i % 4 = 0) (hi : i + 4 ≤ bufSize s.params b)
include hlegal hidle ha hi

theorem hostAccess_write32_buf (v : Word) :
    hostAccess (.write32 (bufAddr b i) v) s = .next (s.setBuf b (writeBytes (s.buf b) i (lanesLE v))) := by
  rw [hostAccess_idle hidle]
  simp only [accessIdle, hostWrite32, target32_bufAddr hlegal ha hi]

theorem hostAccess_read32_buf :
    hostAccess (.read32 (bufAddr b i)) s =
      answerRead ((readWordLE s.params.unwritten (s.buf b) i s.draws).map fun r => (.word r.1, r.2)) s := by
  rw [hostAccess_idle hidle]
  simp only [accessIdle, hostRead32, target32_bufAddr hlegal ha hi]

theorem hostAccess_read32_of_holds {b0 b1 b2 b3 : Byte} (hh : holdsBytes (s.buf b) i [b0, b1, b2, b3] = true) :
    hostAccess (.read32 (bufAddr b i)) s = .next { s with hostRead := some (.word (wordLE b0 b1 b2 b3)) } := by
  rw [hostAccess_read32_buf hlegal hidle ha hi, readWordLE_of_holds hh]
  rfl

theorem hostAccess_read32_of_not_written (hnot : ¬ written (s.buf b) i 4) (hu : s.params.unwritten = .fault) :
    hostAccess (.read32 (bufAddr b i)) s = .fault .unwrittenRead := by
  have hnone : ∃ j, j < 4 ∧ bufRead (s.buf b) (i + j) = none := by simpa [written] using hnot
  rw [hostAccess_read32_buf hlegal hidle ha hi, readWordLE_eq_none.2 ⟨hu, hnone⟩]
  rfl

end Word

end BufferAccess

/-- The byte of a little-endian word on each lane. -/
theorem lane_wordLE {b0 b1 b2 b3 x : Byte} {j : Nat} (h : [b0, b1, b2, b3][j]? = some x) :
    (wordLE b0 b1 b2 b3).extractLsb' (8 * j) 8 = x := by
  match j with
  | 0 => cases h; exact Laws.EncodedFields.fieldOPC_packWord _ _ _ _
  | 1 => cases h; exact Laws.EncodedFields.fieldF1_packWord _ _ _ _
  | 2 => cases h; exact Laws.EncodedFields.fieldF2_packWord _ _ _ _
  | 3 => cases h; exact Laws.EncodedFields.fieldF3_packWord _ _ _ _
  | j + 4 => simp at h

/-- Under `any_value` a 32-bit read answers, and each lane of a written byte carries it. -/
theorem hostAccess_read32_of_anyValue {s : State} {b : BufId} {i : Nat} (hlegal : s.params.legal) (hidle : s.busy = false)
    (ha : i % 4 = 0) (hi : i + 4 ≤ bufSize s.params b) (hu : s.params.unwritten = .anyValue) :
    ∃ (v : Word) (k : Nat), hostAccess (.read32 (bufAddr b i)) s = .next { s with hostRead := some (.word v), draws := k } ∧
      ∀ j x, j < 4 → bufRead (s.buf b) (i + j) = some x → v.extractLsb' (8 * j) 8 = x := by
  rw [hostAccess_read32_buf hlegal hidle ha hi]
  rcases readWordLE_eq (u := s.params.unwritten) (m := s.buf b) (i := i) (k := s.draws) with
    ⟨-, hnone⟩ | ⟨b0, b1, b2, b3, k, hread, hword⟩
  · obtain ⟨hfault, -⟩ := readBytes_eq_none.1 hnone
    rw [hu] at hfault; cases hfault
  · rw [hword]
    exact ⟨wordLE b0 b1 b2 b3, k, rfl, fun j x hj hx => lane_wordLE (readBytes_getElem hread hj hx)⟩

theorem bufRead_writeBytes_at {bs : List Byte} {m : Buffer} {i j : Nat} {v : Byte} (h : bs[j]? = some v) :
    bufRead (writeBytes m i bs) (i + j) = some v := holdsBytes_iff.1 (holdsBytes_writeBytes m i bs) j v h

/-- Settles O48: the address of a buffer byte reaches it, so each access is a store to that buffer or a read of it. -/
theorem hostLanesAreLittleEndian : Obligations.HostLanesAreLittleEndian := by
  unfold Obligations.HostLanesAreLittleEndian
  refine ⟨fun b i v s hlegal hidle ha hi => ?write32, fun b i v s hlegal hidle hi => ?write8,
    fun b i s hlegal hidle hi => ⟨fun v => hostAccess_read8_of_held hlegal hidle hi,
      hostAccess_read8_of_unwritten hlegal hidle hi, fun hnone hu => ⟨_, hostAccess_read8_of_anyValue hlegal hidle hi hnone hu⟩⟩,
    fun b i s hlegal hidle ha hi => ⟨fun _ _ _ _ => hostAccess_read32_of_holds hlegal hidle ha hi,
      hostAccess_read32_of_not_written hlegal hidle ha hi, hostAccess_read32_of_anyValue hlegal hidle ha hi⟩,
    fun s t hlegal hidle h => ?r62Example⟩
  case write32 =>
    obtain ⟨hkeeps, hself, hother⟩ := setBuf_keeps s b (writeBytes (s.buf b) i (lanesLE v))
    have hparams := setBuf_params s b (writeBytes (s.buf b) i (lanesLE v))
    refine ⟨_, hostAccess_write32_buf hlegal hidle ha hi v, hkeeps, ?_, ?_, ?_, ?_, fun a hout => ?_, hother, ?_⟩
    · rw [hself]; exact bufRead_writeBytes_at (j := 0) rfl
    · rw [hself]; exact bufRead_writeBytes_at (j := 1) rfl
    · rw [hself]; exact bufRead_writeBytes_at (j := 2) rfl
    · rw [hself]; exact bufRead_writeBytes_at (j := 3) rfl
    · rw [hself]; exact bufRead_writeBytes_outside hout
    · have hholds := holdsBytes_writeBytes (s.buf b) i (lanesLE v)
      rw [← hself] at hholds
      rw [hostAccess_read32_of_holds (hparams ▸ hlegal) ((setBuf_busy ..).trans hidle) ha (hparams ▸ hi) hholds, wordLE_lanes]
  case write8 =>
    obtain ⟨hkeeps, hself, hother⟩ := setBuf_keeps s b (bufWrite (s.buf b) i v)
    have hparams := setBuf_params s b (bufWrite (s.buf b) i v)
    have hread : bufRead ((s.setBuf b (bufWrite (s.buf b) i v)).buf b) i = some v := by rw [hself, bufRead_bufWrite_self]
    refine ⟨_, hostAccess_write8_buf hlegal hidle hi v, hkeeps, hread, fun a hne => ?_, hother, ?_⟩
    · rw [hself]; exact bufRead_bufWrite_other _ _ (Ne.symm hne)
    · exact hostAccess_read8_of_held (hparams ▸ hlegal) ((setBuf_busy ..).trans hidle) (hparams ▸ hi) hread
  case r62Example =>
    have hsize : 0 + 4 ≤ bufSize s.params .ibuf := le_trans (by decide) hlegal.1
    obtain rfl := Host.Outcome.next.inj ((hostAccess_write32_buf (b := .ibuf) hlegal hidle rfl hsize 0x474E5089).symm.trans h)
    exact holdsBytes_writeBytes s.ibuf 0 [0x89, 0x50, 0x4E, 0x47]

end Sys2Proof.Machine
end
